-- ==== Sys2Proof/Word.lean ====
section
/-! DEFINITION. The value types of the hardware (00_scope.md R10, R11): 64-bit words, bytes and
nibbles. Arithmetic on them is `BitVec` arithmetic, that is modulo 2^64, 2^8 and 2^4. -/

namespace Sys2Proof

/-- A `u64`: a register, the PC, an address, valA .. valP (R10). -/
abbrev Word := BitVec 64

/-- A `u8`, the addressable unit (Table P1). -/
abbrev Byte := BitVec 8

/-- A `u4`: icode, ifun, rA, rB as they stand in an encoding (R91, R93). -/
abbrev Nibble := BitVec 4

end Sys2Proof
end

