-- ==== Sys2Proof/Syntax.lean ====
section
/-! DEFINITION. The instructions as syntax: the fifteen registers, the register fields of an
encoding, the thirteen classes and one constructor for each of the 28 rows of the opcode table. -/

namespace Sys2Proof

/-- The fifteen general registers, in the order of their ids 0x0 to 0xE (10_state.md R20). -/
inductive Reg
  | rax | rcx | rdx | rbx | rsp | rbp | rsi | rdi
  | r8 | r9 | r10 | r11 | r12 | r13 | r14
deriving DecidableEq, Repr

/-- A register field of an encoding: a register, or `none` for RNONE (id 0xF), which is
"never a valid index into the file" (R21, R93). The sixteen values are the sixteen nibbles. -/
abbrev RegId := Option Reg

/-- The conditions of CMOVcc and Jcc, ifun 0 to 6 (R97, R140). -/
inductive Cond
  | always | le | l | e | ne | ge | g
deriving DecidableEq, Repr

/-- The ALU operations of OPQ, ifun 0 to 3 (R97, R139). -/
inductive AluOp
  | add | sub | and | xor
deriving DecidableEq, Repr

/-- The thirteen instruction classes, icode 0x0 to 0xC (R2, R92). -/
inductive IClass
  | halt | nop | cmov | irmovq | rmmovq | mrmovq | opq | jcc | call | ret | pushq | popq | iaddq
deriving DecidableEq, Repr

/-- The 28 instructions (30_encoding.md R98). A class with a register byte keeps both of its
fields, the unused one included, because `STRICT_UNUSED_REG` makes its value matter (R100, R134).
`valC` is the full 64-bit immediate: a value, a displacement or an absolute target (R94). -/
inductive Instr
  | halt
  | nop
  | rrmovq (rA rB : RegId)
  | cmovle (rA rB : RegId)
  | cmovl (rA rB : RegId)
  | cmove (rA rB : RegId)
  | cmovne (rA rB : RegId)
  | cmovge (rA rB : RegId)
  | cmovg (rA rB : RegId)
  | irmovq (rA rB : RegId) (valC : Word)
  | rmmovq (rA rB : RegId) (valC : Word)
  | mrmovq (rA rB : RegId) (valC : Word)
  | addq (rA rB : RegId)
  | subq (rA rB : RegId)
  | andq (rA rB : RegId)
  | xorq (rA rB : RegId)
  | jmp (valC : Word)
  | jle (valC : Word)
  | jl (valC : Word)
  | je (valC : Word)
  | jne (valC : Word)
  | jge (valC : Word)
  | jg (valC : Word)
  | call (valC : Word)
  | ret
  | pushq (rA rB : RegId)
  | popq (rA rB : RegId)
  | iaddq (rA rB : RegId) (valC : Word)
deriving DecidableEq, Repr

end Sys2Proof
end

