-- ==== Sys2Proof/WellFormed.lean ====
section
/-! DEFINITION. Well-formed and canonical instructions: which register fields must name a register
(40_cycle.md R132) and which must hold RNONE for an encoding to be canonical (30_encoding.md R102). -/

namespace Sys2Proof

/-- The register fields the instruction requires (R132). -/
def Instr.requiredFields : Instr → List RegId
  | .halt | .nop | .ret => []
  | .jmp _ | .jle _ | .jl _ | .je _ | .jne _ | .jge _ | .jg _ | .call _ => []
  | .rrmovq rA rB | .cmovle rA rB | .cmovl rA rB | .cmove rA rB
  | .cmovne rA rB | .cmovge rA rB | .cmovg rA rB => [rA, rB]
  | .addq rA rB | .subq rA rB | .andq rA rB | .xorq rA rB => [rA, rB]
  | .rmmovq rA rB _ | .mrmovq rA rB _ => [rA, rB]
  | .irmovq _ rB _ | .iaddq _ rB _ => [rB]
  | .pushq rA _ | .popq rA _ => [rA]

/-- The register fields the instruction has and does not use (R132). -/
def Instr.unusedFields : Instr → List RegId
  | .halt | .nop | .ret => []
  | .jmp _ | .jle _ | .jl _ | .je _ | .jne _ | .jge _ | .jg _ | .call _ => []
  | .rrmovq _ _ | .cmovle _ _ | .cmovl _ _ | .cmove _ _
  | .cmovne _ _ | .cmovge _ _ | .cmovg _ _ => []
  | .addq _ _ | .subq _ _ | .andq _ _ | .xorq _ _ => []
  | .rmmovq _ _ _ | .mrmovq _ _ _ => []
  | .irmovq rA _ _ | .iaddq rA _ _ => [rA]
  | .pushq _ rB | .popq _ rB => [rB]

/-- No required field holds RNONE (R100, R133). -/
def Instr.wellFormed (i : Instr) : Bool := i.requiredFields.all Option.isSome

/-- Every unused field holds RNONE (R102). -/
def Instr.canonical (i : Instr) : Bool := i.unusedFields.all Option.isNone

end Sys2Proof
end

