-- ==== Sys2Proof/Decode.lean ====
section
/-! DEFINITION. Instruction encoding (30_encoding.md): byte order and nibbles, the decoder (total on
every byte string, rejecting by name) and, after it, the encoder. The decoder is written from the
icode/ifun table (R92, R97), the encoder from the opcode map (R98) and the formats (R95). -/

namespace Sys2Proof

/-! ### Byte order (00_scope.md R13) -/

/-- `byte_k(v) = v[8k+7:8k]`. -/
def byteOf (k : Nat) (v : Word) : Byte := v.extractLsb' (8 * k) 8

/-- The eight bytes of `v`, least significant first. -/
def bytesLE (v : Word) : List Byte :=
  [byteOf 0 v, byteOf 1 v, byteOf 2 v, byteOf 3 v, byteOf 4 v, byteOf 5 v, byteOf 6 v, byteOf 7 v]

/-- `le64`: the first byte is the least significant one. -/
def le64 : List Byte → Word
  | [] => 0
  | b :: bs => b.zeroExtend 64 ||| (le64 bs <<< 8)

/-! ### Nibbles and register fields -/

/-- `b[7:4]` (R11). -/
def hiNibble (b : Byte) : Nibble := b.extractLsb' 4 4

/-- `b[3:0]` (R11). -/
def loNibble (b : Byte) : Nibble := b.extractLsb' 0 4

/-- The register a field names; 0xF is RNONE (10_state.md R20, R21). -/
def regIdOf (n : Nibble) : RegId :=
  match n.toNat with
  | 0x0 => some .rax
  | 0x1 => some .rcx
  | 0x2 => some .rdx
  | 0x3 => some .rbx
  | 0x4 => some .rsp
  | 0x5 => some .rbp
  | 0x6 => some .rsi
  | 0x7 => some .rdi
  | 0x8 => some .r8
  | 0x9 => some .r9
  | 0xA => some .r10
  | 0xB => some .r11
  | 0xC => some .r12
  | 0xD => some .r13
  | 0xE => some .r14
  | _ => none

/-! ### The icode/ifun table (R92, R97) -/

/-- The class an icode selects; 0xD, 0xE and 0xF are not in the valid set (R92). -/
def classOf (icode : Nibble) : Option IClass :=
  match icode.toNat with
  | 0x0 => some .halt
  | 0x1 => some .nop
  | 0x2 => some .cmov
  | 0x3 => some .irmovq
  | 0x4 => some .rmmovq
  | 0x5 => some .mrmovq
  | 0x6 => some .opq
  | 0x7 => some .jcc
  | 0x8 => some .call
  | 0x9 => some .ret
  | 0xA => some .pushq
  | 0xB => some .popq
  | 0xC => some .iaddq
  | _ => none

/-- The ifun constraint of a class (R92). -/
def ifunValid (c : IClass) (ifun : Nibble) : Bool :=
  match c with
  | .cmov | .jcc => decide (ifun.toNat ≤ 6)
  | .opq => decide (ifun.toNat ≤ 3)
  | .halt | .nop | .irmovq | .rmmovq | .mrmovq | .call | .ret | .pushq | .popq | .iaddq =>
    decide (ifun.toNat = 0)

/-- The class of a valid byte 0, `none` for one of the illegal values (R99). -/
def classOfByte0 (b0 : Byte) : Option IClass :=
  match classOf (hiNibble b0) with
  | some c => if ifunValid c (loNibble b0) then some c else none
  | none => none

/-- Whether the class has a register byte (R92). -/
def usesRegByte : IClass → Bool
  | .cmov | .irmovq | .rmmovq | .mrmovq | .opq | .pushq | .popq | .iaddq => true
  | .halt | .nop | .jcc | .call | .ret => false

/-- Whether the class has an 8-byte immediate (R92). -/
def usesValC : IClass → Bool
  | .irmovq | .rmmovq | .mrmovq | .jcc | .call | .iaddq => true
  | .halt | .nop | .cmov | .opq | .ret | .pushq | .popq => false

/-- The instruction length, from the class alone (R96). -/
def classLength (c : IClass) : Nat :=
  1 + (if usesRegByte c then 1 else 0) + (if usesValC c then 8 else 0)

/-! ### The decoder -/

/-- The CMOVcc instruction of an ifun (R97). -/
def cmovOf (ifun : Nibble) (rA rB : RegId) : Option Instr :=
  match ifun.toNat with
  | 0 => some (.rrmovq rA rB)
  | 1 => some (.cmovle rA rB)
  | 2 => some (.cmovl rA rB)
  | 3 => some (.cmove rA rB)
  | 4 => some (.cmovne rA rB)
  | 5 => some (.cmovge rA rB)
  | 6 => some (.cmovg rA rB)
  | _ => none

/-- The OPQ instruction of an ifun (R97). -/
def opqOf (ifun : Nibble) (rA rB : RegId) : Option Instr :=
  match ifun.toNat with
  | 0 => some (.addq rA rB)
  | 1 => some (.subq rA rB)
  | 2 => some (.andq rA rB)
  | 3 => some (.xorq rA rB)
  | _ => none

/-- The Jcc instruction of an ifun (R97). -/
def jccOf (ifun : Nibble) (valC : Word) : Option Instr :=
  match ifun.toNat with
  | 0 => some (.jmp valC)
  | 1 => some (.jle valC)
  | 2 => some (.jl valC)
  | 3 => some (.je valC)
  | 4 => some (.jne valC)
  | 5 => some (.jge valC)
  | 6 => some (.jg valC)
  | _ => none

/-- The instruction of a class, an ifun and the fields read. -/
def instrOf (c : IClass) (ifun : Nibble) (rA rB : RegId) (valC : Word) : Option Instr :=
  match c with
  | .halt => some .halt
  | .nop => some .nop
  | .cmov => cmovOf ifun rA rB
  | .irmovq => some (.irmovq rA rB valC)
  | .rmmovq => some (.rmmovq rA rB valC)
  | .mrmovq => some (.mrmovq rA rB valC)
  | .opq => opqOf ifun rA rB
  | .jcc => jccOf ifun valC
  | .call => some (.call valC)
  | .ret => some .ret
  | .pushq => some (.pushq rA rB)
  | .popq => some (.popq rA rB)
  | .iaddq => some (.iaddq rA rB valC)

/-- Why the decoder rejects a byte string. -/
inductive Reject
  /-- Byte 0 is not one of the 28 valid values (R99). -/
  | illegalByte0
  /-- A required register field holds RNONE (R100). -/
  | noRegister
  /-- The string ends before the instruction does; a fetch never hands over such a string. -/
  | truncated
deriving DecidableEq, Repr

/-- What decoding answers: an instruction with the bytes after it, or a rejection. -/
inductive Decoded
  | instr (i : Instr) (rest : List Byte)
  | reject (why : Reject)
deriving DecidableEq, Repr

/-- The register byte, when the class has one, and what follows it; without one both fields are
RNONE (R93). -/
def takeRegByte (c : IClass) (bs : List Byte) : Option (RegId × RegId × List Byte) :=
  if usesRegByte c then
    match bs with
    | b :: rest => some (regIdOf (hiNibble b), regIdOf (loNibble b), rest)
    | [] => none
  else some (none, none, bs)

/-- The immediate, when the class has one, and what follows it (R94). -/
def takeValC (c : IClass) (bs : List Byte) : Option (Word × List Byte) :=
  if usesValC c then
    match bs with
    | b0 :: b1 :: b2 :: b3 :: b4 :: b5 :: b6 :: b7 :: rest =>
      some (le64 [b0, b1, b2, b3, b4, b5, b6, b7], rest)
    | _ => none
  else some (0, bs)

/-- The instruction at the front of a byte string (R91 to R101). -/
def decode (bs : List Byte) : Decoded :=
  match bs with
  | [] => .reject .truncated
  | b0 :: rest0 =>
    match classOfByte0 b0 with
    | none => .reject .illegalByte0
    | some c =>
      match takeRegByte c rest0 with
      | none => .reject .truncated
      | some (rA, rB, rest1) =>
        match takeValC c rest1 with
        | none => .reject .truncated
        | some (valC, rest2) =>
          match instrOf c (loNibble b0) rA rB valC with
          | none => .reject .illegalByte0
          | some i => if i.wellFormed then .instr i rest2 else .reject .noRegister

/-! ### The encoder -/

/-- A register's id (R20). -/
def regNibble : Reg → Nibble
  | .rax => 0x0
  | .rcx => 0x1
  | .rdx => 0x2
  | .rbx => 0x3
  | .rsp => 0x4
  | .rbp => 0x5
  | .rsi => 0x6
  | .rdi => 0x7
  | .r8 => 0x8
  | .r9 => 0x9
  | .r10 => 0xA
  | .r11 => 0xB
  | .r12 => 0xC
  | .r13 => 0xD
  | .r14 => 0xE

/-- A register field; RNONE is 0xF (R21). -/
def fieldNibble : RegId → Nibble
  | some r => regNibble r
  | none => 0xF

/-- The register byte: rA in bits 7..4, rB in bits 3..0 (R93). -/
def regByte (rA rB : RegId) : Byte := fieldNibble rA ++ fieldNibble rB

/-- Format F2 (R95). -/
def encodeF2 (byte0 : Byte) (rA rB : RegId) : List Byte := [byte0, regByte rA rB]

/-- Format F3 (R95). -/
def encodeF3 (byte0 : Byte) (valC : Word) : List Byte := byte0 :: bytesLE valC

/-- Format F4 (R95). -/
def encodeF4 (byte0 : Byte) (rA rB : RegId) (valC : Word) : List Byte :=
  byte0 :: regByte rA rB :: bytesLE valC

/-- The bytes of an instruction, byte 0 from the opcode map (R98). -/
def encode : Instr → List Byte
  | .halt => [0x00]
  | .nop => [0x10]
  | .rrmovq rA rB => encodeF2 0x20 rA rB
  | .cmovle rA rB => encodeF2 0x21 rA rB
  | .cmovl rA rB => encodeF2 0x22 rA rB
  | .cmove rA rB => encodeF2 0x23 rA rB
  | .cmovne rA rB => encodeF2 0x24 rA rB
  | .cmovge rA rB => encodeF2 0x25 rA rB
  | .cmovg rA rB => encodeF2 0x26 rA rB
  | .irmovq rA rB v => encodeF4 0x30 rA rB v
  | .rmmovq rA rB d => encodeF4 0x40 rA rB d
  | .mrmovq rA rB d => encodeF4 0x50 rA rB d
  | .addq rA rB => encodeF2 0x60 rA rB
  | .subq rA rB => encodeF2 0x61 rA rB
  | .andq rA rB => encodeF2 0x62 rA rB
  | .xorq rA rB => encodeF2 0x63 rA rB
  | .jmp dest => encodeF3 0x70 dest
  | .jle dest => encodeF3 0x71 dest
  | .jl dest => encodeF3 0x72 dest
  | .je dest => encodeF3 0x73 dest
  | .jne dest => encodeF3 0x74 dest
  | .jge dest => encodeF3 0x75 dest
  | .jg dest => encodeF3 0x76 dest
  | .call dest => encodeF3 0x80 dest
  | .ret => [0x90]
  | .pushq rA rB => encodeF2 0xA0 rA rB
  | .popq rA rB => encodeF2 0xB0 rA rB
  | .iaddq rA rB v => encodeF4 0xC0 rA rB v

/-- The instruction's length in bytes: 1, 2, 9 or 10 (R90, R96). -/
def Instr.length : Instr → Nat
  | .halt | .nop | .ret => 1
  | .rrmovq _ _ | .cmovle _ _ | .cmovl _ _ | .cmove _ _
  | .cmovne _ _ | .cmovge _ _ | .cmovg _ _ => 2
  | .addq _ _ | .subq _ _ | .andq _ _ | .xorq _ _ => 2
  | .pushq _ _ | .popq _ _ => 2
  | .jmp _ | .jle _ | .jl _ | .je _ | .jne _ | .jge _ | .jg _ | .call _ => 9
  | .irmovq _ _ _ | .rmmovq _ _ _ | .mrmovq _ _ _ | .iaddq _ _ _ => 10

/-! ### A table word -/

/-- The ten bytes of the table word `w` of `nbits` bits, bit 0 of `w` being bit 0 of byte 0, with
zeros above `nbits`: as many bytes as the longest instruction has. -/
def tableBytes (nbits w : Nat) : List Byte :=
  let v := w % 2 ^ nbits
  [0, 1, 2, 3, 4, 5, 6, 7, 8, 9].map fun k => BitVec.ofNat 8 (v / 2 ^ (8 * k))

/-- The instruction the decoder reads from a table word. -/
def decodeTableWord (nbits w : Nat) : Option Instr :=
  match decode (tableBytes nbits w) with
  | .instr i _ => some i
  | .reject _ => none

end Sys2Proof
end

