-- ==== Sys2Proof/Machine/Memory.lean ====
section
/-! DEFINITION. A byte array of a device (RAM, the PPU configuration region, a framebuffer) as a
list of (relative address, byte) pairs in one canonical form: addresses strictly rising, and no
entry equal to what an unlisted address reads as. -/

namespace Sys2Proof.Machine

/-- The contents of a byte array. -/
abbrev Memory := List Host.Cell

/-- What an unlisted byte reads as: 0, the reset value of every byte array of the hardware
(20_memory.md R53, 60_exceptions.md R285). -/
def Memory.unlisted : Byte := 0

/-- The byte at a relative address. -/
def Memory.read : Memory → Nat → Byte
  | [], _ => Memory.unlisted
  | (k, b) :: m, a => if k = a then b else Memory.read m a

/-- The contents with no entry for `a`. -/
def Memory.erase : Memory → Nat → Memory
  | [], _ => []
  | (k, b) :: m, a => if k = a then Memory.erase m a else (k, b) :: Memory.erase m a

/-- The contents with the entry `(a, v)` before the first higher address. -/
def Memory.insert : Memory → Nat → Byte → Memory
  | [], a, v => [(a, v)]
  | (k, b) :: m, a, v => if a < k then (a, v) :: (k, b) :: m else (k, b) :: Memory.insert m a v

/-- The contents after byte `a` is set to `v`; setting it to what an unlisted byte reads as removes
its entry. -/
def Memory.write (m : Memory) (a : Nat) (v : Byte) : Memory :=
  if v = Memory.unlisted then Memory.erase m a else Memory.insert (Memory.erase m a) a v

/-- The addresses rise strictly from `lo` on, and no entry is the unlisted byte. -/
def Memory.risingFrom : Nat → Memory → Bool
  | _, [] => true
  | lo, (k, b) :: m => decide (lo ≤ k) && (b != Memory.unlisted) && Memory.risingFrom (k + 1) m

/-- The canonical form. -/
def Memory.wf (m : Memory) : Bool := Memory.risingFrom 0 m

/-- Every listed address lies below `n`, the size of the array. -/
def Memory.below (m : Memory) (n : Nat) : Bool := m.all fun c => decide (c.1 < n)

/-- The bytes `b0, b1, ...` at `a, a + 1, ...`. -/
def Memory.writeList : Memory → Nat → List Byte → Memory
  | m, _, [] => m
  | m, a, b :: bs => Memory.writeList (Memory.write m a b) (a + 1) bs

end Sys2Proof.Machine
end

