-- ==== Sys2Proof/Config.lean ====
section
/-! DEFINITION. What is fixed before the first cycle, and what the outside world supplies.
`Config` holds every entry of Table P1 (00_scope.md) marked "parameter"; `HostInput` is one
iteration's input of 70_reset_and_hazards.md R335; `freeInput` is the free value of that input. -/

namespace Sys2Proof

/-- `PLATFORM` (Table P1): RAM only, or RAM with the three peripherals. -/
inductive Platform
  | batch | interactive
deriving DecidableEq, Repr

/-- The devices of the hardware (20_memory.md R50). -/
inductive Device
  | ram | joystick | ppu | timer
deriving DecidableEq, Repr

/-- One record `{device, start, end}` of the bus table; the end is exclusive (R55). -/
structure Mapping where
  device : Device
  start : Nat
  stop : Nat
deriving DecidableEq, Repr

/-- The parameters of Table P1. A model "takes every entry marked parameter as an argument" (R9):
they stand in `State.config`, so a statement about every state holds for all of them. -/
structure Config where
  platform : Platform
  /-- `RAM_SIZE`, at least 1 (R52). -/
  ramSize : Nat
  /-- `BUS_MAP`, in registration order (R55, R58). -/
  busMap : List Mapping
  /-- `FETCH_ADR_CONTINUES` (R130). -/
  fetchAdrContinues : Bool
  /-- `MULTIBYTE_STOP_AT_MISS` (R70, R71). -/
  multibyteStopAtMiss : Bool
  /-- `STRICT_UNUSED_REG` (R134). -/
  strictUnusedReg : Bool
  /-- `TIMER_PERIOD_US` (60_exceptions.md R291). -/
  timerPeriodUs : Nat
  /-- `CYCLE_CAP` (R331): read by the driver loop only, never by a step. -/
  cycleCap : Nat
deriving DecidableEq, Repr

/-- The set of buttons pressed in one frame (60_exceptions.md R296). -/
structure Buttons where
  aUp : Bool
  aDown : Bool
  bUp : Bool
  bDown : Bool
  start : Bool
  reset : Bool
deriving DecidableEq, Repr, Inhabited

/-- What the host supplies to one interactive iteration (R335): the frame's buttons and the
microseconds elapsed since the previous update. -/
structure HostInput where
  buttons : Buttons
  deltaUs : Nat
deriving DecidableEq, Repr, Inhabited

/-- The host's input of iteration `k` where the state lists none: any value
(93_implementation_defined.md U11), so nothing is known of it (notes/assumptions/4). -/
opaque Config.freeInput : Nat → HostInput

end Sys2Proof
end

