-- ==== Sys2Proof/Machine/Platform.lean ====
section
/-! DEFINITION. The address maps of the two platforms, the registration of mappings, and the
parameter values the machine is reset with (20_memory.md R55, R62; 00_scope.md Table P1). -/

namespace Sys2Proof

/-- Table P1: `TIMER_PERIOD_US`, 16667 microseconds. -/
def standardTimerPeriodUs : Nat := 16667

/-- `register_device`: appends a record, and fails when `start ≥ end` (R55). -/
def registerDevice (map : List Mapping) (device : Device) (start stop : Nat) :
    Option (List Mapping) :=
  if start < stop then some (map ++ [⟨device, start, stop⟩]) else none

/-- The default address map of a platform, in registration order (R62). -/
def defaultMap (platform : Platform) (ramSize : Nat) : List Mapping :=
  match platform with
  | .batch => [⟨.ram, 0x0, ramSize⟩]
  | .interactive =>
    [⟨.ram, 0x0000, ramSize⟩, ⟨.joystick, 0x2000, 0x2001⟩,
     ⟨.ppu, 0x3000, 0x30C0⟩, ⟨.timer, 0x4000, 0x4001⟩]

/-- A machine with the default map of its platform and every other parameter at the default
Table P1 gives; `RAM_SIZE` and `CYCLE_CAP` have none and are arguments. -/
def Config.standard (platform : Platform) (ramSize cycleCap : Nat) : Config where
  platform := platform
  ramSize := ramSize
  busMap := defaultMap platform ramSize
  fetchAdrContinues := true
  multibyteStopAtMiss := false
  strictUnusedReg := false
  timerPeriodUs := standardTimerPeriodUs
  cycleCap := cycleCap

/-- The parameters `State.reset` has: those of the spec's own test vectors, `batch` with
`RAM_SIZE = 0x1000`; the cap is the larger of the two the source's tests use.
DESIGN CHOICE (notes/assumptions/2): the spec leaves all three open. -/
def Config.atReset : Config := Config.standard .batch 0x1000 4096

/-- What the source lets a machine be built from: RAM of at least one byte (R52) and mappings with
`start < end` (R55). A period of at least one microsecond is PRESUMED (notes/assumptions/7). -/
def Config.wf (c : Config) : Bool :=
  decide (1 ≤ c.ramSize) && c.busMap.all (fun m => decide (m.start < m.stop)) &&
    decide (1 ≤ c.timerPeriodUs)

end Sys2Proof
end

