-- ==== Sys2Proof/Machine/State.lean ====
section
/-! DEFINITION. The state of the machine between two steps (10_state.md; 60_exceptions.md for the
devices), the reasons a step could stop, and the state after reset. The cycle scratch record of R34
does not exist between cycles (70_reset_and_hazards.md R310): its fields are the local values of a
step (notes/assumptions/3). -/

namespace Sys2Proof.Machine

/-- The register file, "exclusively owned by the CPU" (R20, R23). -/
structure RegFile where
  rax : Word
  rcx : Word
  rdx : Word
  rbx : Word
  rsp : Word
  rbp : Word
  rsi : Word
  rdi : Word
  r8 : Word
  r9 : Word
  r10 : Word
  r11 : Word
  r12 : Word
  r13 : Word
  r14 : Word
deriving DecidableEq, Repr

/-- The condition codes (R24). -/
structure CC where
  zf : Bool
  sf : Bool
  of : Bool
deriving DecidableEq, Repr

/-- The processor status (R27, R28). -/
inductive Stat
  | aok | ins | adr | hlt
deriving DecidableEq, Repr

/-- An entry of the PPU's active-sprite list: one record of the configuration region
(60_exceptions.md R271, R276). -/
structure Sprite where
  addr : Word
  height : Byte
  width : Byte
  x : Byte
  y : Byte
deriving DecidableEq, Repr

/-- The PPU (60_exceptions.md R273): the 192-byte configuration region, the active-sprite list, and
the back and front framebuffers of 450 bytes each. -/
structure Ppu where
  config : Memory
  active : List Sprite
  back : Memory
  front : Memory
deriving DecidableEq, Repr

/-- The timer (R290, R291): the tick byte and the residual elapsed time in microseconds. -/
structure Timer where
  byte : Byte
  acc : Nat
deriving DecidableEq, Repr

/-- The joystick (R295): the button byte. -/
structure Joystick where
  byte : Byte
deriving DecidableEq, Repr

/-- The machine. `config` holds the parameters of Table P1, among them the bus table of R55, which
no step changes. `inputs` and `iteration` are the MODEL's own fields for the host interface: the
inputs the host supplies to the coming iterations, oldest first (R335), and the number of
iterations run since reset (the `k` of R331), which also picks the free value of an input the list
does not hold. -/
structure State where
  config : Config
  regs : RegFile
  cc : CC
  stat : Stat
  pc : Word
  ram : Memory
  ppu : Ppu
  timer : Timer
  joystick : Joystick
  inputs : List HostInput
  iteration : Nat
deriving DecidableEq, Repr

/-- The reasons a step stops the model with a fault: none. The hardware has no trap mechanism, and
every exceptional condition is recorded in STAT by a step that completes (60_exceptions.md R250).
Nobody raises one (safe). -/
inductive Fault : Type
deriving DecidableEq, Repr

/-- The reasons a step has no meaning in the model. -/
inductive Refusal
  /-- Raised by an arm of `exec` for an instruction without a meaning (safe). No arm raises it. -/
  | notModelled (mnemonic : String)
deriving DecidableEq, Repr

/-- Every general register 0 (R23). -/
def RegFile.reset : RegFile := ⟨0, 0, 0, 0, 0, 0, 0, 0, 0, 0, 0, 0, 0, 0, 0⟩

/-- The machine with the given parameters right after reset: CPU state by
70_reset_and_hazards.md R310, devices by R311. -/
def State.resetWith (config : Config) : State where
  config := config
  regs := RegFile.reset
  cc := { zf := true, sf := false, of := false }
  stat := .aok
  pc := 0
  ram := []
  ppu := { config := [], active := [], back := [], front := [] }
  timer := { byte := 0, acc := 0 }
  joystick := { byte := 0 }
  inputs := []
  iteration := 0

/-- The machine right after reset, with the parameters `Config.atReset`. -/
def State.reset : State := State.resetWith Config.atReset

end Sys2Proof.Machine
end

