-- ==== Sys2Proof/Machine/Ops.lean ====
section
/-! DEFINITION. The named operations every instruction is built from: registers, the status merge
(which is all that "taking an exception" is on this hardware), devices, the bus, the 8-byte memory
accesses, the register-field checks of decode and the PC update (10_state.md, 20_memory.md,
40_cycle.md). -/

namespace Sys2Proof.Machine

/-! ### Registers -/

/-- The register a name selects (R20). -/
def RegFile.get (f : RegFile) : Reg → Word
  | .rax => f.rax
  | .rcx => f.rcx
  | .rdx => f.rdx
  | .rbx => f.rbx
  | .rsp => f.rsp
  | .rbp => f.rbp
  | .rsi => f.rsi
  | .rdi => f.rdi
  | .r8 => f.r8
  | .r9 => f.r9
  | .r10 => f.r10
  | .r11 => f.r11
  | .r12 => f.r12
  | .r13 => f.r13
  | .r14 => f.r14

/-- The file with one register changed. No register is hardwired (R21, R22). -/
def RegFile.set (f : RegFile) (r : Reg) (v : Word) : RegFile :=
  match r with
  | .rax => { f with rax := v }
  | .rcx => { f with rcx := v }
  | .rdx => { f with rdx := v }
  | .rbx => { f with rbx := v }
  | .rsp => { f with rsp := v }
  | .rbp => { f with rbp := v }
  | .rsi => { f with rsi := v }
  | .rdi => { f with rdi := v }
  | .r8 => { f with r8 := v }
  | .r9 => { f with r9 := v }
  | .r10 => { f with r10 := v }
  | .r11 => { f with r11 := v }
  | .r12 => { f with r12 := v }
  | .r13 => { f with r13 := v }
  | .r14 => { f with r14 := v }

/-- `R[r]` (00_scope.md R14). -/
def State.reg (s : State) (r : Reg) : Word := s.regs.get r

/-- `R[r] <- v`. -/
def State.setReg (s : State) (r : Reg) (v : Word) : State := { s with regs := s.regs.set r v }

/-! ### The processor status: taking an exception, and the absence of a return -/

/-- The merge priority of a status (10_state.md R27). -/
def Stat.priority : Stat → Nat
  | .aok => 0
  | .ins => 1
  | .adr => 2
  | .hlt => 3

/-- The external encoding of a status (R27, R28). -/
def Stat.traceCode : Stat → Nat
  | .aok => 1
  | .hlt => 2
  | .adr => 3
  | .ins => 4

/-- `set_status`, the only way STAT is written (40_cycle.md R122). -/
def Stat.merge (old new : Stat) : Stat := if old.priority ≤ new.priority then new else old

/-- `raise new` (00_scope.md R14). This is the whole of taking an exception here: STAT is merged, no
PC, status or cause is saved, no mode changes and control goes nowhere (60_exceptions.md R250, R258).
There is no return from an exception beside it: no instruction clears STAT (R255, R259). -/
def State.raise (s : State) (new : Stat) : State := { s with stat := s.stat.merge new }

/-- `if c then raise new`. -/
def State.raiseIf (s : State) (c : Bool) (new : Stat) : State := if c then s.raise new else s

/-- The guard `fetch_ok` as the stages after fetch see it: a cycle starts with STAT = AOK and fetch
raises ADR exactly when it clears the guard (R123, R124, R142).
DEDUCED (notes/assumptions/3). -/
def State.fetchOk (s : State) : Bool := s.stat == .aok

/-! ### Condition codes and PC -/

/-- OPQ and IADDQ write all three flags, when and only when STAT = AOK at execute (R142). -/
def State.writeCC (s : State) (cc : CC) : State := if s.stat = .aok then { s with cc := cc } else s

/-- PC update: `pc <- target` iff the guards hold, else the PC keeps `inst_pc` (R152, R153). -/
def State.pcUpdate (s : State) (ok : Bool) (target : Word) : State :=
  if ok then { s with pc := target } else s

/-! ### The register-field check of the decode stage (R133, R134) -/

/-- An unused register field passes: it is not checked, unless `STRICT_UNUSED_REG`, and then it must
hold RNONE (R134). -/
def State.unusedOk (s : State) (r : RegId) : Bool := !s.config.strictUnusedReg || r.isNone

/-! ### Devices (20_memory.md R50; 60_exceptions.md) -/

/-- The size of the PPU configuration region (60_exceptions.md R270). -/
def ppuConfigSize : Nat := 192

/-- `device.read(rel)`; `none` where RAM rejects an address outside it (R53), which the bus answers
as a miss. The PPU, the timer and the joystick read 0 out of range (R270, R290, R295). -/
def State.deviceRead (s : State) (d : Device) (rel : Nat) : Option Byte :=
  match d with
  | .ram => if rel < s.config.ramSize then some (s.ram.read rel) else none
  | .ppu => some (if rel < ppuConfigSize then s.ppu.config.read rel else 0)
  | .timer => some (if rel = 0 then s.timer.byte else 0)
  | .joystick => some (if rel = 0 then s.joystick.byte else 0)

/-- `device.write(rel, b)`; `none` where RAM rejects the address. The PPU ignores a write out of
range, the timer and the joystick ignore every write (R270, R290, R295). -/
def State.deviceWrite (s : State) (d : Device) (rel : Nat) (b : Byte) : Option State :=
  match d with
  | .ram => if rel < s.config.ramSize then some { s with ram := s.ram.write rel b } else none
  | .ppu =>
    some (if rel < ppuConfigSize then
      { s with ppu := { s.ppu with config := s.ppu.config.write rel b } } else s)
  | .timer => some s
  | .joystick => some s

/-! ### The bus (R55 to R60) -/

/-- The first record that covers an address, as the device and the device-relative address
`a - start` (R56, R58, R60). -/
def findMapping : List Mapping → Nat → Option (Device × Nat)
  | [], _ => none
  | m :: ms, a =>
    if m.start ≤ a ∧ a < m.stop then some (m.device, a - m.start) else findMapping ms a

/-- The device byte an absolute address is routed to. -/
def State.resolve (s : State) (a : Word) : Option (Device × Nat) :=
  findMapping s.config.busMap a.toNat

/-- What a bus access answers: the byte, and whether it missed (status ADR) (R56, R57). -/
structure BusReply where
  data : Byte
  miss : Bool
deriving DecidableEq, Repr

/-- `BusRead(a)`: on a miss data 0 and ADR (R56). -/
def State.busRead (s : State) (a : Word) : BusReply :=
  match s.resolve a with
  | none => ⟨0, true⟩
  | some (d, rel) =>
    match s.deviceRead d rel with
    | none => ⟨0, true⟩
    | some b => ⟨b, false⟩

/-- `BusWrite(a, b)`: on a miss `{0, ADR}` and nothing is written (R57, R59). -/
def State.busWrite (s : State) (a : Word) (b : Byte) : State × BusReply :=
  match s.resolve a with
  | none => (s, ⟨0, true⟩)
  | some (d, rel) =>
    match s.deviceWrite d rel b with
    | none => (s, ⟨0, true⟩)
    | some s' => (s', ⟨b, false⟩)

/-! ### The 8-byte accesses (R70, R71) -/

/-- `n` byte reads in ascending order from `a`, `miss` telling whether an earlier byte of the access
missed; under `MULTIBYTE_STOP_AT_MISS` a byte after a miss is not read and contributes 0. Answers
the bytes and whether any missed. -/
def State.readBytes (s : State) : Nat → Word → Bool → List Byte × Bool
  | 0, _, miss => ([], miss)
  | n + 1, a, miss =>
    if s.config.multibyteStopAtMiss && miss then
      let rest := s.readBytes n (a + 1) miss
      (0 :: rest.1, rest.2)
    else
      let r := s.busRead a
      let rest := s.readBytes n (a + 1) (miss || r.miss)
      (r.data :: rest.1, rest.2)

/-- The byte writes of a list of bytes in ascending order from `a`; under
`MULTIBYTE_STOP_AT_MISS` a byte after a miss is not written. Answers the state and whether any
missed. -/
def State.writeBytes (s : State) : List Byte → Word → Bool → State × Bool
  | [], _, miss => (s, miss)
  | b :: bs, a, miss =>
    if s.config.multibyteStopAtMiss && miss then s.writeBytes bs (a + 1) miss
    else
      let r := s.busWrite a b
      r.1.writeBytes bs (a + 1) (miss || r.2.miss)

/-- `MemRead(a, 8)`: the value, and whether any byte missed (R70). -/
def State.memRead (s : State) (a : Word) : Word × Bool :=
  let r := s.readBytes 8 a false
  (le64 r.1, r.2)

/-- `MemWrite(a, 8, v)`: the state, and whether any byte missed (R71). -/
def State.memWrite (s : State) (a v : Word) : State × Bool := s.writeBytes (bytesLE v) a false

/-! ### The memory stage (40_cycle.md R146, R147) -/

/-- A store of the memory stage: `MemWrite`, and ADR raised when a byte missed. Answers the state
and `mem_ok`. -/
def State.storeStage (s : State) (a v : Word) : State × Bool :=
  let w := s.memWrite a v
  (w.1.raiseIf w.2 .adr, !w.2)

/-- A load of the memory stage: `MemRead`, and ADR raised when a byte missed. Answers the state,
`valM` (0 in every byte that missed, R148) and `mem_ok`. -/
def State.loadStage (s : State) (a : Word) : State × Word × Bool :=
  let r := s.memRead a
  (s.raiseIf r.2 .adr, r.1, !r.2)

end Sys2Proof.Machine
end

