-- ==== Sys2Proof/Machine/Devices.lean ====
section
/-! DEFINITION. The device updates of an interactive iteration: PPU, joystick and timer
(60_exceptions.md R270 to R298). None of them touches the CPU. -/

namespace Sys2Proof.Machine

/-! ### The PPU -/

/-- Record `i` of the configuration region: 12 bytes at 12i, the address little-endian, then height,
width, x and y (R271). -/
def spriteRecord (config : Memory) (i : Nat) : Sprite where
  addr := le64 [config.read (12 * i), config.read (12 * i + 1), config.read (12 * i + 2),
    config.read (12 * i + 3), config.read (12 * i + 4), config.read (12 * i + 5),
    config.read (12 * i + 6), config.read (12 * i + 7)]
  height := config.read (12 * i + 8)
  width := config.read (12 * i + 9)
  x := config.read (12 * i + 10)
  y := config.read (12 * i + 11)

/-- A sprite is disabled when its width or its height is 0 (R272). -/
def Sprite.enabled (p : Sprite) : Bool := (p.width != 0) && (p.height != 0)

/-- The numbers of the 16 records, ascending. -/
def recordNumbers : List Nat := [0, 1, 2, 3, 4, 5, 6, 7, 8, 9, 10, 11, 12, 13, 14, 15]

/-- Parse: the enabled records in ascending order (R276). -/
def parseSprites (config : Memory) : List Sprite :=
  (recordNumbers.map (spriteRecord config)).filter Sprite.enabled

/-- The display is 120 pixels wide (Table P1). -/
def displayWidth : Nat := 120

/-- The display is 30 pixels high (Table P1). -/
def displayHeight : Nat := 30

/-- A framebuffer has 450 bytes (R274). -/
def framebufferSize : Nat := 450

/-- The bit index of a pixel (R274). -/
def pixelIndex (x y : Nat) : Nat := y * displayWidth + x

/-- Whether pixel (x, y) of a framebuffer is on: bit `idx % 8` of byte `idx / 8` (R274). -/
def pixelOn (fb : Memory) (x y : Nat) : Bool :=
  (fb.read (pixelIndex x y / 8)).getLsbD (pixelIndex x y % 8)

/-- `set_pixel(px, py)`: the pixel is turned on, and one outside the display is clipped (R280). -/
def setPixel (fb : Memory) (px py : Nat) : Memory :=
  if px < displayWidth ∧ py < displayHeight then
    let idx := pixelIndex px py
    fb.write (idx / 8) (fb.read (idx / 8) ||| (1#8 <<< (idx % 8)))
  else fb

/-- Whether the bitmap of a sprite has pixel (row, col) on: bit `row * width + col`, packed without
padding, read through the bus; a read that misses is an off pixel (R278, R279). -/
def State.bitmapOn (s : State) (p : Sprite) (row col : Nat) : Bool :=
  let bitIndex := row * p.width.toNat + col
  let r := s.busRead (p.addr + BitVec.ofNat 64 (bitIndex / 8))
  !r.miss && r.data.getLsbD (bitIndex % 8)

/-- Compose one pixel (R278). -/
def State.composePixel (s : State) (p : Sprite) (row : Nat) (fb : Memory) (col : Nat) : Memory :=
  if s.bitmapOn p row col then setPixel fb (p.x.toNat + col) (p.y.toNat + row) else fb

/-- Compose one row of a sprite: columns 0 to width - 1. -/
def State.composeRow (s : State) (p : Sprite) (fb : Memory) (row : Nat) : Memory :=
  (List.range p.width.toNat).foldl (s.composePixel p row) fb

/-- Compose one sprite: rows 0 to height - 1. -/
def State.composeSprite (s : State) (fb : Memory) (p : Sprite) : Memory :=
  (List.range p.height.toNat).foldl (s.composeRow p) fb

/-- Compose: the back buffer is cleared and every sprite of the list is drawn in order
(R277, R278). -/
def State.compose (s : State) (sprites : List Sprite) : Memory :=
  sprites.foldl s.composeSprite []

/-- Present: if the back buffer differs from the front buffer, copy it (R281). -/
def present (back front : Memory) : Memory := if back = front then front else back

/-- `PPU.update()`: parse, compose, present (R275). -/
def State.ppuUpdate (s : State) : State :=
  let active := parseSprites s.ppu.config
  let back := s.compose active
  { s with ppu := { s.ppu with active := active, back := back, front := present back s.ppu.front } }

/-! ### The joystick -/

/-- The button byte: bit 7 A-up, 6 A-down, 5 B-up, 4 B-down, 3 Start, 2 Reset, 1 and 0 always 0
(R296). -/
def Buttons.toByte (b : Buttons) : Byte :=
  BitVec.ofBool b.aUp ++ BitVec.ofBool b.aDown ++ BitVec.ofBool b.bUp ++ BitVec.ofBool b.bDown ++
    BitVec.ofBool b.start ++ BitVec.ofBool b.reset ++ 0#2

/-- `Joystick.update(input)`: exactly the buttons of this frame (R296). -/
def State.joystickUpdate (s : State) (b : Buttons) : State :=
  { s with joystick := { byte := Buttons.toByte b } }

/-! ### The timer -/

/-- `Timer.update(delta)` with period P (R291). -/
def Timer.advance (t : Timer) (period deltaUs : Nat) : Timer where
  byte := t.byte + BitVec.ofNat 8 ((t.acc + deltaUs) / period)
  acc := (t.acc + deltaUs) % period

/-- `Timer.update(delta)` in the machine. -/
def State.timerUpdate (s : State) (deltaUs : Nat) : State :=
  { s with timer := s.timer.advance s.config.timerPeriodUs deltaUs }

/-! ### The update phase of an iteration (70_reset_and_hazards.md R330) -/

/-- The host's input of this iteration: the oldest the state lists, else a free value
(R335; notes/assumptions/4). -/
def State.hostInput (s : State) : HostInput :=
  match s.inputs with
  | input :: _ => input
  | [] => Config.freeInput s.iteration

/-- The device updates of one interactive iteration, in the order PPU, joystick, timer (R330). -/
def State.updateDevices (s : State) : State :=
  let input := s.hostInput
  let t := ((s.ppuUpdate).joystickUpdate input.buttons).timerUpdate input.deltaUs
  { t with inputs := s.inputs.tail }

/-- What follows the CPU cycle of an iteration: the device updates in the interactive platform, and
the iteration is counted (R330, R331). -/
def State.endIteration (s : State) : State :=
  let t := if s.config.platform = .interactive then s.updateDevices else s
  { t with iteration := s.iteration + 1 }

end Sys2Proof.Machine
end

