-- ==== Sys2Proof/Machine/Flags.lean ====
section
/-! DEFINITION. The ALU, the flag values and the condition predicate (40_cycle.md R139 to R141). -/

namespace Sys2Proof.Machine

/-- `ALU(op, b, a)` with b = valB and a = valA (R139). -/
def alu (op : AluOp) (b a : Word) : Word :=
  match op with
  | .add => b + a
  | .sub => b - a
  | .and => b &&& a
  | .xor => b ^^^ a

/-- The overflow flag of `op` on operands b and a with result r (R141). -/
def overflow (op : AluOp) (b a r : Word) : Bool :=
  match op with
  | .add => (a.msb == b.msb) && (r.msb != a.msb)
  | .sub => (a.msb != b.msb) && (r.msb != b.msb)
  | .and => false
  | .xor => false

/-- The three flags of `op` on operands b and a (R141). -/
def aluFlags (op : AluOp) (b a : Word) : CC :=
  let r := alu op b a
  { zf := r == 0, sf := r.msb, of := overflow op b a r }

/-- `cond(ifun)` over the flags, with `s = SF xor OF` (R140). -/
def CC.cond (cc : CC) (c : Cond) : Bool :=
  let s := cc.sf ^^ cc.of
  match c with
  | .always => true
  | .le => s || cc.zf
  | .l => s
  | .e => cc.zf
  | .ne => !cc.zf
  | .ge => !s
  | .g => !s && !cc.zf

end Sys2Proof.Machine
end

