-- ==== Sys2Proof/Machine/Operands.lean ====
section
/-! DEFINITION. The operand forms: register and immediate operands are read directly (`State.reg`,
`valC`); the effective address of a memory operand, the two stack-pointer moves and the address
after the instruction are computed here (40_cycle.md R126, R135, R138). -/

namespace Sys2Proof.Machine

/-- The address of `D(%rB)`: `valB + valC`, modulo 2^64 (R138, 42_moves.md R189). -/
def effectiveAddress (valB valC : Word) : Word := valB + valC

/-- The stack pointer after a push or call: `valB - 8` (R138). -/
def pushedSp (valB : Word) : Word := valB - 8

/-- The stack pointer after a pop or return: `valB + 8` (R138). -/
def poppedSp (valB : Word) : Word := valB + 8

/-- `valP`, the address after an instruction of `len` bytes at `inst_pc`, modulo 2^64
(30_encoding.md R96). -/
def State.valP (s : State) (len : Nat) : Word := s.pc + BitVec.ofNat 64 len

end Sys2Proof.Machine
end

