-- ==== Sys2Proof/Machine/Arith.lean ====
section
/-! DEFINITION. OPQ and IADDQ (43_arith.md). Both operands are read before the result is written
(40_cycle.md R136). -/

namespace Sys2Proof.Machine

/-- OPQ (R200): rB <- rB op rA; the flags are written if STAT = AOK. -/
def opq (op : AluOp) (rA rB : RegId) (s : State) : State :=
  match rA, rB with
  | some a, some b =>
    let valA := s.reg a
    let valB := s.reg b
    ((s.writeCC (aluFlags op valB valA)).setReg b (alu op valB valA)).pcUpdate
      s.fetchOk (s.valP 2)
  | _, _ => s.raise .ins

/-- `addq %rA, %rB` (R201). -/
def execAddq (rA rB : RegId) (s : State) : Host.Outcome State Fault Refusal :=
  .next (opq .add rA rB s)

/-- `subq %rA, %rB`, the destination being the minuend (R202). -/
def execSubq (rA rB : RegId) (s : State) : Host.Outcome State Fault Refusal :=
  .next (opq .sub rA rB s)

/-- `andq %rA, %rB` (R203). -/
def execAndq (rA rB : RegId) (s : State) : Host.Outcome State Fault Refusal :=
  .next (opq .and rA rB s)

/-- `xorq %rA, %rB` (R204). -/
def execXorq (rA rB : RegId) (s : State) : Host.Outcome State Fault Refusal :=
  .next (opq .xor rA rB s)

/-- `iaddq $V, %rB`: rB <- rB + V with the flags of an add of a = V; rA is the unused field (R205). -/
def execIaddq (rA rB : RegId) (valC : Word) (s : State) : Host.Outcome State Fault Refusal :=
  match rB with
  | some b =>
    if s.unusedOk rA then
      let valB := s.reg b
      .next (((s.writeCC (aluFlags .add valB valC)).setReg b (alu .add valB valC)).pcUpdate
        s.fetchOk (s.valP 10))
    else .next (s.raise .ins)
  | none => .next (s.raise .ins)

end Sys2Proof.Machine
end

