-- ==== Sys2Proof/Machine/Control.lean ====
section
/-! DEFINITION. Jcc, CALL and RET (44_control.md). Targets are absolute and unchecked. -/

namespace Sys2Proof.Machine

/-- Jcc (R220): the PC becomes valC if the condition holds, else valP. -/
def jcc (c : Cond) (valC : Word) (s : State) : State :=
  s.pcUpdate s.fetchOk (if s.cc.cond c then valC else s.valP 9)

/-- `jmp Dest` (R221). -/
def execJmp (valC : Word) (s : State) : Host.Outcome State Fault Refusal :=
  .next (jcc .always valC s)

/-- `jle Dest` (R222). -/
def execJle (valC : Word) (s : State) : Host.Outcome State Fault Refusal :=
  .next (jcc .le valC s)

/-- `jl Dest` (R223). -/
def execJl (valC : Word) (s : State) : Host.Outcome State Fault Refusal :=
  .next (jcc .l valC s)

/-- `je Dest` (R224). -/
def execJe (valC : Word) (s : State) : Host.Outcome State Fault Refusal :=
  .next (jcc .e valC s)

/-- `jne Dest` (R225). -/
def execJne (valC : Word) (s : State) : Host.Outcome State Fault Refusal :=
  .next (jcc .ne valC s)

/-- `jge Dest` (R226). -/
def execJge (valC : Word) (s : State) : Host.Outcome State Fault Refusal :=
  .next (jcc .ge valC s)

/-- `jg Dest` (R227). -/
def execJg (valC : Word) (s : State) : Host.Outcome State Fault Refusal :=
  .next (jcc .g valC s)

/-- `call Dest`: the return address valP is stored at RSP - 8, RSP is decremented even on a miss, and
only without a miss the PC becomes valC (R228). -/
def execCall (valC : Word) (s : State) : Host.Outcome State Fault Refusal :=
  let valE := pushedSp (s.reg .rsp)
  let m := s.storeStage valE (s.valP 9)
  .next ((m.1.setReg .rsp valE).pcUpdate (s.fetchOk && m.2) valC)

/-- `ret`: the word at the old RSP becomes the PC, unless a byte of it missed; RSP is incremented in
either case (R229). -/
def execRet (s : State) : Host.Outcome State Fault Refusal :=
  let valA := s.reg .rsp
  let m := s.loadStage valA
  .next ((m.1.setReg .rsp (poppedSp valA)).pcUpdate (s.fetchOk && m.2.2) m.2.1)

end Sys2Proof.Machine
end

