-- ==== Sys2Proof/Machine/HaltNop.lean ====
section
/-! DEFINITION. HALT and NOP (41_halt_nop.md). -/

namespace Sys2Proof.Machine

/-- `halt`: raises HLT; the PC stays at the halt byte (R170). -/
def execHalt (s : State) : Host.Outcome State Fault Refusal :=
  .next ((s.raise .hlt).pcUpdate s.fetchOk s.pc)

/-- `nop`: only the PC advances (R171). -/
def execNop (s : State) : Host.Outcome State Fault Refusal :=
  .next (s.pcUpdate s.fetchOk (s.valP 1))

end Sys2Proof.Machine
end

