-- ==== Sys2Proof/Machine/Moves.lean ====
section
/-! DEFINITION. The moves: CMOVcc, IRMOVQ, RMMOVQ and MRMOVQ (42_moves.md). A required register
field that holds RNONE raises INS and nothing else happens (40_cycle.md R133). -/

namespace Sys2Proof.Machine

/-- CMOVcc (R180): both fields are checked before the condition is known; the PC advances whether or
not the move is taken. -/
def cmov (c : Cond) (rA rB : RegId) (s : State) : State :=
  match rA, rB with
  | some a, some b =>
    let valE := s.reg a
    (if s.cc.cond c then s.setReg b valE else s).pcUpdate s.fetchOk (s.valP 2)
  | _, _ => s.raise .ins

/-- `rrmovq %rA, %rB` (R181). -/
def execRrmovq (rA rB : RegId) (s : State) : Host.Outcome State Fault Refusal :=
  .next (cmov .always rA rB s)

/-- `cmovle %rA, %rB` (R182). -/
def execCmovle (rA rB : RegId) (s : State) : Host.Outcome State Fault Refusal :=
  .next (cmov .le rA rB s)

/-- `cmovl %rA, %rB` (R183). -/
def execCmovl (rA rB : RegId) (s : State) : Host.Outcome State Fault Refusal :=
  .next (cmov .l rA rB s)

/-- `cmove %rA, %rB` (R184). -/
def execCmove (rA rB : RegId) (s : State) : Host.Outcome State Fault Refusal :=
  .next (cmov .e rA rB s)

/-- `cmovne %rA, %rB` (R185). -/
def execCmovne (rA rB : RegId) (s : State) : Host.Outcome State Fault Refusal :=
  .next (cmov .ne rA rB s)

/-- `cmovge %rA, %rB` (R186). -/
def execCmovge (rA rB : RegId) (s : State) : Host.Outcome State Fault Refusal :=
  .next (cmov .ge rA rB s)

/-- `cmovg %rA, %rB` (R187). -/
def execCmovg (rA rB : RegId) (s : State) : Host.Outcome State Fault Refusal :=
  .next (cmov .g rA rB s)

/-- `irmovq $V, %rB`: rB <- V; rA is the unused field (R188, 40_cycle.md R134). -/
def execIrmovq (rA rB : RegId) (valC : Word) (s : State) : Host.Outcome State Fault Refusal :=
  match rB with
  | some b =>
    if s.unusedOk rA then .next ((s.setReg b valC).pcUpdate s.fetchOk (s.valP 10))
    else .next (s.raise .ins)
  | none => .next (s.raise .ins)

/-- `rmmovq %rA, D(%rB)`: the eight bytes of rA are stored at rB + D; on a miss ADR is raised and the
PC stays (R189). -/
def execRmmovq (rA rB : RegId) (valC : Word) (s : State) : Host.Outcome State Fault Refusal :=
  match rA, rB with
  | some a, some b =>
    let valE := effectiveAddress (s.reg b) valC
    let m := s.storeStage valE (s.reg a)
    .next (m.1.pcUpdate (s.fetchOk && m.2) (s.valP 10))
  | _, _ => .next (s.raise .ins)

/-- `mrmovq D(%rB), %rA`: rA is loaded from rB + D; on a miss ADR is raised, rA is still written and
the PC stays (R190, 40_cycle.md R149). -/
def execMrmovq (rA rB : RegId) (valC : Word) (s : State) : Host.Outcome State Fault Refusal :=
  match rA, rB with
  | some a, some b =>
    let valE := effectiveAddress (s.reg b) valC
    let m := s.loadStage valE
    .next ((m.1.setReg a m.2.1).pcUpdate (s.fetchOk && m.2.2) (s.valP 10))
  | _, _ => .next (s.raise .ins)

end Sys2Proof.Machine
end

