-- ==== Sys2Proof/Machine/Stack.lean ====
section
/-! DEFINITION. PUSHQ and POPQ (45_stack.md). rB is the unused field of both. -/

namespace Sys2Proof.Machine

/-- `pushq %rA`: rA as it was before the push is stored at RSP - 8, and RSP is decremented even on a
miss (R240). -/
def execPushq (rA rB : RegId) (s : State) : Host.Outcome State Fault Refusal :=
  match rA with
  | some a =>
    if s.unusedOk rB then
      let valE := pushedSp (s.reg .rsp)
      let m := s.storeStage valE (s.reg a)
      .next ((m.1.setReg .rsp valE).pcUpdate (s.fetchOk && m.2) (s.valP 2))
    else .next (s.raise .ins)
  | none => .next (s.raise .ins)

/-- `popq %rA`: the word at the old RSP is loaded; RSP is written first and rA second, so that
`popq %rsp` keeps the popped word (R241, 40_cycle.md R151). -/
def execPopq (rA rB : RegId) (s : State) : Host.Outcome State Fault Refusal :=
  match rA with
  | some a =>
    if s.unusedOk rB then
      let valA := s.reg .rsp
      let m := s.loadStage valA
      .next (((m.1.setReg .rsp (poppedSp valA)).setReg a m.2.1).pcUpdate
        (s.fetchOk && m.2.2) (s.valP 2))
    else .next (s.raise .ins)
  | none => .next (s.raise .ins)

end Sys2Proof.Machine
end

