-- ==== Sys2Proof/Machine/Dispatch.lean ====
section
/-! DEFINITION. One arm per constructor of Instr. `exec i s` is the part of a cycle that follows
fetch: decode, execute, memory, write-back and PC update of instruction `i` (40_cycle.md R120), with
`s.pc` the address of the instruction and STAT as fetch left it. -/

namespace Sys2Proof.Machine

def exec (i : Instr) (s : State) : Host.Outcome State Fault Refusal :=
  match i with
  | .halt => Sys2Proof.Machine.execHalt s
  | .nop => Sys2Proof.Machine.execNop s
  | .rrmovq rA rB => Sys2Proof.Machine.execRrmovq rA rB s
  | .cmovle rA rB => Sys2Proof.Machine.execCmovle rA rB s
  | .cmovl rA rB => Sys2Proof.Machine.execCmovl rA rB s
  | .cmove rA rB => Sys2Proof.Machine.execCmove rA rB s
  | .cmovne rA rB => Sys2Proof.Machine.execCmovne rA rB s
  | .cmovge rA rB => Sys2Proof.Machine.execCmovge rA rB s
  | .cmovg rA rB => Sys2Proof.Machine.execCmovg rA rB s
  | .irmovq rA rB valC => Sys2Proof.Machine.execIrmovq rA rB valC s
  | .rmmovq rA rB valC => Sys2Proof.Machine.execRmmovq rA rB valC s
  | .mrmovq rA rB valC => Sys2Proof.Machine.execMrmovq rA rB valC s
  | .addq rA rB => Sys2Proof.Machine.execAddq rA rB s
  | .subq rA rB => Sys2Proof.Machine.execSubq rA rB s
  | .andq rA rB => Sys2Proof.Machine.execAndq rA rB s
  | .xorq rA rB => Sys2Proof.Machine.execXorq rA rB s
  | .jmp valC => Sys2Proof.Machine.execJmp valC s
  | .jle valC => Sys2Proof.Machine.execJle valC s
  | .jl valC => Sys2Proof.Machine.execJl valC s
  | .je valC => Sys2Proof.Machine.execJe valC s
  | .jne valC => Sys2Proof.Machine.execJne valC s
  | .jge valC => Sys2Proof.Machine.execJge valC s
  | .jg valC => Sys2Proof.Machine.execJg valC s
  | .call valC => Sys2Proof.Machine.execCall valC s
  | .ret => Sys2Proof.Machine.execRet s
  | .pushq rA rB => Sys2Proof.Machine.execPushq rA rB s
  | .popq rA rB => Sys2Proof.Machine.execPopq rA rB s
  | .iaddq rA rB valC => Sys2Proof.Machine.execIaddq rA rB valC s

end Sys2Proof.Machine
end

