-- ==== Sys2Proof/Machine/Fetch.lean ====
section
/-! DEFINITION. The fetch stage (40_cycle.md R124 to R130), and the placing of a word where the next
fetch reads it. -/

namespace Sys2Proof.Machine

/-- What fetch reads: the bytes of the instruction as the bus returned them, 0 in every byte that
missed, and the guard `fetch_ok`. -/
structure Fetched where
  bytes : List Byte
  ok : Bool
deriving DecidableEq, Repr

/-- The fetch reads: byte 0; and, if it is valid, the register byte and the immediate its class uses,
the immediate as one 8-byte access (R124, R128, R129). An illegal byte 0 is read alone (R127). -/
def State.fetch (s : State) : Fetched :=
  let r0 := s.busRead s.pc
  match classOfByte0 r0.data with
  | none => ⟨[r0.data], !r0.miss⟩
  | some c =>
    let rb :=
      if usesRegByte c then
        let r := s.busRead (s.pc + 1)
        ([r.data], r.miss)
      else ([], false)
    let im :=
      if usesValC c then s.readBytes 8 (s.pc + 1 + BitVec.ofNat 64 rb.1.length) false
      else ([], false)
    ⟨r0.data :: (rb.1 ++ im.1), !(r0.miss || rb.2 || im.2)⟩

/-- `s` with STAT = AOK and the ten bytes of a table word written through the bus from `s.pc` on: the
program bytes the host loads (70_reset_and_hazards.md R321), placed so that the next step fetches
them. Where a byte has no writable place it is left out. -/
def State.placeTableWord (s : State) (nbits w : Nat) : State :=
  { (s.writeBytes (tableBytes nbits w) s.pc false).1 with stat := .aok }

end Sys2Proof.Machine
end

