-- ==== Sys2Proof/Machine/Cycle.lean ====
section
/-! DEFINITION. One CPU cycle (40_cycle.md R120) and one emulator iteration
(70_reset_and_hazards.md R330). -/

namespace Sys2Proof.Machine

/-- The state as fetch leaves it: ADR is raised if a byte of the instruction missed
(R124, R128, R129). -/
def State.afterFetch (s : State) : State := s.raiseIf (!s.fetch.ok) .adr

/-- `run_cycle()`: a no-op unless STAT = AOK; else fetch, and then the instruction the fetched bytes
hold, or INS where they hold none (R120, R127, R133). With `FETCH_ADR_CONTINUES = false` a fetch miss
ends the cycle (R130). -/
def runCycle (s : State) : Host.Outcome State Fault Refusal :=
  if s.stat = .aok then
    if !s.config.fetchAdrContinues && !s.fetch.ok then .next s.afterFetch
    else
      match decode s.fetch.bytes with
      | .instr i _ => exec i s.afterFetch
      | .reject _ => .next (s.afterFetch.raise .ins)
  else .next s

/-- One emulator iteration: the CPU cycle, then the device updates (R330). -/
def iterate (s : State) : Host.Outcome State Fault Refusal :=
  match runCycle s with
  | .next t => .next t.endIteration
  | .fault r => .fault r
  | .refused r => .refused r

end Sys2Proof.Machine
end

