-- ==== Sys2Proof/Machine/Step.lean ====
section
/-! DEFINITION. The step of the machine: one emulator iteration, the only notion of time of the
hardware (00_scope.md R7, 70_reset_and_hazards.md R330); and the state in which the next step runs a
given instruction word. -/

namespace Sys2Proof.Machine

/-- One step. -/
def step (s : State) : Host.Outcome State Fault Refusal := iterate s

/-- `s` with the instruction of a table word where the next step fetches it: at `s.pc`, with
STAT = AOK. A program comes to run from reset by the host loading it into RAM before the first
iteration (70_reset_and_hazards.md R313, R321; notes/assumptions/6). -/
def State.withFetchWord (s : State) (nbits w : Nat) : State := s.placeTableWord nbits w

end Sys2Proof.Machine
end

