-- ==== Sys2Proof/Machine/Driver.lean ====
section
/-! DEFINITION. What the host's driver does with the machine: loading a program, running iterations
up to the cap, and recording snapshots (70_reset_and_hazards.md R313 to R337). No step calls any of
this. -/

namespace Sys2Proof.Machine

/-! ### Loading (20_memory.md R54; 70_reset_and_hazards.md R320, R321) -/

/-- `load_bytes(addr, bytes)`: writes RAM directly, and fails when the bytes would pass `RAM_SIZE`. -/
def State.loadBytes (s : State) (addr : Nat) (bytes : List Byte) : Option State :=
  if addr + bytes.length ≤ s.config.ramSize then some { s with ram := s.ram.writeList addr bytes }
  else none

/-- The program-bearing lines of an object file, loaded in file order; a failure starts no run. -/
def State.loadLines (s : State) : List (Nat × List Byte) → Option State
  | [] => some s
  | l :: ls =>
    match s.loadBytes l.1 l.2 with
    | some t => t.loadLines ls
    | none => none

/-- The value of a hexadecimal digit. -/
def hexDigit (c : Char) : Option Nat :=
  if '0' ≤ c ∧ c ≤ '9' then some (c.toNat - '0'.toNat)
  else if 'a' ≤ c ∧ c ≤ 'f' then some (c.toNat - 'a'.toNat + 10)
  else if 'A' ≤ c ∧ c ≤ 'F' then some (c.toNat - 'A'.toNat + 10)
  else none

/-- The digits of a payload, taken in pairs from the left; a last unpaired digit is dropped (R320). -/
def hexPairs : List Nat → List Byte
  | hi :: lo :: rest => BitVec.ofNat 8 (16 * hi + lo) :: hexPairs rest
  | _ => []

/-- The value of a string of hexadecimal digits; `none` where a character is none or the string is
empty. -/
def hexValue : List Char → Option Nat
  | [] => none
  | cs => cs.foldl (fun acc c =>
      match acc, hexDigit c with
      | some n, some d => some (16 * n + d)
      | _, _ => none) (some 0)

/-- A blank or a tab. -/
def isBlank (c : Char) : Bool := c == ' ' || c == '\t'

/-- A string without the blanks and tabs at its two ends. -/
def trimBlanks (cs : List Char) : List Char :=
  ((cs.dropWhile isBlank).reverse.dropWhile isBlank).reverse

/-- The address of a line, with an optional `0x` or `0X` (R320), blanks and tabs around it left out
(PRESUMED, notes/assumptions/8). A blank or a tab inside it is no hexadecimal digit, so that such an
address is malformed (DESIGN CHOICE, notes/assumptions/8). -/
def lineAddress (cs : List Char) : Option Nat :=
  match trimBlanks cs with
  | '0' :: 'x' :: rest => hexValue rest
  | '0' :: 'X' :: rest => hexValue rest
  | rest => hexValue rest

/-- A line `ADDR: HEX_BLOB | comment` (R320); `none` for a line that is skipped: one without `:` or
`|`, with an empty payload, or with a malformed address (U15). DESIGN CHOICE (notes/assumptions/8): a
payload is empty when it has no hexadecimal digit at all, so that a line with exactly one digit, which
D23 drops, is kept with no bytes. -/
def parseLine (line : List Char) : Option (Nat × List Byte) :=
  let after := (line.dropWhile (· != ':')).drop 1
  if line.contains ':' && after.contains '|' then
    let digits := (after.takeWhile (· != '|')).filterMap hexDigit
    match lineAddress (line.takeWhile (· != ':')), digits with
    | _, [] => none
    | some a, ds => some (a, hexPairs ds)
    | none, _ => none
  else none

/-- Loads the lines of an object file (R321). -/
def State.loadObject (s : State) (lines : List (List Char)) : Option State :=
  s.loadLines (lines.filterMap parseLine)

/-! ### The end of a run (R331) -/

/-- Whether the driver's loop is over: STAT has left AOK or the cap is reached. -/
def State.runEnded (s : State) : Bool := s.stat != .aok || decide (s.config.cycleCap ≤ s.iteration)

/-- At most `n` more iterations of the driver's loop. -/
def runLoop : Nat → State → Host.Outcome State Fault Refusal
  | 0, s => .next s
  | n + 1, s =>
    if s.runEnded then .next s
    else
      match step s with
      | .next t => runLoop n t
      | .fault r => .fault r
      | .refused r => .refused r

/-- The driver's run: iterations until STAT leaves AOK or the cap is reached (R331). -/
def run (s : State) : Host.Outcome State Fault Refusal :=
  runLoop (s.config.cycleCap - s.iteration) s

/-! ### Snapshots (R333, R334) -/

/-- A snapshot of the batch driver: PC, the trace code of STAT, the flags as 0 or 1, the registers,
and the non-zero aligned words of RAM as signed values. -/
structure Snapshot where
  pc : Word
  stat : Nat
  of : Nat
  sf : Nat
  zf : Nat
  regs : List (String × Word)
  mem : List (Nat × Int)
deriving DecidableEq, Repr

/-- The registers, in the order of their ids. -/
def allRegs : List Reg :=
  [.rax, .rcx, .rdx, .rbx, .rsp, .rbp, .rsi, .rdi, .r8, .r9, .r10, .r11, .r12, .r13, .r14]

/-- The trace name of a register (10_state.md R20). -/
def Reg.traceName : Reg → String
  | .rax => "rax"
  | .rcx => "rcx"
  | .rdx => "rdx"
  | .rbx => "rbx"
  | .rsp => "rsp"
  | .rbp => "rbp"
  | .rsi => "rsi"
  | .rdi => "rdi"
  | .r8 => "r8"
  | .r9 => "r9"
  | .r10 => "r10"
  | .r11 => "r11"
  | .r12 => "r12"
  | .r13 => "r13"
  | .r14 => "r14"

/-- The byte of RAM at an offset, 0 past the end of RAM (R334). -/
def State.ramByte (s : State) (o : Nat) : Byte := if o < s.config.ramSize then s.ram.read o else 0

/-- The word of RAM at an offset (R334). -/
def State.ramWord (s : State) (o : Nat) : Word :=
  le64 [s.ramByte o, s.ramByte (o + 1), s.ramByte (o + 2), s.ramByte (o + 3), s.ramByte (o + 4),
    s.ramByte (o + 5), s.ramByte (o + 6), s.ramByte (o + 7)]

/-- `MEM`: the non-zero words at the offsets 8j inside RAM, as signed values (R334). -/
def State.memEntries (s : State) : List (Nat × Int) :=
  ((List.range ((s.config.ramSize + 7) / 8)).map (fun j => (8 * j, s.ramWord (8 * j)))).filterMap
    fun e => if e.2 = 0 then none else some (e.1, e.2.toInt)

/-- The snapshot of a state (R333). -/
def State.snapshot (s : State) : Snapshot where
  pc := s.pc
  stat := s.stat.traceCode
  of := s.cc.of.toNat
  sf := s.cc.sf.toNat
  zf := s.cc.zf.toNat
  regs := allRegs.map fun r => (Reg.traceName r, s.reg r)
  mem := s.memEntries

/-- The snapshots of at most `n` iterations: one after each iteration whose cycle began with
STAT = AOK, the last one included (R333). -/
def snapshots : Nat → State → List Snapshot
  | 0, _ => []
  | n + 1, s =>
    if s.runEnded then []
    else
      match step s with
      | .next t => t.snapshot :: snapshots n t
      | .fault _ => []
      | .refused _ => []

/-- The snapshot stream of the driver's run. -/
def State.trace (s : State) : List Snapshot := snapshots (s.config.cycleCap - s.iteration) s

end Sys2Proof.Machine
end

