-- ==== Sys2Proof/Safety.lean ====
section
/-! DEFINITION. What counts as a safe state, the invariant every step keeps, and the terms the
statements are written in: which instruction belongs to which class, which registers it may change,
which address it stores to, which addresses are mapped. No step uses any of this. -/

namespace Sys2Proof.Machine

/-! ### Safe states and the invariant -/

/-- No error status: the CPU is running or has halted deliberately (60_exceptions.md R251: HLT is
"not an error"). -/
def State.noError (s : State) : Bool := s.stat == .aok || s.stat == .hlt

/-- A device's byte array is in canonical form and within its size. -/
def Memory.fits (m : Memory) (size : Nat) : Bool := m.wf && m.below size

/-- The invariant: RAM, the PPU configuration region and both framebuffers are canonical and within
their sizes; the front framebuffer shows the last composition (R281); the active list holds at most
16 sprites, all enabled (R276); the timer's residual is below its period (R291); the joystick's
reserved bits are 0 (R296); the parameters are ones a machine can be built with. -/
structure State.Inv (s : State) : Prop where
  config : s.config.wf = true
  ram : Memory.fits s.ram s.config.ramSize = true
  ppuConfig : Memory.fits s.ppu.config ppuConfigSize = true
  back : Memory.fits s.ppu.back framebufferSize = true
  front : s.ppu.front = s.ppu.back
  activeLength : s.ppu.active.length ≤ 16
  activeEnabled : s.ppu.active.all Sprite.enabled = true
  timer : s.timer.acc < s.config.timerPeriodUs
  joystick : s.joystick.byte &&& 3#8 = 0#8

/-! ### Addresses -/

/-- A bus access at the address does not miss. -/
def State.mapped (s : State) (a : Word) : Bool := !(s.busRead a).miss

/-- The eight addresses of an 8-byte access at `a`. -/
def eightAddresses (a : Word) : List Word :=
  [a, a + 1, a + 2, a + 3, a + 4, a + 5, a + 6, a + 7]

/-- No byte of an 8-byte access at `a` misses. -/
def State.mapped8 (s : State) (a : Word) : Bool := (eightAddresses a).all s.mapped

/-- The address is routed to a byte that keeps what is written: RAM or the PPU configuration
region. -/
def State.writable (s : State) (a : Word) : Bool :=
  match s.resolve a with
  | some (.ram, rel) => decide (rel < s.config.ramSize)
  | some (.ppu, rel) => decide (rel < ppuConfigSize)
  | some (.joystick, _) => false
  | some (.timer, _) => false
  | none => false

/-- Each of the eight addresses of an 8-byte access at `a` is writable. -/
def State.writable8 (s : State) (a : Word) : Bool := (eightAddresses a).all s.writable

/-- No two of the eight addresses of an access at `a` are routed to one device byte; any of them may
be unmapped. Every access is so on a map without aliases. -/
def State.distinct8 (s : State) (a : Word) : Prop :=
  ∀ j k, j < 8 → k < 8 → j ≠ k →
    s.resolve (a + BitVec.ofNat 64 j) = s.resolve (a + BitVec.ofNat 64 k) →
    s.resolve (a + BitVec.ofNat 64 j) = none

/-- The misses of an access at `a` form a suffix of it: no byte after a missing one is mapped. -/
def State.missesAreSuffix (s : State) (a : Word) : Prop :=
  ∀ j k, j < k → k < 8 → s.mapped (a + BitVec.ofNat 64 j) = false →
    s.mapped (a + BitVec.ofNat 64 k) = false

/-- No two addresses are routed to one device byte. Every default map is such a map. -/
def mapAliasFree (c : Config) : Prop :=
  ∀ x y : Word, ∀ l, findMapping c.busMap x.toNat = some l → findMapping c.busMap y.toNat = some l →
    x = y

/-! ### Instructions by class -/

/-- The CMOVcc instruction of a condition (30_encoding.md R97). -/
def cmovInstr : Cond → RegId → RegId → Instr
  | .always, rA, rB => .rrmovq rA rB
  | .le, rA, rB => .cmovle rA rB
  | .l, rA, rB => .cmovl rA rB
  | .e, rA, rB => .cmove rA rB
  | .ne, rA, rB => .cmovne rA rB
  | .ge, rA, rB => .cmovge rA rB
  | .g, rA, rB => .cmovg rA rB

/-- The Jcc instruction of a condition (R97). -/
def jccInstr : Cond → Word → Instr
  | .always, dest => .jmp dest
  | .le, dest => .jle dest
  | .l, dest => .jl dest
  | .e, dest => .je dest
  | .ne, dest => .jne dest
  | .ge, dest => .jge dest
  | .g, dest => .jg dest

/-- The OPQ instruction of an operation (R97). -/
def opqInstr : AluOp → RegId → RegId → Instr
  | .add, rA, rB => .addq rA rB
  | .sub, rA, rB => .subq rA rB
  | .and, rA, rB => .andq rA rB
  | .xor, rA, rB => .xorq rA rB

/-- The ifun of a condition (R140). -/
def condIfun : Cond → Nat
  | .always => 0
  | .le => 1
  | .l => 2
  | .e => 3
  | .ne => 4
  | .ge => 5
  | .g => 6

/-- The ifun of an operation (R139). -/
def aluIfun : AluOp → Nat
  | .add => 0
  | .sub => 1
  | .and => 2
  | .xor => 3

/-- The instruction is OPQ or IADDQ. -/
def writesFlags : Instr → Bool
  | .addq _ _ | .subq _ _ | .andq _ _ | .xorq _ _ | .iaddq _ _ _ => true
  | .halt | .nop | .ret => false
  | .rrmovq _ _ | .cmovle _ _ | .cmovl _ _ | .cmove _ _
  | .cmovne _ _ | .cmovge _ _ | .cmovg _ _ => false
  | .irmovq _ _ _ | .rmmovq _ _ _ | .mrmovq _ _ _ => false
  | .jmp _ | .jle _ | .jl _ | .je _ | .jne _ | .jge _ | .jg _ | .call _ => false
  | .pushq _ _ | .popq _ _ => false

/-- The instruction is CMOVcc or Jcc. -/
def readsFlags : Instr → Bool
  | .rrmovq _ _ | .cmovle _ _ | .cmovl _ _ | .cmove _ _
  | .cmovne _ _ | .cmovge _ _ | .cmovg _ _ => true
  | .jmp _ | .jle _ | .jl _ | .je _ | .jne _ | .jge _ | .jg _ => true
  | .halt | .nop | .ret | .call _ => false
  | .irmovq _ _ _ | .rmmovq _ _ _ | .mrmovq _ _ _ => false
  | .addq _ _ | .subq _ _ | .andq _ _ | .xorq _ _ | .iaddq _ _ _ => false
  | .pushq _ _ | .popq _ _ => false

/-- The registers an instruction writes (40_cycle.md R150). -/
def destinations : Instr → List Reg
  | .halt | .nop => []
  | .rmmovq _ _ _ => []
  | .jmp _ | .jle _ | .jl _ | .je _ | .jne _ | .jge _ | .jg _ => []
  | .rrmovq _ rB | .cmovle _ rB | .cmovl _ rB | .cmove _ rB
  | .cmovne _ rB | .cmovge _ rB | .cmovg _ rB => rB.toList
  | .addq _ rB | .subq _ rB | .andq _ rB | .xorq _ rB => rB.toList
  | .irmovq _ rB _ | .iaddq _ rB _ => rB.toList
  | .mrmovq rA _ _ => rA.toList
  | .popq rA _ => .rsp :: rA.toList
  | .ret | .call _ | .pushq _ _ => [.rsp]

/-- The address an instruction stores its eight bytes to, for RMMOVQ, CALL and PUSHQ; the others
store nothing (R146). -/
def storeAddress (s : State) : Instr → Option Word
  | .rmmovq _ (some b) valC => some (effectiveAddress (s.reg b) valC)
  | .rmmovq _ none _ => none
  | .call _ | .pushq _ _ => some (pushedSp (s.reg .rsp))
  | .halt | .nop | .ret => none
  | .rrmovq _ _ | .cmovle _ _ | .cmovl _ _ | .cmove _ _
  | .cmovne _ _ | .cmovge _ _ | .cmovg _ _ => none
  | .irmovq _ _ _ | .mrmovq _ _ _ | .iaddq _ _ _ => none
  | .addq _ _ | .subq _ _ | .andq _ _ | .xorq _ _ => none
  | .jmp _ | .jle _ | .jl _ | .je _ | .jne _ | .jge _ | .jg _ => none
  | .popq _ _ => none

/-- Every byte 0 from `lo` to `hi` is illegal: the decoder rejects it whatever follows, and a cycle
that fetches it sets STAT to INS and changes nothing else. -/
def rejectsByte0 (lo hi : Nat) : Prop :=
  ∀ b : Byte, lo ≤ b.toNat → b.toNat ≤ hi →
    (∀ rest, decode (b :: rest) = .reject .illegalByte0) ∧
    ∀ s : State, s.stat = .aok → s.busRead s.pc = { data := b, miss := false } →
      runCycle s = .next { s with stat := .ins }

/-- The condition table of R140, `s` being SF xor OF. -/
def conditionTable : Prop :=
  ∀ zf sf of : Bool,
    CC.cond ⟨zf, sf, of⟩ .always = true ∧
    CC.cond ⟨zf, sf, of⟩ .le = ((sf ^^ of) || zf) ∧
    CC.cond ⟨zf, sf, of⟩ .l = (sf ^^ of) ∧
    CC.cond ⟨zf, sf, of⟩ .e = zf ∧
    CC.cond ⟨zf, sf, of⟩ .ne = !zf ∧
    CC.cond ⟨zf, sf, of⟩ .ge = !(sf ^^ of) ∧
    CC.cond ⟨zf, sf, of⟩ .g = (!(sf ^^ of) && !zf)

/-- The ALU table of R139. -/
def aluTable : Prop :=
  ∀ b a : Word, alu .add b a = b + a ∧ alu .sub b a = b - a ∧ alu .and b a = b &&& a ∧
    alu .xor b a = b ^^^ a

/-- The flag rules of R141 on operands b and a, bit 63 being the sign. -/
def flagTable : Prop :=
  ∀ b a : Word,
    (∀ op, (aluFlags op b a).zf = (alu op b a == 0)) ∧
    (∀ op, (aluFlags op b a).sf = (alu op b a).getLsbD 63) ∧
    (aluFlags .add b a).of =
      ((a.getLsbD 63 == b.getLsbD 63) && ((b + a).getLsbD 63 != a.getLsbD 63)) ∧
    (aluFlags .sub b a).of =
      ((a.getLsbD 63 != b.getLsbD 63) && ((b - a).getLsbD 63 != b.getLsbD 63)) ∧
    (aluFlags .and b a).of = false ∧
    (aluFlags .xor b a).of = false

/-- The 28 valid values of byte 0 (30_encoding.md R98). -/
def validByte0 : List Byte :=
  [0x00, 0x10, 0x20, 0x21, 0x22, 0x23, 0x24, 0x25, 0x26, 0x30, 0x40, 0x50, 0x60, 0x61, 0x62, 0x63,
   0x70, 0x71, 0x72, 0x73, 0x74, 0x75, 0x76, 0x80, 0x90, 0xA0, 0xB0, 0xC0]

/-- The bytes of the instruction stand at the PC, every one mapped. -/
def State.holdsAtPc (s : State) (i : Instr) : Prop :=
  ∀ k, k < i.length →
    s.busRead (s.pc + BitVec.ofNat 64 k) = { data := (encode i).getD k 0, miss := false }

/-! ### What the CPU and the devices own -/

/-- `s` with the hidden device state of `h` (10_state.md R37): the active list, the framebuffers,
the timer's residual and the host's inputs. -/
def State.withHidden (s h : State) : State :=
  { s with
    ppu := { s.ppu with active := h.ppu.active, back := h.ppu.back, front := h.ppu.front }
    timer := { s.timer with acc := h.timer.acc }
    inputs := h.inputs
    iteration := h.iteration }

/-- The same outcome with its next state changed. -/
def mapNext (f : State → State) (o : Host.Outcome State Fault Refusal) :
    Host.Outcome State Fault Refusal :=
  match o with
  | .next t => .next (f t)
  | .fault r => .fault r
  | .refused r => .refused r

end Sys2Proof.Machine
end

