-- ==== Sys2Proof/Certificates/Slice0/Obligations.lean ====
section
/-! DEFINITION. The statements for the provers. In each, `s` is any state of the machine: any
parameters of Table P1, any register and memory contents, any device state and host inputs. -/

open Sys2Proof
open Sys2Proof.Machine

/-! ### Reset -/

/-- R23, R26, R30, R33: every register 0, ZF = 1, SF = OF = 0, STAT = AOK and PC = 0, whatever the
parameters are; and no device update and no load by the host writes a register. -/
def Obligations.ResetCpuState : Prop :=
  (∀ c r, (State.resetWith c).reg r = 0) ∧
  (∀ c, (State.resetWith c).cc = { zf := true, sf := false, of := false } ∧
    (State.resetWith c).stat = .aok ∧ (State.resetWith c).pc = 0) ∧
  (∃ c, State.reset = State.resetWith c) ∧
  (∀ s : State, s.updateDevices.regs = s.regs) ∧
  (∀ (s t : State) addr bytes, s.loadBytes addr bytes = some t → t.regs = s.regs)

/-- The spec's decision D9: every byte of RAM and of the PPU configuration region 0, no active
sprite, every pixel off, the timer and joystick bytes and the timer's residual 0. -/
def Obligations.ResetDevicesZero : Prop :=
  ∀ c a, (State.resetWith c).ram.read a = 0 ∧ (State.resetWith c).ppu.config.read a = 0 ∧
    (State.resetWith c).ppu.active = [] ∧
    (∀ x y, pixelOn (State.resetWith c).ppu.back x y = false ∧
      pixelOn (State.resetWith c).ppu.front x y = false) ∧
    (State.resetWith c).timer = { byte := 0, acc := 0 } ∧ (State.resetWith c).joystick.byte = 0

/-- The invariant holds at reset, for every parameters a machine can be built with, among them the
model's own choice (notes/assumptions/2). -/
def Obligations.ResetMeetsInvariant : Prop :=
  (∀ c : Config, c.wf = true → (State.resetWith c).Inv) ∧ State.reset.Inv ∧
  (∀ p n cap, 1 ≤ n → (Config.standard p n cap).wf = true)

/-! ### The step as a whole -/

/-- Every step keeps the invariant: memories canonical and within their sizes, the front framebuffer
the last composition, at most 16 active sprites, all enabled, the residual below the period, the
joystick's reserved bits 0. -/
def Obligations.StepKeepsInvariant : Prop :=
  ∀ s t, s.Inv → step s = .next t → t.Inv

/-- R250: the hardware has no trap mechanism; every instruction and every step completes with a next
state, which no step's parameters change and which counts one iteration. -/
def Obligations.EveryStepCompletes : Prop :=
  (∀ i s, ∃ t, exec i s = .next t) ∧
  (∀ s, ∃ t, step s = .next t ∧ t.config = s.config ∧ t.iteration = s.iteration + 1)

/-- The bytes at the PC are those of a well-formed instruction, all mapped, and STAT = AOK: the cycle
is exactly that instruction's, and the step adds the update phase of the iteration. -/
def Obligations.StepRunsDecodedInstruction : Prop :=
  ∀ s i, s.stat = .aok → i.wellFormed = true → s.holdsAtPc i →
    decode s.fetch.bytes = .instr i [] ∧ runCycle s = exec i s ∧
    step s = mapNext State.endIteration (exec i s)

/-- R155 (d): a cycle that ends with STAT = AOK found the bytes of a well-formed instruction at the
PC, all mapped, and is that instruction's execution. -/
def Obligations.AokCycleRanOneInstruction : Prop :=
  ∀ s t, s.stat = .aok → runCycle s = .next t → t.stat = .aok →
    ∃ i, i.wellFormed = true ∧ s.holdsAtPc i ∧ exec i s = .next t

/-- R330: an iteration is the CPU cycle and then, in the interactive platform, the updates of the
PPU, the joystick and the timer in that order, on the state the cycle left; in the batch platform
nothing more. The clause on the iteration that leaves AOK is the spec's decision D15. -/
def Obligations.IterationOrder : Prop :=
  ∀ s u, runCycle s = .next u →
    (s.config.platform = .interactive →
      step s = .next { ((u.ppuUpdate.joystickUpdate u.hostInput.buttons).timerUpdate
          u.hostInput.deltaUs) with inputs := u.inputs.tail, iteration := u.iteration + 1 } ∧
      u.ppuUpdate.ppu.active = parseSprites u.ppu.config) ∧
    (s.config.platform = .batch → step s = .next { u with iteration := u.iteration + 1 })

/-! ### The processor status -/

/-- R27, R122: the priorities, the trace codes, and `set_status` by priority; nothing else changes. -/
def Obligations.SetStatusMerges : Prop :=
  (Stat.priority .aok = 0 ∧ Stat.priority .ins = 1 ∧ Stat.priority .adr = 2 ∧
    Stat.priority .hlt = 3) ∧
  (Stat.traceCode .aok = 1 ∧ Stat.traceCode .hlt = 2 ∧ Stat.traceCode .adr = 3 ∧
    Stat.traceCode .ins = 4) ∧
  (∀ (s : State) new, s.raise new =
    { s with stat := if new.priority ≥ s.stat.priority then new else s.stat }) ∧
  (∀ (s : State) new, (s.raise new).raise new = s.raise new) ∧
  (∀ s : State, s.raise .aok = s)

/-- R29: once STAT is not AOK a cycle does nothing and a step leaves the CPU and RAM as they are; no
instruction and no device update returns STAT to AOK. -/
def Obligations.StatusIsSticky : Prop :=
  (∀ s, s.stat ≠ .aok → runCycle s = .next s) ∧
  (∀ s t, s.stat ≠ .aok → step s = .next t →
    t.stat = s.stat ∧ t.regs = s.regs ∧ t.cc = s.cc ∧ t.pc = s.pc ∧ t.ram = s.ram ∧
    t.ppu.config = s.ppu.config) ∧
  (∀ i s t, s.stat ≠ .aok → exec i s = .next t → t.stat ≠ .aok) ∧
  (∀ s : State, s.updateDevices.stat = s.stat)

/-- Status monotonicity, the source's invariant 6: no step lowers the priority of STAT. -/
def Obligations.StatusMonotone : Prop :=
  (∀ i s t, exec i s = .next t → s.stat.priority ≤ t.stat.priority) ∧
  (∀ s t, step s = .next t → s.stat.priority ≤ t.stat.priority)

/-- The PC names the instruction that raised the status: a cycle that takes STAT out of AOK keeps the
PC, whatever raised it. -/
def Obligations.PcPreservedOffAok : Prop :=
  ∀ s t, s.stat = .aok → runCycle s = .next t → t.stat ≠ .aok → t.pc = s.pc

/-- INS and HLT are precise: a cycle from AOK that ends with either changed nothing but STAT. -/
def Obligations.InsAndHltPrecise : Prop :=
  ∀ s t, s.stat = .aok → runCycle s = .next t → t.stat = .ins ∨ t.stat = .hlt →
    t = { s with stat := t.stat }

/-! ### Encoding -/

/-- Decoding the encoding of a well-formed instruction, with any bytes after it, gives back that
instruction, every register field and every immediate included, and the bytes after it. -/
def Obligations.DecodeEncodeRoundTrip : Prop :=
  ∀ i rest, i.wellFormed = true → decode (encode i ++ rest) = .instr i rest

/-- Each byte string has one meaning: what the decoder reads is well-formed, and its encoding is
exactly the bytes read. -/
def Obligations.DecodedBytesAreTheEncoding : Prop :=
  ∀ bs i rest, decode bs = .instr i rest →
    i.wellFormed = true ∧ bs = encode i ++ rest ∧ (encode i).length = i.length

/-- R99: byte 0 is illegal exactly when it is not one of the 28 values of the opcode map, that
is for 228 values; it is rejected on byte 0 alone; and a cycle that fetches one sets STAT to INS and
changes nothing else. -/
def Obligations.IllegalByte0RaisesIns : Prop :=
  (∀ b : Byte, b ∉ validByte0 ↔ classOfByte0 b = none) ∧
  (∀ (b : Byte) rest, b ∉ validByte0 → decode (b :: rest) = .reject .illegalByte0) ∧
  (∀ (b : Byte) rest, b ∈ validByte0 → decode (b :: rest) ≠ .reject .illegalByte0) ∧
  ((List.range 256).countP fun n => decide (BitVec.ofNat 8 n ∉ validByte0)) = 228 ∧
  (∀ (s : State) (b : Byte), s.stat = .aok → s.busRead s.pc = { data := b, miss := false } →
    b ∉ validByte0 → runCycle s = .next { s with stat := .ins })

/-- R133: an instruction with RNONE in a required field raises INS and changes nothing but STAT; the
only field value that names no register is 0xF; and a cycle whose bytes hold such an instruction ends
so. -/
def Obligations.RnoneRaisesIns : Prop :=
  (∀ i s, i.wellFormed = false → exec i s = .next (s.raise .ins)) ∧
  (∀ n : Nibble, regIdOf n = none ↔ n = 0xF) ∧
  (∀ s : State, s.stat = .aok → s.fetch.ok = true → decode s.fetch.bytes = .reject .noRegister →
    runCycle s = .next { s with stat := .ins })

/-- The spec's decision D5: with `STRICT_UNUSED_REG` a well-formed instruction with an unused field
other than RNONE raises INS and changes nothing but STAT. -/
def Obligations.StrictUnusedFieldRaisesIns : Prop :=
  ∀ i s, s.config.strictUnusedReg = true → i.canonical = false → exec i s = .next (s.raise .ins)

/-- A canonical instruction behaves the same under both values of `STRICT_UNUSED_REG`. -/
def Obligations.CanonicalIgnoresStrict : Prop :=
  ∀ i s b, i.canonical = true →
    exec i { s with config := { s.config with strictUnusedReg := b } } =
      mapNext (fun t => { t with config := { t.config with strictUnusedReg := b } }) (exec i s)

/-- Words written out from the spec's encodings, one of each family, and some illegal ones. -/
def Obligations.SpecWordsDecode : Prop :=
  decode [0x00] = .instr .halt [] ∧ decode [0x10] = .instr .nop [] ∧
  decode [0x24, 0x01] = .instr (.cmovne (some .rax) (some .rcx)) [] ∧
  decode [0x30, 0xF4, 0x00, 0x02, 0, 0, 0, 0, 0, 0] = .instr (.irmovq none (some .rsp) 0x200) [] ∧
  decode [0x40, 0x03, 0x08, 0, 0, 0, 0, 0, 0, 0] =
    .instr (.rmmovq (some .rax) (some .rbx) 8) [] ∧
  decode [0x50, 0x23, 0x08, 0, 0, 0, 0, 0, 0, 0] =
    .instr (.mrmovq (some .rdx) (some .rbx) 8) [] ∧
  decode [0x61, 0x01] = .instr (.subq (some .rax) (some .rcx)) [] ∧
  decode [0xC0, 0xF2, 0x0A, 0, 0, 0, 0, 0, 0, 0] = .instr (.iaddq none (some .rdx) 10) [] ∧
  decode [0x76, 0x20, 0, 0, 0, 0, 0, 0, 0x80] = .instr (.jg 0x8000000000000020) [] ∧
  decode [0x80, 0x30, 0, 0, 0, 0, 0, 0, 0] = .instr (.call 0x30) [] ∧
  decode [0x90] = .instr .ret [] ∧
  decode [0xA0, 0x0F] = .instr (.pushq (some .rax) none) [] ∧
  decode [0xB0, 0x3F] = .instr (.popq (some .rbx) none) [] ∧
  decode [0x01] = .reject .illegalByte0 ∧ decode [0x60, 0x0F] = .reject .noRegister

/-! ### What each instruction does -/

/-- R170, `halt`: HLT is raised and nothing else changes, the PC included; every later cycle is a
no-op; bytes 0x01 to 0x0F are illegal; and with `FETCH_ADR_CONTINUES` a fetch from an unmapped
address is executed as halt. -/
def Obligations.HaltEffect : Prop :=
  (∀ s : State, s.stat = .aok → exec .halt s = .next { s with stat := .hlt }) ∧
  (∀ s : State, runCycle { s with stat := .hlt } = .next { s with stat := .hlt }) ∧
  encode .halt = [0x00] ∧ rejectsByte0 0x01 0x0F ∧
  (∀ s : State, s.stat = .aok → s.config.fetchAdrContinues = true → s.mapped s.pc = false →
    runCycle s = .next { s with stat := .hlt })

/-- R171, `nop`: only the PC changes, to inst_pc + 1. -/
def Obligations.NopEffect : Prop :=
  (∀ s : State, s.stat = .aok → exec .nop s = .next { s with pc := s.pc + 1 }) ∧
  encode .nop = [0x10] ∧ rejectsByte0 0x11 0x1F

/-- R140, R180 to R187, the seven CMOVcc instructions (`cmovInstr` names them by condition): rB
becomes rA if the condition holds and else stays, the PC becomes inst_pc + 2, nothing else changes;
RNONE in either field raises INS, taken or not. -/
def Obligations.CmovEffect : Prop :=
  (∀ c a b s, s.stat = .aok →
    exec (cmovInstr c (some a) (some b)) s =
      .next { s with
        regs := if s.cc.cond c then s.regs.set b (s.reg a) else s.regs
        pc := s.pc + 2 }) ∧
  conditionTable ∧
  (∀ c rA rB s, rA = none ∨ rB = none → exec (cmovInstr c rA rB) s = .next (s.raise .ins)) ∧
  (∀ c rA rB, encode (cmovInstr c rA rB) = [BitVec.ofNat 8 (0x20 + condIfun c), regByte rA rB]) ∧
  rejectsByte0 0x27 0x2F

/-- R188, `irmovq`: rB becomes V, the PC inst_pc + 10, nothing else changes; INS for rB = RNONE, and
for an unused rA other than RNONE under `STRICT_UNUSED_REG`; after a fetch miss rB is still written
and the PC stays. -/
def Obligations.IrmovqEffect : Prop :=
  (∀ rA b v s, s.stat = .aok → s.unusedOk rA = true →
    exec (.irmovq rA (some b) v) s = .next { s with regs := s.regs.set b v, pc := s.pc + 10 }) ∧
  (∀ rA b v s, s.stat = .adr → s.unusedOk rA = true →
    exec (.irmovq rA (some b) v) s = .next { s with regs := s.regs.set b v }) ∧
  (∀ rA v s, exec (.irmovq rA none v) s = .next (s.raise .ins)) ∧
  (∀ rA rB v s, s.config.strictUnusedReg = true → rA ≠ none →
    exec (.irmovq rA rB v) s = .next (s.raise .ins)) ∧
  (∀ s : State, s.config.strictUnusedReg = false → ∀ rA, s.unusedOk rA = true) ∧
  (∀ rA rB v, encode (.irmovq rA rB v) = 0x30 :: regByte rA rB :: bytesLE v) ∧
  rejectsByte0 0x31 0x3F

/-- R189, `rmmovq`: on eight mapped addresses from rB + D (mod 2^64) the word rA is stored there and
the PC becomes inst_pc + 10; if one of them misses, the bytes that hit are still stored, ADR is raised
and the PC stays. No register and no flag changes. -/
def Obligations.RmmovqEffect : Prop :=
  (∀ a b d s, s.stat = .aok → s.mapped8 (effectiveAddress (s.reg b) d) = true →
    exec (.rmmovq (some a) (some b) d) s =
      .next { (s.memWrite (effectiveAddress (s.reg b) d) (s.reg a)).1 with pc := s.pc + 10 }) ∧
  (∀ a b d s, s.stat = .aok → s.mapped8 (effectiveAddress (s.reg b) d) = false →
    exec (.rmmovq (some a) (some b) d) s =
      .next { (s.memWrite (effectiveAddress (s.reg b) d) (s.reg a)).1 with stat := .adr }) ∧
  (∀ a b d s, s.stat = .aok → ∃ t, exec (.rmmovq (some a) (some b) d) s = .next t ∧
    t.regs = s.regs ∧ t.cc = s.cc) ∧
  (∀ valB d, effectiveAddress valB d = valB + d) ∧
  (∀ rA rB d s, rA = none ∨ rB = none → exec (.rmmovq rA rB d) s = .next (s.raise .ins)) ∧
  (∀ rA rB d, encode (.rmmovq rA rB d) = 0x40 :: regByte rA rB :: bytesLE d) ∧
  rejectsByte0 0x41 0x4F

/-- R190, `mrmovq`: rA becomes the word at rB + D (mod 2^64) and the PC inst_pc + 10; if one of the
eight addresses misses, rA is still written, with 0 in every byte that missed, ADR is raised and the
PC stays. Nothing else changes. -/
def Obligations.MrmovqEffect : Prop :=
  (∀ a b d s, s.stat = .aok → s.mapped8 (effectiveAddress (s.reg b) d) = true →
    exec (.mrmovq (some a) (some b) d) s =
      .next { s with
        regs := s.regs.set a (s.memRead (effectiveAddress (s.reg b) d)).1
        pc := s.pc + 10 }) ∧
  (∀ a b d s, s.stat = .aok → s.mapped8 (effectiveAddress (s.reg b) d) = false →
    exec (.mrmovq (some a) (some b) d) s =
      .next { s with
        regs := s.regs.set a (s.memRead (effectiveAddress (s.reg b) d)).1
        stat := .adr }) ∧
  (∀ (s : State) x k, k < 8 → s.mapped (x + BitVec.ofNat 64 k) = false → byteOf k (s.memRead x).1 = 0) ∧
  (∀ valB d, effectiveAddress valB d = valB + d) ∧
  (∀ rA rB d s, rA = none ∨ rB = none → exec (.mrmovq rA rB d) s = .next (s.raise .ins)) ∧
  (∀ rA rB d, encode (.mrmovq rA rB d) = 0x50 :: regByte rA rB :: bytesLE d) ∧
  rejectsByte0 0x51 0x5F

/-- R139, R200 to R204, the four OPQ instructions (`opqInstr` names them by operation): rB
becomes rB op rA, the three flags are set from the result, the PC becomes inst_pc + 2, nothing else
changes; RNONE in either field raises INS. The clause for STAT = ADR, after a fetch miss: rB is still
written and neither the flags nor the PC are; it rests on the spec's decision D2 and on
notes/assumptions/3 and 10 (DEDUCED). -/
def Obligations.OpqEffect : Prop :=
  (∀ op a b s, s.stat = .aok →
    exec (opqInstr op (some a) (some b)) s =
      .next { s with
        regs := s.regs.set b (alu op (s.reg b) (s.reg a))
        cc := aluFlags op (s.reg b) (s.reg a)
        pc := s.pc + 2 }) ∧
  (∀ op a b s, s.stat = .adr →
    exec (opqInstr op (some a) (some b)) s =
      .next { s with regs := s.regs.set b (alu op (s.reg b) (s.reg a)) }) ∧
  aluTable ∧ flagTable ∧
  (∀ op rA rB s, rA = none ∨ rB = none → exec (opqInstr op rA rB) s = .next (s.raise .ins)) ∧
  (∀ op rA rB, encode (opqInstr op rA rB) = [BitVec.ofNat 8 (0x60 + aluIfun op), regByte rA rB]) ∧
  rejectsByte0 0x64 0x6F

/-- R205, `iaddq`: rB becomes rB + V with the flags of an add of V, the PC inst_pc + 10, nothing else
changes; INS for rB = RNONE, and for an unused rA other than RNONE under `STRICT_UNUSED_REG`; after a
fetch miss rB is still written and neither the flags nor the PC are. -/
def Obligations.IaddqEffect : Prop :=
  (∀ rA b v s, s.stat = .aok → s.unusedOk rA = true →
    exec (.iaddq rA (some b) v) s =
      .next { s with
        regs := s.regs.set b (s.reg b + v)
        cc :=
          { zf := s.reg b + v == 0
            sf := (s.reg b + v).getLsbD 63
            of := (v.getLsbD 63 == (s.reg b).getLsbD 63) &&
              ((s.reg b + v).getLsbD 63 != v.getLsbD 63) }
        pc := s.pc + 10 }) ∧
  (∀ rA b v s, s.stat = .adr → s.unusedOk rA = true →
    exec (.iaddq rA (some b) v) s = .next { s with regs := s.regs.set b (s.reg b + v) }) ∧
  (∀ rA v s, exec (.iaddq rA none v) s = .next (s.raise .ins)) ∧
  (∀ rA rB v s, s.config.strictUnusedReg = true → rA ≠ none →
    exec (.iaddq rA rB v) s = .next (s.raise .ins)) ∧
  (∀ s : State, s.config.strictUnusedReg = false → ∀ rA, s.unusedOk rA = true) ∧
  (∀ rA rB v, encode (.iaddq rA rB v) = 0xC0 :: regByte rA rB :: bytesLE v) ∧
  rejectsByte0 0xC1 0xCF

/-- R140, R220 to R227, the seven jumps (`jccInstr` names them by condition): the PC becomes the
absolute target if the condition holds and else inst_pc + 9; nothing else changes, and after a fetch
miss nothing at all; any target is accepted, and one that no mapping covers shows in the next cycle
only. -/
def Obligations.JccEffect : Prop :=
  (∀ c dest s, s.stat = .aok →
    exec (jccInstr c dest) s = .next { s with pc := if s.cc.cond c then dest else s.pc + 9 }) ∧
  (∀ c dest s, s.stat = .adr → exec (jccInstr c dest) s = .next s) ∧
  conditionTable ∧
  (∀ s : State, s.stat = .aok → s.mapped s.pc = false →
    runCycle s = .next { s with stat := if s.config.fetchAdrContinues then .hlt else .adr }) ∧
  (∀ c dest, encode (jccInstr c dest) = BitVec.ofNat 8 (0x70 + condIfun c) :: bytesLE dest) ∧
  rejectsByte0 0x77 0x7F

/-- R228, `call`: the return address inst_pc + 9 is stored at RSP - 8, RSP becomes RSP - 8 and the PC
the target; if one of the eight addresses misses, RSP is still decremented, the bytes that hit are
still stored, ADR is raised and the PC stays. Nothing else changes. -/
def Obligations.CallEffect : Prop :=
  (∀ dest s, s.stat = .aok → s.mapped8 (s.reg .rsp - 8) = true →
    exec (.call dest) s =
      .next { (s.memWrite (s.reg .rsp - 8) (s.pc + 9)).1 with
        regs := s.regs.set .rsp (s.reg .rsp - 8)
        pc := dest }) ∧
  (∀ dest s, s.stat = .aok → s.mapped8 (s.reg .rsp - 8) = false →
    exec (.call dest) s =
      .next { (s.memWrite (s.reg .rsp - 8) (s.pc + 9)).1 with
        regs := s.regs.set .rsp (s.reg .rsp - 8)
        stat := .adr }) ∧
  (∀ (s : State) a v, (s.memWrite a v).1.cc = s.cc ∧ (s.memWrite a v).1.pc = s.pc) ∧
  (∀ dest, encode (.call dest) = 0x80 :: bytesLE dest) ∧
  rejectsByte0 0x81 0x8F

/-- R229, `ret`: the PC becomes the word at the old RSP and RSP becomes RSP + 8; if one of the eight
addresses misses, RSP is still incremented, ADR is raised and the PC stays. Nothing else changes. -/
def Obligations.RetEffect : Prop :=
  (∀ s : State, s.stat = .aok → s.mapped8 (s.reg .rsp) = true →
    exec .ret s =
      .next { s with
        regs := s.regs.set .rsp (s.reg .rsp + 8)
        pc := (s.memRead (s.reg .rsp)).1 }) ∧
  (∀ s : State, s.stat = .aok → s.mapped8 (s.reg .rsp) = false →
    exec .ret s =
      .next { s with regs := s.regs.set .rsp (s.reg .rsp + 8), stat := .adr }) ∧
  encode .ret = [0x90] ∧ rejectsByte0 0x91 0x9F

/-- R240, `pushq`: rA as it was before the push is stored at RSP - 8, RSP becomes RSP - 8 and the PC
inst_pc + 2; if one of the eight addresses misses, RSP is still decremented, the bytes that hit are
still stored, ADR is raised and the PC stays; INS for rA = RNONE, and for an unused rB other than
RNONE under `STRICT_UNUSED_REG`. Nothing else changes. -/
def Obligations.PushqEffect : Prop :=
  (∀ a rB s, s.stat = .aok → s.unusedOk rB = true → s.mapped8 (s.reg .rsp - 8) = true →
    exec (.pushq (some a) rB) s =
      .next { (s.memWrite (s.reg .rsp - 8) (s.reg a)).1 with
        regs := s.regs.set .rsp (s.reg .rsp - 8)
        pc := s.pc + 2 }) ∧
  (∀ a rB s, s.stat = .aok → s.unusedOk rB = true → s.mapped8 (s.reg .rsp - 8) = false →
    exec (.pushq (some a) rB) s =
      .next { (s.memWrite (s.reg .rsp - 8) (s.reg a)).1 with
        regs := s.regs.set .rsp (s.reg .rsp - 8)
        stat := .adr }) ∧
  (∀ (s : State) a v, (s.memWrite a v).1.cc = s.cc ∧ (s.memWrite a v).1.pc = s.pc) ∧
  (∀ rB s, exec (.pushq none rB) s = .next (s.raise .ins)) ∧
  (∀ rA rB s, s.config.strictUnusedReg = true → rB ≠ none →
    exec (.pushq rA rB) s = .next (s.raise .ins)) ∧
  (∀ s : State, s.config.strictUnusedReg = false → ∀ rB, s.unusedOk rB = true) ∧
  (∀ rA rB, encode (.pushq rA rB) = [0xA0, regByte rA rB]) ∧
  rejectsByte0 0xA1 0xAF

/-- R241, `popq`: RSP becomes RSP + 8 and then rA the word at the old RSP, so that `popq %rsp` leaves
the popped word, and the PC becomes inst_pc + 2; if one of the eight addresses misses, both registers
are still written, with 0 in every byte that missed, ADR is raised and the PC stays; INS for
rA = RNONE, and for an unused rB other than RNONE under `STRICT_UNUSED_REG`. Nothing else changes. -/
def Obligations.PopqEffect : Prop :=
  (∀ a rB s, s.stat = .aok → s.unusedOk rB = true → s.mapped8 (s.reg .rsp) = true →
    exec (.popq (some a) rB) s =
      .next { s with
        regs := (s.regs.set .rsp (s.reg .rsp + 8)).set a (s.memRead (s.reg .rsp)).1
        pc := s.pc + 2 }) ∧
  (∀ a rB s, s.stat = .aok → s.unusedOk rB = true → s.mapped8 (s.reg .rsp) = false →
    exec (.popq (some a) rB) s =
      .next { s with
        regs := (s.regs.set .rsp (s.reg .rsp + 8)).set a (s.memRead (s.reg .rsp)).1
        stat := .adr }) ∧
  (∀ (s : State) x k, k < 8 → s.mapped (x + BitVec.ofNat 64 k) = false → byteOf k (s.memRead x).1 = 0) ∧
  (∀ (f : RegFile) v w, (f.set .rsp v).set .rsp w = f.set .rsp w) ∧
  (∀ rB s, exec (.popq none rB) s = .next (s.raise .ins)) ∧
  (∀ rA rB s, s.config.strictUnusedReg = true → rB ≠ none →
    exec (.popq rA rB) s = .next (s.raise .ins)) ∧
  (∀ s : State, s.config.strictUnusedReg = false → ∀ rB, s.unusedOk rB = true) ∧
  (∀ rA rB, encode (.popq rA rB) = [0xB0, regByte rA rB]) ∧
  rejectsByte0 0xB1 0xBF

/-! ### Arithmetic -/

/-- OF is signed overflow: it is set exactly when the exact signed sum or difference lies outside
[-2^63, 2^63 - 1]; ZF is a zero result and SF a negative one; AND and XOR clear OF. -/
def Obligations.OverflowFlagIsSignedOverflow : Prop :=
  ∀ b a : Word,
    ((aluFlags .add b a).of = true ↔
      b.toInt + a.toInt < -2 ^ 63 ∨ 2 ^ 63 - 1 < b.toInt + a.toInt) ∧
    ((aluFlags .sub b a).of = true ↔
      b.toInt - a.toInt < -2 ^ 63 ∨ 2 ^ 63 - 1 < b.toInt - a.toInt) ∧
    (∀ op, op = .and ∨ op = .xor → (aluFlags op b a).of = false) ∧
    (∀ op, (aluFlags op b a).zf = true ↔ alu op b a = 0) ∧
    (∀ op, (aluFlags op b a).sf = true ↔ (alu op b a).toInt < 0)

/-- After `subq %rA, %rB` the conditions compare the old rB with rA as signed integers, overflow
included. -/
def Obligations.ConditionsAfterSubtract : Prop :=
  ∀ b a : Word,
    ((aluFlags .sub b a).cond .le = true ↔ b.toInt ≤ a.toInt) ∧
    ((aluFlags .sub b a).cond .l = true ↔ b.toInt < a.toInt) ∧
    ((aluFlags .sub b a).cond .e = true ↔ b = a) ∧
    ((aluFlags .sub b a).cond .ne = true ↔ b ≠ a) ∧
    ((aluFlags .sub b a).cond .ge = true ↔ a.toInt ≤ b.toInt) ∧
    ((aluFlags .sub b a).cond .g = true ↔ a.toInt < b.toInt)

/-! ### Memory and the bus -/

/-- R56 to R60: the first record that covers the address is the one used, at the relative address
`a - start`; where no record covers it, a read and a write miss and no state changes. What the four
devices answer and store (R52, R53, R57, R68, R270, R290, R295): RAM its byte below `RAM_SIZE`, and a
miss from there on (the spec's decision D24); the PPU configuration region its byte below 192 and 0
from there on, where a write is ignored; the timer and the joystick their byte at 0 and 0 elsewhere,
and they ignore every write, which does not miss. -/
def Obligations.BusFirstMatch : Prop :=
  (∀ (s : State) (a : Word) (b : Byte),
    (∀ m ∈ s.config.busMap, ¬ (m.start ≤ a.toNat ∧ a.toNat < m.stop)) →
    s.busRead a = { data := 0, miss := true } ∧ s.busWrite a b = (s, { data := 0, miss := true })) ∧
  (∀ (s : State) (a : Word) (b : Byte) pre m post, s.config.busMap = pre ++ m :: post →
    (∀ m' ∈ pre, ¬ (m'.start ≤ a.toNat ∧ a.toNat < m'.stop)) →
    m.start ≤ a.toNat → a.toNat < m.stop →
    s.busRead a =
      (match s.deviceRead m.device (a.toNat - m.start) with
      | some d => { data := d, miss := false }
      | none => { data := 0, miss := true }) ∧
    s.busWrite a b =
      (match s.deviceWrite m.device (a.toNat - m.start) b with
      | some t => (t, { data := b, miss := false })
      | none => (s, { data := 0, miss := true })) ∧
    (m.device = .ram → s.config.ramSize ≤ a.toNat - m.start →
      s.busRead a = { data := 0, miss := true } ∧
      s.busWrite a b = (s, { data := 0, miss := true }))) ∧
  (∀ (s : State) (a : Word) (b : Byte), s.mapped a = false →
    s.busWrite a b = (s, { data := 0, miss := true })) ∧
  (∀ (s : State) (rel : Nat),
    s.deviceRead .ram rel = (if rel < s.config.ramSize then some (s.ram.read rel) else none) ∧
    s.deviceRead .ppu rel = some (if rel < 192 then s.ppu.config.read rel else 0) ∧
    s.deviceRead .timer rel = some (if rel = 0 then s.timer.byte else 0) ∧
    s.deviceRead .joystick rel = some (if rel = 0 then s.joystick.byte else 0)) ∧
  (∀ (s : State) (rel : Nat) (b : Byte),
    (rel < s.config.ramSize → ∃ ram, s.deviceWrite .ram rel b = some { s with ram := ram } ∧
      ∀ x, ram.read x = if x = rel then b else s.ram.read x) ∧
    (s.config.ramSize ≤ rel → s.deviceWrite .ram rel b = none) ∧
    (rel < 192 → ∃ config,
      s.deviceWrite .ppu rel b = some { s with ppu := { s.ppu with config := config } } ∧
      ∀ x, config.read x = if x = rel then b else s.ppu.config.read x) ∧
    (192 ≤ rel → s.deviceWrite .ppu rel b = some s) ∧
    s.deviceWrite .timer rel b = some s ∧ s.deviceWrite .joystick rel b = some s)

/-- R62 (the spec's decision D8), R63: where each address of the two default maps goes; RAM comes
first, so that with `RAM_SIZE > 0x2000` it shadows a peripheral below it. -/
def Obligations.DefaultMapRouting : Prop :=
  (∀ n a, findMapping (defaultMap .batch n) a = if a < n then some (.ram, a) else none) ∧
  (∀ n a, findMapping (defaultMap .interactive n) a =
    if a < n then some (.ram, a)
    else if a = 0x2000 then some (.joystick, 0)
    else if 0x3000 ≤ a ∧ a ≤ 0x30BF then some (.ppu, a - 0x3000)
    else if a = 0x4000 then some (.timer, 0)
    else none)

/-- R51: under a default map no device sees a relative address outside it; and no two addresses reach
one device byte. -/
def Obligations.DefaultMapsInRangeAndAliasFree : Prop :=
  ∀ p n cap,
    (∀ a d rel, findMapping (defaultMap p n) a = some (d, rel) →
      match d with
      | .ram => rel < n
      | .ppu => rel < ppuConfigSize
      | .joystick => rel = 0
      | .timer => rel = 0) ∧
    mapAliasFree (Config.standard p n cap)

/-- R70 with the spec's decision D3: byte k of the word read is the byte the bus answers at a + k, 0
where it misses; under `MULTIBYTE_STOP_AT_MISS` it is 0 after a miss as well; and the access misses
iff one of its eight bytes does. -/
def Obligations.MemReadBytes : Prop :=
  ∀ (s : State) (a : Word),
    (∀ k, k < 8 → s.config.multibyteStopAtMiss = false →
      byteOf k (s.memRead a).1 = (s.busRead (a + BitVec.ofNat 64 k)).data) ∧
    (∀ k, k < 8 → (∀ j, j < k → s.mapped (a + BitVec.ofNat 64 j) = true) →
      byteOf k (s.memRead a).1 = (s.busRead (a + BitVec.ofNat 64 k)).data) ∧
    (∀ j k, j < k → k < 8 → s.config.multibyteStopAtMiss = true →
      s.mapped (a + BitVec.ofNat 64 j) = false → byteOf k (s.memRead a).1 = 0) ∧
    ((s.memRead a).2 = true ↔ ∃ k, k < 8 ∧ s.mapped (a + BitVec.ofNat 64 k) = false)

/-- R71 with the spec's decision D3: a writable byte of the access reads back as its byte of the word,
whatever other bytes miss; under `MULTIBYTE_STOP_AT_MISS` a byte after a miss is not written; and the
access misses iff one of its eight bytes does. -/
def Obligations.MemWriteBytes : Prop :=
  ∀ (s : State) (a v : Word),
    (∀ k, k < 8 → s.distinct8 a → s.writable (a + BitVec.ofNat 64 k) = true →
      (s.config.multibyteStopAtMiss = false ∨
        ∀ j, j < k → s.mapped (a + BitVec.ofNat 64 j) = true) →
      (s.memWrite a v).1.busRead (a + BitVec.ofNat 64 k) = { data := byteOf k v, miss := false }) ∧
    (∀ j k, j < k → k < 8 → s.distinct8 a → s.config.multibyteStopAtMiss = true →
      s.mapped (a + BitVec.ofNat 64 j) = false →
      (s.memWrite a v).1.busRead (a + BitVec.ofNat 64 k) =
        s.busRead (a + BitVec.ofNat 64 k)) ∧
    ((s.memWrite a v).2 = true ↔ ∃ k, k < 8 ∧ s.mapped (a + BitVec.ofNat 64 k) = false)

/-- R72: where the missing bytes form a suffix of the access, both settings of
`MULTIBYTE_STOP_AT_MISS` read the same word and leave the same memory. -/
def Obligations.SuffixMissesIgnoreStopSetting : Prop :=
  ∀ (s : State) (a v : Word) (b : Bool), s.missesAreSuffix a →
    ({ s with config := { s.config with multibyteStopAtMiss := b } } : State).memRead a =
      s.memRead a ∧
    (({ s with config := { s.config with multibyteStopAtMiss := b } } : State).memWrite a v).1 =
      { (s.memWrite a v).1 with config := { s.config with multibyteStopAtMiss := b } }

/-- The frame of memory, for every instruction: the address stored to is rB + D for RMMOVQ and
RSP - 8 for CALL and PUSHQ, the others store nothing (`storeAddress`); every address that is not
routed to one of the eight bytes from there reads as before, and on a map without aliases, as every
default map is, every address outside those eight does. -/
def Obligations.StoresOnlyAtTheirAddress : Prop :=
  (∀ i s t x, exec i s = .next t → storeAddress s i = none → t.busRead x = s.busRead x) ∧
  (∀ i s t a x, exec i s = .next t → storeAddress s i = some a →
    (∀ k, k < 8 → s.resolve (a + BitVec.ofNat 64 k) = s.resolve x → s.resolve x = none) →
    t.busRead x = s.busRead x) ∧
  (∀ i s t a x, exec i s = .next t → storeAddress s i = some a → mapAliasFree s.config →
    (∀ k, k < 8 → x ≠ a + BitVec.ofNat 64 k) → t.busRead x = s.busRead x)

/-! ### Who owns what -/

/-- R150: an instruction writes no register but those of the write-back table (`destinations`): rB of
CMOVcc, IRMOVQ, OPQ and IADDQ, rA of MRMOVQ, RSP and rA of POPQ, RSP of RET, PUSHQ and CALL. -/
def Obligations.RegistersWrittenAreTheTables : Prop :=
  ∀ i s t r, exec i s = .next t → r ∉ destinations i → t.reg r = s.reg r

/-- R25: the flags are written only by OPQ and IADDQ, only when STAT = AOK at execute, and then
all three; they are read only by CMOVcc and Jcc. -/
def Obligations.FlagsOwnedByArithmetic : Prop :=
  (∀ i s t, exec i s = .next t → writesFlags i = false → t.cc = s.cc) ∧
  (∀ i s t, exec i s = .next t → s.stat ≠ .aok → t.cc = s.cc) ∧
  (∀ op a b s t, s.stat = .aok → exec (opqInstr op (some a) (some b)) s = .next t →
    t.cc = aluFlags op (s.reg b) (s.reg a)) ∧
  (∀ rA b v s t, s.stat = .aok → s.unusedOk rA = true → exec (.iaddq rA (some b) v) s = .next t →
    t.cc = aluFlags .add (s.reg b) v) ∧
  (∀ i s f, readsFlags i = false →
    mapNext (fun t => { t with cc := f }) (exec i { s with cc := f }) =
      mapNext (fun t => { t with cc := f }) (exec i s))

/-- No instruction changes the active list, the framebuffers (R273), the timer (R290), the joystick
(R295), the parameters (the model's field, notes/assumptions/1), the host's inputs or the count of
iterations (the model's fields, notes/assumptions/4); and a cycle's result does not depend on the
active list, the framebuffers, the timer's residual (R37), the host's inputs or the count: no device
reaches the CPU but by the bytes it exposes on the bus (R254). -/
def Obligations.HiddenDeviceStateUnreachable : Prop :=
  (∀ i s t, exec i s = .next t →
    t.ppu.active = s.ppu.active ∧ t.ppu.back = s.ppu.back ∧ t.ppu.front = s.ppu.front ∧
    t.timer = s.timer ∧ t.joystick = s.joystick ∧ t.config = s.config ∧ t.inputs = s.inputs ∧
    t.iteration = s.iteration) ∧
  (∀ s h, runCycle (s.withHidden h) = mapNext (fun t => t.withHidden h) (runCycle s))

/-- R23, R283: the device updates change no register, flag, status, PC, RAM byte or PPU configuration
byte; the PPU's own update changes its active list and framebuffers only. -/
def Obligations.DeviceUpdatesLeaveCpu : Prop :=
  (∀ s : State, s.updateDevices.regs = s.regs ∧ s.updateDevices.cc = s.cc ∧
    s.updateDevices.stat = s.stat ∧ s.updateDevices.pc = s.pc ∧ s.updateDevices.ram = s.ram ∧
    s.updateDevices.ppu.config = s.ppu.config ∧ s.updateDevices.config = s.config) ∧
  (∀ s : State, ∃ active back front,
    s.ppuUpdate = { s with ppu :=
      { config := s.ppu.config, active := active, back := back, front := front } })

/-! ### Fetch misses -/

/-- A miss on byte 0 (the spec's reading C3 and decision D2): with `FETCH_ADR_CONTINUES` the cycle ends
in HLT, without it in ADR; either way nothing else changes. -/
def Obligations.FetchMissOnByte0 : Prop :=
  ∀ s : State, s.stat = .aok → s.mapped s.pc = false →
    runCycle s = .next { s with stat := if s.config.fetchAdrContinues then .hlt else .adr }

/-- A miss on any byte of the instruction: the PC, the flags, the hidden device state, the parameters
and the model's own fields stay, and STAT ends as ADR or HLT; with `FETCH_ADR_CONTINUES = false` nothing but STAT = ADR changes; with it,
and bytes that hold an instruction, that instruction runs on the bytes read with ADR raised. -/
def Obligations.FetchMissKeepsPcAndFlags : Prop :=
  (∀ s t, s.stat = .aok → s.fetch.ok = false → runCycle s = .next t →
    t.pc = s.pc ∧ t.cc = s.cc ∧ (t.stat = .adr ∨ t.stat = .hlt) ∧
    t.ppu.active = s.ppu.active ∧ t.ppu.back = s.ppu.back ∧ t.ppu.front = s.ppu.front ∧
    t.timer = s.timer ∧ t.joystick = s.joystick ∧ t.config = s.config ∧ t.inputs = s.inputs ∧
    t.iteration = s.iteration) ∧
  (∀ s : State, s.stat = .aok → s.fetch.ok = false → s.config.fetchAdrContinues = false →
    runCycle s = .next { s with stat := .adr }) ∧
  (∀ s i rest, s.stat = .aok → s.fetch.ok = false → s.config.fetchAdrContinues = true →
    decode s.fetch.bytes = .instr i rest → runCycle s = exec i { s with stat := .adr })

/-! ### Sequences -/

/-- A push followed by a pop: the popped register holds the pushed word, RSP is restored, unless it is
itself the popped register, and STAT stays AOK. -/
def Obligations.PushThenPop : Prop :=
  ∀ a b rB rB' s, s.stat = .aok → s.unusedOk rB = true → s.unusedOk rB' = true →
    s.writable8 (s.reg .rsp - 8) = true → s.distinct8 (s.reg .rsp - 8) →
    ∃ t u, exec (.pushq (some a) rB) s = .next t ∧ exec (.popq (some b) rB') t = .next u ∧
      u.reg b = s.reg a ∧ (b ≠ .rsp → u.reg .rsp = s.reg .rsp) ∧ u.stat = .aok ∧
      u.pc = s.pc + 4

/-- A call to an address that returns at once: the PC is the address after the call, RSP is restored
and every other register is unchanged. -/
def Obligations.CallThenRet : Prop :=
  ∀ dest s, s.stat = .aok → s.writable8 (s.reg .rsp - 8) = true → s.distinct8 (s.reg .rsp - 8) →
    ∃ t u, exec (.call dest) s = .next t ∧ t.pc = dest ∧ exec .ret t = .next u ∧
      u.pc = s.pc + 9 ∧ u.regs = s.regs ∧ u.cc = s.cc ∧ u.stat = .aok

/-! ### The devices -/

/-- R291: after any sequence of updates with a period of at least 1 the timer has counted every whole
period of the total elapsed time, modulo 256, and carries the rest, so that jitter does not accumulate;
the machine's update uses `TIMER_PERIOD_US`; and no instruction and no other update changes the
timer. -/
def Obligations.TimerCountsWholePeriods : Prop :=
  (∀ (t : Timer) (p : Nat) (deltas : List Nat), 0 < p → t.acc < p →
    (deltas.foldl (fun t d => t.advance p d) t).byte.toNat =
      (t.byte.toNat + (t.acc + deltas.sum) / p) % 256 ∧
    (deltas.foldl (fun t d => t.advance p d) t).acc = (t.acc + deltas.sum) % p) ∧
  (∀ (s : State) d, s.timerUpdate d =
    { s with timer := s.timer.advance s.config.timerPeriodUs d }) ∧
  (∀ i s t, exec i s = .next t → t.timer = s.timer) ∧
  (∀ (s : State) b, s.ppuUpdate.timer = s.timer ∧ (s.joystickUpdate b).timer = s.timer)

/-- R296: the joystick byte holds exactly the buttons of the frame, whatever it held before: A-up in
bit 7, A-down 6, B-up 5, B-down 4, Start 3, Reset 2, and 0 in bits 1 and 0. The Reset bit resets
nothing (the spec's decision D20). -/
def Obligations.JoystickByteHoldsButtons : Prop :=
  ∀ (s : State) (b : Buttons),
    (s.joystickUpdate b).joystick.byte.getLsbD 7 = b.aUp ∧
    (s.joystickUpdate b).joystick.byte.getLsbD 6 = b.aDown ∧
    (s.joystickUpdate b).joystick.byte.getLsbD 5 = b.bUp ∧
    (s.joystickUpdate b).joystick.byte.getLsbD 4 = b.bDown ∧
    (s.joystickUpdate b).joystick.byte.getLsbD 3 = b.start ∧
    (s.joystickUpdate b).joystick.byte.getLsbD 2 = b.reset ∧
    (s.joystickUpdate b).joystick.byte.getLsbD 1 = false ∧
    (s.joystickUpdate b).joystick.byte.getLsbD 0 = false ∧
    ∃ byte, s.joystickUpdate b = { s with joystick := { byte := byte } }

/-- R271, R272: record i lies at relative bytes 12i to 12i + 11, that is at 0x3000 + 12i in the
interactive map: eight little-endian address bytes, height, width, x, y; and it is disabled when its
width or its height is 0. -/
def Obligations.SpriteRecordLayout : Prop :=
  (∀ (m : Memory) (i k : Nat), i < 16 → k < 8 →
    byteOf k (spriteRecord m i).addr = m.read (12 * i + k)) ∧
  (∀ (s : State) (n i k : Nat), s.config.busMap = defaultMap .interactive n → n ≤ 0x3000 →
    i < 16 → k < 8 →
    (s.busRead (BitVec.ofNat 64 (0x3000 + 12 * i + k))).data =
      byteOf k (spriteRecord s.ppu.config i).addr ∧
    (s.busRead (BitVec.ofNat 64 (0x3008 + 12 * i))).data = (spriteRecord s.ppu.config i).height ∧
    (s.busRead (BitVec.ofNat 64 (0x3009 + 12 * i))).data = (spriteRecord s.ppu.config i).width ∧
    (s.busRead (BitVec.ofNat 64 (0x300A + 12 * i))).data = (spriteRecord s.ppu.config i).x ∧
    (s.busRead (BitVec.ofNat 64 (0x300B + 12 * i))).data = (spriteRecord s.ppu.config i).y) ∧
  (∀ p : Sprite, p.enabled = false ↔ p.width = 0 ∨ p.height = 0)

/-- R274: pixel (x, y) is bit y * 120 + x, at byte idx / 8 and bit idx % 8, within 450 bytes. R280,
`set_pixel`: turning one pixel on turns on that pixel and no other, and one outside the display is
clipped. -/
def Obligations.FramebufferLayout : Prop :=
  (∀ (fb : Memory) (x y : Nat),
    pixelOn fb x y = (fb.read ((y * 120 + x) / 8)).getLsbD ((y * 120 + x) % 8)) ∧
  (∀ x y : Nat, x < 120 → y < 30 → (y * 120 + x) / 8 < 450) ∧
  (∀ (fb : Memory) (x y x' y' : Nat), x < 120 → y < 30 → x' < 120 → y' < 30 →
    pixelOn (setPixel fb x y) x' y' = (pixelOn fb x' y' || (decide (x' = x) && decide (y' = y)))) ∧
  (∀ (fb : Memory) (x y : Nat), ¬ (x < 120 ∧ y < 30) → setPixel fb x y = fb)

/-- R276 to R281 (with the spec's decisions D16 and D17): after a PPU update the active list is the
enabled records in ascending order; a pixel of the display is on exactly when it is x + col, y + row for
some sprite of the list and some row below its height and col below its width whose bitmap bit, bit
`row * width + col` counted from the byte at `addr` without padding, is 1 in the byte the bus answers, a
byte that misses being off; and the front buffer equals the back buffer. -/
def Obligations.PpuComposesEnabledSprites : Prop :=
  ∀ s : State,
    (∃ records : List Nat, records.Pairwise (· < ·) ∧
      (∀ i, i ∈ records ↔ i < 16 ∧ (spriteRecord s.ppu.config i).width ≠ 0 ∧
        (spriteRecord s.ppu.config i).height ≠ 0) ∧
      s.ppuUpdate.ppu.active = records.map (spriteRecord s.ppu.config)) ∧
    (∀ px py, px < 120 → py < 30 →
      (pixelOn s.ppuUpdate.ppu.front px py = true ↔
        ∃ p, p ∈ s.ppuUpdate.ppu.active ∧ ∃ row col,
          row < p.height.toNat ∧ col < p.width.toNat ∧
          px = p.x.toNat + col ∧ py = p.y.toNat + row ∧
          (s.busRead (p.addr + BitVec.ofNat 64 ((row * p.width.toNat + col) / 8))).miss = false ∧
          (s.busRead (p.addr + BitVec.ofNat 64 ((row * p.width.toNat + col) / 8))).data.getLsbD
            ((row * p.width.toNat + col) % 8) = true)) ∧
    s.ppuUpdate.ppu.front = s.ppuUpdate.ppu.back

/-- The source's invariant 5: calling `update()` twice yields the same front buffer. -/
def Obligations.PpuUpdateIdempotent : Prop :=
  ∀ s : State, s.ppuUpdate.ppuUpdate = s.ppuUpdate

/-! ### The driver -/

/-- R331 (the spec's decision D25 leaves the cap open): a run of some k iterations always ends, in the
state after its last iteration, because STAT has left AOK or the cap is reached; and it ends no earlier:
before each of its iterations STAT was AOK and the cap not reached. That no iteration runs where STAT is
not AOK or the cap is reached from the start, a cap of 0 among them, is the model's choice
(notes/assumptions/12). -/
def Obligations.RunEndsByStatusOrCap : Prop :=
  ∀ s : State, ∃ t k, run s = .next t ∧ Host.Core.run Sys2Proof.core k s = .next t ∧
    (t.stat ≠ .aok ∨ s.config.cycleCap ≤ t.iteration) ∧
    t.iteration = s.iteration + k ∧ t.config = s.config ∧
    (∀ j, j < k → ∃ u : State, Host.Core.run Sys2Proof.core j s = .next u ∧ u.stat = .aok ∧
      u.iteration = s.iteration + j ∧ u.iteration < s.config.cycleCap)

/-- R54: `load_bytes` fails exactly when the bytes would pass `RAM_SIZE`; else each byte stands at its
address, every other byte of RAM and all other state is unchanged. -/
def Obligations.LoadBytesWritesRam : Prop :=
  ∀ (s : State) (addr : Nat) (bytes : List Byte),
    (s.loadBytes addr bytes = none ↔ s.config.ramSize < addr + bytes.length) ∧
    (∀ t, s.loadBytes addr bytes = some t →
      (∀ k, k < bytes.length → t.ram.read (addr + k) = bytes.getD k 0) ∧
      (∀ x, x < addr ∨ addr + bytes.length ≤ x → t.ram.read x = s.ram.read x) ∧
      t = { s with ram := t.ram })

/-- R334 (with the spec's decision D26): the `MEM` of a snapshot holds exactly the non-zero words at
the offsets 8j inside RAM, as signed values. Byte k of the word at an offset, least significant first,
is the byte of RAM k places on, and 0 past the end of RAM. -/
def Obligations.SnapshotMemIsNonzeroWords : Prop :=
  (∀ (s : State) (o : Nat) (w : Int),
    (o, w) ∈ s.snapshot.mem ↔
      (∃ j, o = 8 * j) ∧ o < s.config.ramSize ∧ s.ramWord o ≠ 0 ∧ w = (s.ramWord o).toInt) ∧
  (∀ (s : State) (o k : Nat), k < 8 →
    byteOf k (s.ramWord o) = if o + k < s.config.ramSize then s.ram.read (o + k) else 0)

/-! ### After a fetch miss -/

/-- R130 (b), R149, R152, R156 (with the spec's decision D2 and notes/assumptions/3 and 10, DEDUCED):
what the instructions do when they run with STAT = ADR after a fetch miss on a later byte, on the zeros
read for the missing bytes (`FetchMissKeepsPcAndFlags` says that they run so). CMOVcc and MRMOVQ still
write their register, CMOVcc if its condition holds; RMMOVQ still stores; CALL and PUSHQ still store and
move RSP; POPQ still writes RSP and then rA; whether or not the access of the memory stage misses as
well. Nothing else changes, the PC and STAT = ADR included. IRMOVQ, OPQ, IADDQ and Jcc have this clause in their own statements. -/
def Obligations.EffectsAfterFetchMiss : Prop :=
  (∀ c a b s, s.stat = .adr →
    exec (cmovInstr c (some a) (some b)) s =
      .next { s with regs := if s.cc.cond c then s.regs.set b (s.reg a) else s.regs }) ∧
  (∀ a b d s, s.stat = .adr →
    exec (.rmmovq (some a) (some b) d) s = .next (s.memWrite (s.reg b + d) (s.reg a)).1) ∧
  (∀ a b d s, s.stat = .adr →
    exec (.mrmovq (some a) (some b) d) s =
      .next { s with regs := s.regs.set a (s.memRead (s.reg b + d)).1 }) ∧
  (∀ dest s, s.stat = .adr →
    exec (.call dest) s =
      .next { (s.memWrite (s.reg .rsp - 8) (s.pc + 9)).1 with
        regs := s.regs.set .rsp (s.reg .rsp - 8) }) ∧
  (∀ a rB s, s.stat = .adr → s.unusedOk rB = true →
    exec (.pushq (some a) rB) s =
      .next { (s.memWrite (s.reg .rsp - 8) (s.reg a)).1 with
        regs := s.regs.set .rsp (s.reg .rsp - 8) }) ∧
  (∀ a rB s, s.stat = .adr → s.unusedOk rB = true →
    exec (.popq (some a) rB) s =
      .next { s with
        regs := (s.regs.set .rsp (s.reg .rsp + 8)).set a (s.memRead (s.reg .rsp)).1 }) ∧
  (∀ (s : State) a v, ∃ ram config,
    (s.memWrite a v).1 = { s with ram := ram, ppu := { s.ppu with config := config } })
end

