-- ==== Sys2Proof/Laws/Decode.lean ====
section
/-! SUPPORT. The laws of the encoding helpers: bytes and words, nibbles and register fields, and the
decoding of each format. -/

namespace Sys2Proof

/-! ### Words and bytes -/

/-- Assembling the eight bytes of a word gives the word. -/
@[simp] theorem le64_bytesLE (v : Word) : le64 (bytesLE v) = v := by
  simp only [le64, bytesLE, byteOf]
  apply BitVec.eq_of_getLsbD_eq
  intro i hi
  simp only [BitVec.getLsbD_or, BitVec.getLsbD_setWidth, BitVec.getLsbD_extractLsb',
    BitVec.getLsbD_shiftLeft]
  interval_cases i <;> simp

/-- The bytes of an assembled word. -/
theorem byteOf_le64 (b0 b1 b2 b3 b4 b5 b6 b7 : Byte) :
    bytesLE (le64 [b0, b1, b2, b3, b4, b5, b6, b7]) = [b0, b1, b2, b3, b4, b5, b6, b7] := by
  simp only [le64, bytesLE, byteOf, List.cons.injEq, and_true]
  refine ⟨?_, ?_, ?_, ?_, ?_, ?_, ?_, ?_⟩ <;>
  · apply BitVec.eq_of_getLsbD_eq
    intro i hi
    simp only [BitVec.getLsbD_extractLsb', BitVec.getLsbD_or, BitVec.getLsbD_setWidth,
      BitVec.getLsbD_shiftLeft]
    interval_cases i <;> simp

/-- The eight bytes of a word are eight. -/
@[simp] theorem length_bytesLE (v : Word) : (bytesLE v).length = 8 := rfl

/-! ### Nibbles and register fields -/

@[simp] theorem regIdOf_fieldNibble (r : RegId) : regIdOf (fieldNibble r) = r := by
  rcases r with _ | r
  · rfl
  · cases r <;> rfl

@[simp] theorem fieldNibble_regIdOf (n : Nibble) : fieldNibble (regIdOf n) = n := by
  revert n
  decide

@[simp] theorem hiNibble_append (a b : Nibble) : hiNibble (a ++ b) = a := by
  revert a b
  decide

@[simp] theorem loNibble_append (a b : Nibble) : loNibble (a ++ b) = b := by
  revert a b
  decide

@[simp] theorem hiNibble_append_loNibble (b : Byte) : hiNibble b ++ loNibble b = b := by
  revert b
  decide

@[simp] theorem regIdOf_hi_regByte (rA rB : RegId) : regIdOf (hiNibble (regByte rA rB)) = rA := by
  simp [regByte]

@[simp] theorem regIdOf_lo_regByte (rA rB : RegId) : regIdOf (loNibble (regByte rA rB)) = rB := by
  simp [regByte]

@[simp] theorem regByte_regIdOf (b : Byte) :
    regByte (regIdOf (hiNibble b)) (regIdOf (loNibble b)) = b := by
  simp [regByte]

/-! ### Lengths -/

@[simp] theorem length_encodeF2 (b : Byte) (rA rB : RegId) : (encodeF2 b rA rB).length = 2 := rfl

@[simp] theorem length_encodeF3 (b : Byte) (v : Word) : (encodeF3 b v).length = 9 := rfl

@[simp] theorem length_encodeF4 (b : Byte) (rA rB : RegId) (v : Word) :
    (encodeF4 b rA rB v).length = 10 := rfl

/-- The length of an encoding is 1, 2, 9 or 10 (R90). -/
theorem Instr.length_pos (i : Instr) : 1 ≤ i.length := by
  cases i <;> simp [Instr.length]

/-! ### Fields of a byte string -/

theorem takeRegByte_of_uses {c : IClass} (h : usesRegByte c = true) (rA rB : RegId)
    (rest : List Byte) : takeRegByte c (regByte rA rB :: rest) = some (rA, rB, rest) := by
  simp [takeRegByte, h]

theorem takeRegByte_of_not_uses {c : IClass} (h : usesRegByte c = false) (rest : List Byte) :
    takeRegByte c rest = some (none, none, rest) := by
  simp [takeRegByte, h]

theorem takeValC_of_uses {c : IClass} (h : usesValC c = true) (v : Word) (rest : List Byte) :
    takeValC c (bytesLE v ++ rest) = some (v, rest) := by
  have hv := le64_bytesLE v
  simp only [bytesLE] at hv
  simp [takeValC, h, bytesLE, hv]

theorem takeValC_of_not_uses {c : IClass} (h : usesValC c = false) (rest : List Byte) :
    takeValC c rest = some (0, rest) := by
  simp [takeValC, h]

/-! ### Decoding each format -/

/-- Format F1: byte 0 alone. -/
theorem decode_F1 {b0 : Byte} {c : IClass} {i : Instr} (rest : List Byte)
    (hc : classOfByte0 b0 = some c) (hr : usesRegByte c = false) (hv : usesValC c = false)
    (hi : instrOf c (loNibble b0) none none 0#64 = some i) (hw : i.wellFormed = true) :
    decode (b0 :: rest) = .instr i rest := by
  simp [decode, hc, takeRegByte_of_not_uses hr, takeValC_of_not_uses hv, hi, hw]

/-- Format F2: byte 0 and the register byte. -/
theorem decode_F2 {b0 : Byte} {c : IClass} {i : Instr} (rA rB : RegId) (rest : List Byte)
    (hc : classOfByte0 b0 = some c) (hr : usesRegByte c = true) (hv : usesValC c = false)
    (hi : instrOf c (loNibble b0) rA rB 0#64 = some i) (hw : i.wellFormed = true) :
    decode (encodeF2 b0 rA rB ++ rest) = .instr i rest := by
  simp [encodeF2, decode, hc, takeRegByte_of_uses hr, takeValC_of_not_uses hv, hi, hw]

/-- Format F3: byte 0 and the immediate. -/
theorem decode_F3 {b0 : Byte} {c : IClass} {i : Instr} (v : Word) (rest : List Byte)
    (hc : classOfByte0 b0 = some c) (hr : usesRegByte c = false) (hv : usesValC c = true)
    (hi : instrOf c (loNibble b0) none none v = some i) (hw : i.wellFormed = true) :
    decode (encodeF3 b0 v ++ rest) = .instr i rest := by
  simp [encodeF3, decode, hc, takeRegByte_of_not_uses hr, takeValC_of_uses hv, hi, hw]

/-- Format F4: byte 0, the register byte and the immediate. -/
theorem decode_F4 {b0 : Byte} {c : IClass} {i : Instr} (rA rB : RegId) (v : Word)
    (rest : List Byte) (hc : classOfByte0 b0 = some c) (hr : usesRegByte c = true)
    (hv : usesValC c = true) (hi : instrOf c (loNibble b0) rA rB v = some i)
    (hw : i.wellFormed = true) :
    decode (encodeF4 b0 rA rB v ++ rest) = .instr i rest := by
  simp [encodeF4, decode, hc, takeRegByte_of_uses hr, takeValC_of_uses hv, hi, hw]

/-- What a decoded instruction tells of its bytes: byte 0 is valid and the instruction is the one its
class, ifun and fields make. -/
theorem decode_inv {bs rest : List Byte} {i : Instr} (h : decode bs = .instr i rest) :
    ∃ b0 rest0 c rA rB rest1 valC, bs = b0 :: rest0 ∧ classOfByte0 b0 = some c ∧
      takeRegByte c rest0 = some (rA, rB, rest1) ∧ takeValC c rest1 = some (valC, rest) ∧
      instrOf c (loNibble b0) rA rB valC = some i ∧ i.wellFormed = true := by
  cases bs with
  | nil => simp [decode] at h
  | cons b0 rest0 =>
    simp only [decode] at h
    split at h
    · simp at h
    next c hc =>
    split at h
    · simp at h
    next rA rB rest1 hr =>
    split at h
    · simp at h
    next valC rest2 hv =>
    split at h
    · simp at h
    next j hj =>
    split at h
    · next hw =>
      simp only [Decoded.instr.injEq] at h
      obtain ⟨rfl, rfl⟩ := h
      exact ⟨b0, rest0, c, rA, rB, rest1, valC, rfl, hc, hr, hv, hj, hw⟩
    · simp at h

end Sys2Proof
end

