-- ==== Sys2Proof/Laws/Memory.lean ====
section
/-! SUPPORT. The laws of a byte array: read after write, a write leaves every other byte alone, and
every operation keeps the canonical form and the size. -/

namespace Sys2Proof.Machine

theorem Memory.read_erase (m : Memory) (a b : Nat) :
    (Memory.erase m a).read b = if b = a then Memory.unlisted else m.read b := by
  induction m with
  | nil => simp [Memory.erase, Memory.read]
  | cons c m ih =>
    obtain ⟨k, v⟩ := c
    by_cases hk : k = a
    · subst hk
      simp only [Memory.erase, if_true, ih, Memory.read]
      by_cases hb : b = k
      · simp [hb]
      · simp [hb, Ne.symm hb]
    · simp only [Memory.erase, hk, if_false, Memory.read, ih]
      by_cases hkb : k = b
      · subst hkb; simp [hk]
      · simp [hkb]

theorem Memory.read_insert (m : Memory) (a b : Nat) (v : Byte) (h : m.read a = Memory.unlisted)
    (hn : ∀ c ∈ m, c.1 ≠ a) :
    (Memory.insert m a v).read b = if b = a then v else m.read b := by
  induction m with
  | nil =>
    simp only [Memory.insert, Memory.read]
    by_cases hb : b = a
    · simp [hb]
    · simp [hb, Ne.symm hb]
  | cons c m ih =>
    obtain ⟨k, w⟩ := c
    have hk : k ≠ a := hn (k, w) (by simp)
    simp only [Memory.insert]
    split
    · simp only [Memory.read]
      by_cases hb : b = a
      · simp [hb]
      · simp [hb, Ne.symm hb]
    · have h' : Memory.read m a = Memory.unlisted := by simpa [Memory.read, hk] using h
      simp only [Memory.read, ih h' (fun c hc => hn c (by simp [hc]))]
      by_cases hkb : k = b
      · subst hkb; simp [hk]
      · simp [hkb]

theorem Memory.erase_ne (m : Memory) (a : Nat) : ∀ c ∈ Memory.erase m a, c.1 ≠ a := by
  induction m with
  | nil => simp [Memory.erase]
  | cons c m ih =>
    obtain ⟨k, v⟩ := c
    unfold Memory.erase
    split
    · exact ih
    · intro d hd
      rcases List.mem_cons.mp hd with rfl | hd
      · assumption
      · exact ih d hd

/-- Read after write: the value written at its address, every other byte as before. -/
@[simp] theorem Memory.read_write (m : Memory) (a b : Nat) (v : Byte) :
    (m.write a v).read b = if b = a then v else m.read b := by
  unfold Memory.write
  split
  · next h => rw [Memory.read_erase, h]
  · rw [Memory.read_insert _ _ _ _ (by simp [Memory.read_erase]) (Memory.erase_ne m a),
      Memory.read_erase]
    split <;> simp_all

@[simp] theorem Memory.read_nil (a : Nat) : Memory.read [] a = 0 := rfl

theorem Memory.risingFrom_mono {lo lo' : Nat} (m : Memory) (h : lo' ≤ lo)
    (hm : Memory.risingFrom lo m = true) : Memory.risingFrom lo' m = true := by
  cases m with
  | nil => rfl
  | cons c m =>
    obtain ⟨k, v⟩ := c
    simp only [Memory.risingFrom, Bool.and_eq_true, decide_eq_true_eq] at hm ⊢
    exact ⟨⟨by omega, hm.1.2⟩, hm.2⟩

theorem Memory.risingFrom_erase (m : Memory) (a lo : Nat) (hm : Memory.risingFrom lo m = true) :
    Memory.risingFrom lo (Memory.erase m a) = true := by
  induction m generalizing lo with
  | nil => rfl
  | cons c m ih =>
    obtain ⟨k, v⟩ := c
    simp only [Memory.risingFrom, Bool.and_eq_true, decide_eq_true_eq] at hm
    unfold Memory.erase
    split
    · exact Memory.risingFrom_mono _ (by omega) (ih _ hm.2)
    · simp only [Memory.risingFrom, Bool.and_eq_true, decide_eq_true_eq]
      exact ⟨hm.1, ih _ hm.2⟩

theorem Memory.risingFrom_insert (m : Memory) (a lo : Nat) (v : Byte)
    (hm : Memory.risingFrom lo m = true) (hlo : lo ≤ a) (hv : v ≠ Memory.unlisted)
    (hn : ∀ c ∈ m, c.1 ≠ a) : Memory.risingFrom lo (Memory.insert m a v) = true := by
  induction m generalizing lo with
  | nil => simp [Memory.insert, Memory.risingFrom, hlo, hv]
  | cons c m ih =>
    obtain ⟨k, w⟩ := c
    have hk : k ≠ a := hn (k, w) (by simp)
    simp only [Memory.risingFrom, Bool.and_eq_true, decide_eq_true_eq] at hm
    unfold Memory.insert
    split
    · simp only [Memory.risingFrom, Bool.and_eq_true, decide_eq_true_eq]
      exact ⟨⟨hlo, by simpa using hv⟩, ⟨⟨by omega, hm.1.2⟩, hm.2⟩⟩
    · simp only [Memory.risingFrom, Bool.and_eq_true, decide_eq_true_eq]
      exact ⟨hm.1, ih _ hm.2 (by omega) (fun c hc => hn c (by simp [hc]))⟩

/-- A write keeps the canonical form. -/
theorem Memory.wf_write (m : Memory) (a : Nat) (v : Byte) (hm : m.wf = true) :
    (m.write a v).wf = true := by
  unfold Memory.write Memory.wf
  split
  · exact Memory.risingFrom_erase _ _ _ hm
  · next hv =>
    exact Memory.risingFrom_insert _ _ _ _ (Memory.risingFrom_erase _ _ _ hm) (Nat.zero_le _) hv
      (Memory.erase_ne m a)

theorem Memory.below_erase (m : Memory) (a n : Nat) (hm : m.below n = true) :
    (Memory.erase m a).below n = true := by
  induction m with
  | nil => rfl
  | cons c m ih =>
    obtain ⟨k, v⟩ := c
    simp only [Memory.below, List.all_cons, Bool.and_eq_true] at hm
    unfold Memory.erase
    split
    · exact ih hm.2
    · simp only [Memory.below, List.all_cons, Bool.and_eq_true]
      exact ⟨hm.1, ih hm.2⟩

theorem Memory.below_insert (m : Memory) (a n : Nat) (v : Byte) (hm : m.below n = true)
    (ha : a < n) : (Memory.insert m a v).below n = true := by
  induction m with
  | nil => simp [Memory.insert, Memory.below, ha]
  | cons c m ih =>
    obtain ⟨k, w⟩ := c
    simp only [Memory.below, List.all_cons, Bool.and_eq_true] at hm
    unfold Memory.insert
    split
    · simp only [Memory.below, List.all_cons, Bool.and_eq_true, decide_eq_true_eq]
      exact ⟨ha, by simpa using hm.1, hm.2⟩
    · simp only [Memory.below, List.all_cons, Bool.and_eq_true]
      exact ⟨hm.1, ih hm.2⟩

/-- A write inside the array keeps its size. -/
theorem Memory.below_write (m : Memory) (a n : Nat) (v : Byte) (hm : m.below n = true)
    (ha : a < n) : (m.write a v).below n = true := by
  unfold Memory.write
  split
  · exact Memory.below_erase _ _ _ hm
  · exact Memory.below_insert _ _ _ _ (Memory.below_erase _ _ _ hm) ha

/-- A byte string keeps the canonical form. -/
theorem Memory.wf_writeList (bs : List Byte) (m : Memory) (a : Nat) (hm : m.wf = true) :
    (m.writeList a bs).wf = true := by
  induction bs generalizing m a with
  | nil => exact hm
  | cons b bs ih => exact ih _ _ (Memory.wf_write m a b hm)

/-- A byte string that fits keeps the size. -/
theorem Memory.below_writeList (bs : List Byte) (m : Memory) (a n : Nat) (hm : m.below n = true)
    (h : a + bs.length ≤ n) : (m.writeList a bs).below n = true := by
  induction bs generalizing m a with
  | nil => exact hm
  | cons b bs ih =>
    simp only [List.length_cons] at h
    exact ih _ _ (Memory.below_write m a n b hm (by omega)) (by omega)

/-- Reading after a byte string is written. -/
theorem Memory.read_writeList (bs : List Byte) (m : Memory) (a x : Nat) :
    (m.writeList a bs).read x =
      if a ≤ x ∧ x < a + bs.length then bs.getD (x - a) 0 else m.read x := by
  induction bs generalizing m a with
  | nil =>
    have h : ¬ (a ≤ x ∧ x < a) := by omega
    simp [Memory.writeList, h]
  | cons b bs ih =>
    simp only [Memory.writeList, ih, Memory.read_write, List.length_cons]
    by_cases hx : x = a
    · subst hx
      simp
    · by_cases h : a + 1 ≤ x ∧ x < a + 1 + bs.length
      · have h2 : a ≤ x ∧ x < a + (bs.length + 1) := by omega
        have h3 : x - a = (x - (a + 1)) + 1 := by omega
        rw [if_pos h, if_pos h2, h3]
        simp
      · have h2 : ¬ (a ≤ x ∧ x < a + (bs.length + 1)) := by omega
        rw [if_neg h, if_neg h2, if_neg hx]

end Sys2Proof.Machine
end

