-- ==== Sys2Proof/Laws/State.lean ====
section
/-! SUPPORT. One lemma per field of State and per named update, so that no later proof unfolds a
record update; and the register-file laws. -/

namespace Sys2Proof.Machine

/-! ### The register file -/

/-- Reading a register after writing one. -/
@[simp] theorem RegFile.get_set (f : RegFile) (r q : Reg) (v : Word) :
    (f.set r v).get q = if q = r then v else f.get q := by
  cases r <;> cases q <;> rfl

/-- Writing a register twice keeps the second value. -/
@[simp] theorem RegFile.set_set (f : RegFile) (r : Reg) (v w : Word) :
    (f.set r v).set r w = f.set r w := by
  cases r <;> rfl

/-- Every register of the reset file is 0. -/
@[simp] theorem RegFile.get_reset (r : Reg) : RegFile.reset.get r = 0 := by
  cases r <;> rfl

/-- Two register files that agree on every register are equal. -/
theorem RegFile.ext_get {f g : RegFile} (h : ∀ r, f.get r = g.get r) : f = g := by
  cases f
  cases g
  simp only [RegFile.mk.injEq]
  exact ⟨h .rax, h .rcx, h .rdx, h .rbx, h .rsp, h .rbp, h .rsi, h .rdi, h .r8, h .r9, h .r10,
    h .r11, h .r12, h .r13, h .r14⟩

/-! ### Writing a register -/

@[simp] theorem State.setReg_config (s : State) (r : Reg) (v : Word) :
    (s.setReg r v).config = s.config := rfl

@[simp] theorem State.setReg_regs (s : State) (r : Reg) (v : Word) :
    (s.setReg r v).regs = s.regs.set r v := rfl

@[simp] theorem State.setReg_cc (s : State) (r : Reg) (v : Word) :
    (s.setReg r v).cc = s.cc := rfl

@[simp] theorem State.setReg_stat (s : State) (r : Reg) (v : Word) :
    (s.setReg r v).stat = s.stat := rfl

@[simp] theorem State.setReg_pc (s : State) (r : Reg) (v : Word) :
    (s.setReg r v).pc = s.pc := rfl

@[simp] theorem State.setReg_ram (s : State) (r : Reg) (v : Word) :
    (s.setReg r v).ram = s.ram := rfl

@[simp] theorem State.setReg_ppu (s : State) (r : Reg) (v : Word) :
    (s.setReg r v).ppu = s.ppu := rfl

@[simp] theorem State.setReg_timer (s : State) (r : Reg) (v : Word) :
    (s.setReg r v).timer = s.timer := rfl

@[simp] theorem State.setReg_joystick (s : State) (r : Reg) (v : Word) :
    (s.setReg r v).joystick = s.joystick := rfl

@[simp] theorem State.setReg_inputs (s : State) (r : Reg) (v : Word) :
    (s.setReg r v).inputs = s.inputs := rfl

@[simp] theorem State.setReg_iteration (s : State) (r : Reg) (v : Word) :
    (s.setReg r v).iteration = s.iteration := rfl

/-! ### Raising a status -/

@[simp] theorem State.raise_config (s : State) (n : Stat) :
    (s.raise n).config = s.config := rfl

@[simp] theorem State.raise_regs (s : State) (n : Stat) :
    (s.raise n).regs = s.regs := rfl

@[simp] theorem State.raise_cc (s : State) (n : Stat) :
    (s.raise n).cc = s.cc := rfl

@[simp] theorem State.raise_stat (s : State) (n : Stat) :
    (s.raise n).stat = s.stat.merge n := rfl

@[simp] theorem State.raise_pc (s : State) (n : Stat) :
    (s.raise n).pc = s.pc := rfl

@[simp] theorem State.raise_ram (s : State) (n : Stat) :
    (s.raise n).ram = s.ram := rfl

@[simp] theorem State.raise_ppu (s : State) (n : Stat) :
    (s.raise n).ppu = s.ppu := rfl

@[simp] theorem State.raise_timer (s : State) (n : Stat) :
    (s.raise n).timer = s.timer := rfl

@[simp] theorem State.raise_joystick (s : State) (n : Stat) :
    (s.raise n).joystick = s.joystick := rfl

@[simp] theorem State.raise_inputs (s : State) (n : Stat) :
    (s.raise n).inputs = s.inputs := rfl

@[simp] theorem State.raise_iteration (s : State) (n : Stat) :
    (s.raise n).iteration = s.iteration := rfl

/-! ### Raising a status under a condition -/

@[simp] theorem State.raiseIf_config (s : State) (c : Bool) (n : Stat) :
    (s.raiseIf c n).config = s.config := by
  unfold State.raiseIf; split <;> rfl

@[simp] theorem State.raiseIf_regs (s : State) (c : Bool) (n : Stat) :
    (s.raiseIf c n).regs = s.regs := by
  unfold State.raiseIf; split <;> rfl

@[simp] theorem State.raiseIf_cc (s : State) (c : Bool) (n : Stat) :
    (s.raiseIf c n).cc = s.cc := by
  unfold State.raiseIf; split <;> rfl

@[simp] theorem State.raiseIf_stat (s : State) (c : Bool) (n : Stat) :
    (s.raiseIf c n).stat = if c then s.stat.merge n else s.stat := by
  unfold State.raiseIf; split <;> rfl

@[simp] theorem State.raiseIf_pc (s : State) (c : Bool) (n : Stat) :
    (s.raiseIf c n).pc = s.pc := by
  unfold State.raiseIf; split <;> rfl

@[simp] theorem State.raiseIf_ram (s : State) (c : Bool) (n : Stat) :
    (s.raiseIf c n).ram = s.ram := by
  unfold State.raiseIf; split <;> rfl

@[simp] theorem State.raiseIf_ppu (s : State) (c : Bool) (n : Stat) :
    (s.raiseIf c n).ppu = s.ppu := by
  unfold State.raiseIf; split <;> rfl

@[simp] theorem State.raiseIf_timer (s : State) (c : Bool) (n : Stat) :
    (s.raiseIf c n).timer = s.timer := by
  unfold State.raiseIf; split <;> rfl

@[simp] theorem State.raiseIf_joystick (s : State) (c : Bool) (n : Stat) :
    (s.raiseIf c n).joystick = s.joystick := by
  unfold State.raiseIf; split <;> rfl

@[simp] theorem State.raiseIf_inputs (s : State) (c : Bool) (n : Stat) :
    (s.raiseIf c n).inputs = s.inputs := by
  unfold State.raiseIf; split <;> rfl

@[simp] theorem State.raiseIf_iteration (s : State) (c : Bool) (n : Stat) :
    (s.raiseIf c n).iteration = s.iteration := by
  unfold State.raiseIf; split <;> rfl

/-! ### Writing the flags -/

@[simp] theorem State.writeCC_config (s : State) (f : CC) :
    (s.writeCC f).config = s.config := by
  unfold State.writeCC; split <;> rfl

@[simp] theorem State.writeCC_regs (s : State) (f : CC) :
    (s.writeCC f).regs = s.regs := by
  unfold State.writeCC; split <;> rfl

@[simp] theorem State.writeCC_cc (s : State) (f : CC) :
    (s.writeCC f).cc = if s.stat = .aok then f else s.cc := by
  unfold State.writeCC; split <;> rfl

@[simp] theorem State.writeCC_stat (s : State) (f : CC) :
    (s.writeCC f).stat = s.stat := by
  unfold State.writeCC; split <;> rfl

@[simp] theorem State.writeCC_pc (s : State) (f : CC) :
    (s.writeCC f).pc = s.pc := by
  unfold State.writeCC; split <;> rfl

@[simp] theorem State.writeCC_ram (s : State) (f : CC) :
    (s.writeCC f).ram = s.ram := by
  unfold State.writeCC; split <;> rfl

@[simp] theorem State.writeCC_ppu (s : State) (f : CC) :
    (s.writeCC f).ppu = s.ppu := by
  unfold State.writeCC; split <;> rfl

@[simp] theorem State.writeCC_timer (s : State) (f : CC) :
    (s.writeCC f).timer = s.timer := by
  unfold State.writeCC; split <;> rfl

@[simp] theorem State.writeCC_joystick (s : State) (f : CC) :
    (s.writeCC f).joystick = s.joystick := by
  unfold State.writeCC; split <;> rfl

@[simp] theorem State.writeCC_inputs (s : State) (f : CC) :
    (s.writeCC f).inputs = s.inputs := by
  unfold State.writeCC; split <;> rfl

@[simp] theorem State.writeCC_iteration (s : State) (f : CC) :
    (s.writeCC f).iteration = s.iteration := by
  unfold State.writeCC; split <;> rfl

/-! ### PC update -/

@[simp] theorem State.pcUpdate_config (s : State) (ok : Bool) (t : Word) :
    (s.pcUpdate ok t).config = s.config := by
  unfold State.pcUpdate; split <;> rfl

@[simp] theorem State.pcUpdate_regs (s : State) (ok : Bool) (t : Word) :
    (s.pcUpdate ok t).regs = s.regs := by
  unfold State.pcUpdate; split <;> rfl

@[simp] theorem State.pcUpdate_cc (s : State) (ok : Bool) (t : Word) :
    (s.pcUpdate ok t).cc = s.cc := by
  unfold State.pcUpdate; split <;> rfl

@[simp] theorem State.pcUpdate_stat (s : State) (ok : Bool) (t : Word) :
    (s.pcUpdate ok t).stat = s.stat := by
  unfold State.pcUpdate; split <;> rfl

@[simp] theorem State.pcUpdate_pc (s : State) (ok : Bool) (t : Word) :
    (s.pcUpdate ok t).pc = if ok then t else s.pc := by
  unfold State.pcUpdate; split <;> rfl

@[simp] theorem State.pcUpdate_ram (s : State) (ok : Bool) (t : Word) :
    (s.pcUpdate ok t).ram = s.ram := by
  unfold State.pcUpdate; split <;> rfl

@[simp] theorem State.pcUpdate_ppu (s : State) (ok : Bool) (t : Word) :
    (s.pcUpdate ok t).ppu = s.ppu := by
  unfold State.pcUpdate; split <;> rfl

@[simp] theorem State.pcUpdate_timer (s : State) (ok : Bool) (t : Word) :
    (s.pcUpdate ok t).timer = s.timer := by
  unfold State.pcUpdate; split <;> rfl

@[simp] theorem State.pcUpdate_joystick (s : State) (ok : Bool) (t : Word) :
    (s.pcUpdate ok t).joystick = s.joystick := by
  unfold State.pcUpdate; split <;> rfl

@[simp] theorem State.pcUpdate_inputs (s : State) (ok : Bool) (t : Word) :
    (s.pcUpdate ok t).inputs = s.inputs := by
  unfold State.pcUpdate; split <;> rfl

@[simp] theorem State.pcUpdate_iteration (s : State) (ok : Bool) (t : Word) :
    (s.pcUpdate ok t).iteration = s.iteration := by
  unfold State.pcUpdate; split <;> rfl

/-! ### Reading a register after an update -/

@[simp] theorem State.reg_setReg (s : State) (r q : Reg) (v : Word) :
    (s.setReg r v).reg q = if q = r then v else s.reg q :=
  RegFile.get_set s.regs r q v

@[simp] theorem State.reg_raise (s : State) (n : Stat) (q : Reg) : (s.raise n).reg q = s.reg q := rfl

@[simp] theorem State.reg_raiseIf (s : State) (c : Bool) (n : Stat) (q : Reg) :
    (s.raiseIf c n).reg q = s.reg q := by
  unfold State.raiseIf; split <;> rfl

@[simp] theorem State.reg_writeCC (s : State) (f : CC) (q : Reg) :
    (s.writeCC f).reg q = s.reg q := by
  unfold State.writeCC; split <;> rfl

@[simp] theorem State.reg_pcUpdate (s : State) (ok : Bool) (t : Word) (q : Reg) :
    (s.pcUpdate ok t).reg q = s.reg q := by
  unfold State.pcUpdate; split <;> rfl

/-! ### The status merge -/

@[simp] theorem Stat.merge_aok_left (n : Stat) : Stat.merge .aok n = n := by
  cases n <;> rfl

@[simp] theorem Stat.merge_self (a : Stat) : Stat.merge a a = a := by
  cases a <;> rfl

/-- The merge never lowers the priority. -/
theorem Stat.le_merge (a n : Stat) : a.priority ≤ (Stat.merge a n).priority := by
  cases a <;> cases n <;> decide

/-- The merge is at least as high as the new status. -/
theorem Stat.le_merge_right (a n : Stat) : n.priority ≤ (Stat.merge a n).priority := by
  cases a <;> cases n <;> decide

/-- `if c then raise` in one case each. -/
@[simp] theorem State.raiseIf_false (s : State) (n : Stat) : s.raiseIf false n = s := rfl

@[simp] theorem State.raiseIf_true (s : State) (n : Stat) : s.raiseIf true n = s.raise n := rfl

@[simp] theorem State.pcUpdate_true (s : State) (t : Word) :
    s.pcUpdate true t = { s with pc := t } := rfl

@[simp] theorem State.pcUpdate_false (s : State) (t : Word) : s.pcUpdate false t = s := rfl

/-- A PC update to the PC itself changes nothing. -/
@[simp] theorem State.pcUpdate_self (s : State) (ok : Bool) : s.pcUpdate ok s.pc = s := by
  cases ok <;> rfl

/-- The guard `fetch_ok` where STAT = AOK. -/
theorem State.fetchOk_of_aok {s : State} (h : s.stat = .aok) : s.fetchOk = true := by
  simp [State.fetchOk, h]

end Sys2Proof.Machine
end

