-- ==== Sys2Proof/Laws/Bus.lean ====
section
/-! SUPPORT. The laws of the devices, the bus and the 8-byte accesses: what a write can change, what
is read after it, and that a read depends on nothing else. -/

namespace Sys2Proof.Machine

/-! ### Reads depend on the bus table and the bytes only -/

/-- The parts of a state a bus read depends on. -/
structure SameBus (s t : State) : Prop where
  config : t.config = s.config
  ram : t.ram = s.ram
  ppuConfig : t.ppu.config = s.ppu.config
  timer : t.timer.byte = s.timer.byte
  joystick : t.joystick.byte = s.joystick.byte

theorem SameBus.resolve {s t : State} (h : SameBus s t) (a : Word) : t.resolve a = s.resolve a := by
  simp [State.resolve, h.config]

theorem SameBus.deviceRead {s t : State} (h : SameBus s t) (d : Device) (rel : Nat) :
    t.deviceRead d rel = s.deviceRead d rel := by
  cases d <;> simp [State.deviceRead, h.config, h.ram, h.ppuConfig, h.timer, h.joystick]

theorem SameBus.busRead {s t : State} (h : SameBus s t) (a : Word) : t.busRead a = s.busRead a := by
  simp [State.busRead, h.resolve, h.deviceRead]

theorem SameBus.readBytes {s t : State} (h : SameBus s t) (n : Nat) (a : Word) (miss : Bool) :
    t.readBytes n a miss = s.readBytes n a miss := by
  induction n generalizing a miss with
  | zero => rfl
  | succ n ih => simp [State.readBytes, h.config, h.busRead, ih]

theorem SameBus.memRead {s t : State} (h : SameBus s t) (a : Word) : t.memRead a = s.memRead a := by
  simp [State.memRead, h.readBytes]

theorem SameBus.fetch {s t : State} (h : SameBus s t) (hp : t.pc = s.pc) : t.fetch = s.fetch := by
  simp [State.fetch, hp, h.busRead, h.readBytes]

/-! ### What a write can change: RAM and the PPU configuration region, nothing else -/

/-- `s` with other RAM and PPU configuration contents. -/
def State.withBytes (s : State) (ram config : Memory) : State :=
  { s with ram := ram, ppu := { s.ppu with config := config } }

@[simp] theorem State.withBytes_self (s : State) : s.withBytes s.ram s.ppu.config = s := rfl

@[simp] theorem State.withBytes_withBytes (s : State) (r c r' c' : Memory) :
    (s.withBytes r c).withBytes r' c' = s.withBytes r' c' := rfl

@[simp] theorem State.withBytes_config (s : State) (r c : Memory) :
    (s.withBytes r c).config = s.config := rfl

@[simp] theorem State.withBytes_regs (s : State) (r c : Memory) :
    (s.withBytes r c).regs = s.regs := rfl

@[simp] theorem State.withBytes_reg (s : State) (r c : Memory) (q : Reg) :
    (s.withBytes r c).reg q = s.reg q := rfl

@[simp] theorem State.withBytes_cc (s : State) (r c : Memory) : (s.withBytes r c).cc = s.cc := rfl

@[simp] theorem State.withBytes_stat (s : State) (r c : Memory) :
    (s.withBytes r c).stat = s.stat := rfl

@[simp] theorem State.withBytes_pc (s : State) (r c : Memory) : (s.withBytes r c).pc = s.pc := rfl

@[simp] theorem State.withBytes_ram (s : State) (r c : Memory) : (s.withBytes r c).ram = r := rfl

@[simp] theorem State.withBytes_ppuConfig (s : State) (r c : Memory) :
    (s.withBytes r c).ppu.config = c := rfl

@[simp] theorem State.withBytes_active (s : State) (r c : Memory) :
    (s.withBytes r c).ppu.active = s.ppu.active := rfl

@[simp] theorem State.withBytes_back (s : State) (r c : Memory) :
    (s.withBytes r c).ppu.back = s.ppu.back := rfl

@[simp] theorem State.withBytes_front (s : State) (r c : Memory) :
    (s.withBytes r c).ppu.front = s.ppu.front := rfl

@[simp] theorem State.withBytes_timer (s : State) (r c : Memory) :
    (s.withBytes r c).timer = s.timer := rfl

@[simp] theorem State.withBytes_joystick (s : State) (r c : Memory) :
    (s.withBytes r c).joystick = s.joystick := rfl

@[simp] theorem State.withBytes_inputs (s : State) (r c : Memory) :
    (s.withBytes r c).inputs = s.inputs := rfl

@[simp] theorem State.withBytes_iteration (s : State) (r c : Memory) :
    (s.withBytes r c).iteration = s.iteration := rfl

/-- What a device write can do: change one byte of RAM or of the PPU configuration region, in range,
or nothing. -/
theorem State.deviceWrite_cases {s t : State} {d : Device} {rel : Nat} {b : Byte}
    (h : s.deviceWrite d rel b = some t) :
    (d = .ram ∧ rel < s.config.ramSize ∧ t = s.withBytes (s.ram.write rel b) s.ppu.config) ∨
    (d = .ppu ∧ rel < ppuConfigSize ∧ t = s.withBytes s.ram (s.ppu.config.write rel b)) ∨
    (d ≠ .ram ∧ (d = .ppu → ¬ rel < ppuConfigSize) ∧ t = s) := by
  cases d with
  | ram =>
    simp only [State.deviceWrite] at h
    split at h
    · next hr => exact .inl ⟨rfl, hr, (Option.some.inj h).symm⟩
    · simp at h
  | ppu =>
    simp only [State.deviceWrite, Option.some.injEq] at h
    split at h
    · next hr => exact .inr (.inl ⟨rfl, hr, h.symm⟩)
    · next hr => exact .inr (.inr ⟨by simp, fun _ => hr, h.symm⟩)
  | timer =>
    simp only [State.deviceWrite, Option.some.injEq] at h
    exact .inr (.inr ⟨by simp, by simp, h.symm⟩)
  | joystick =>
    simp only [State.deviceWrite, Option.some.injEq] at h
    exact .inr (.inr ⟨by simp, by simp, h.symm⟩)

/-- A device write of some contents is the same write of the state's own. -/
theorem State.deviceWrite_isSome (s : State) (d : Device) (rel : Nat) (b : Byte) :
    (s.deviceWrite d rel b).isSome = (s.deviceRead d rel).isSome := by
  cases d
  · simp only [State.deviceWrite, State.deviceRead]; split <;> rfl
  · rfl
  · rfl
  · rfl

/-- A bus write misses exactly where a bus read does (R56, R57). -/
theorem State.busWrite_miss (s : State) (a : Word) (b : Byte) :
    (s.busWrite a b).2.miss = (s.busRead a).miss := by
  unfold State.busWrite State.busRead
  cases hr : s.resolve a with
  | none => rfl
  | some l =>
    obtain ⟨d, rel⟩ := l
    have h := s.deviceWrite_isSome d rel b
    cases hw : s.deviceWrite d rel b <;> cases hd : s.deviceRead d rel <;> simp_all

/-- What a bus write can do: change one byte of RAM or of the PPU configuration region, or nothing. -/
theorem State.busWrite_cases (s : State) (a : Word) (b : Byte) :
    (∃ rel, s.resolve a = some (.ram, rel) ∧ rel < s.config.ramSize ∧
      (s.busWrite a b).1 = s.withBytes (s.ram.write rel b) s.ppu.config) ∨
    (∃ rel, s.resolve a = some (.ppu, rel) ∧ rel < ppuConfigSize ∧
      (s.busWrite a b).1 = s.withBytes s.ram (s.ppu.config.write rel b)) ∨
    (s.writable a = false ∧ (s.busWrite a b).1 = s) := by
  unfold State.busWrite State.writable
  cases hr : s.resolve a with
  | none => exact .inr (.inr ⟨rfl, rfl⟩)
  | some l =>
    obtain ⟨d, rel⟩ := l
    cases hw : s.deviceWrite d rel b with
    | none =>
      cases d with
      | ram =>
        simp only [State.deviceWrite] at hw
        split at hw
        · simp at hw
        · next h => exact .inr (.inr ⟨by simpa using h, by simp [State.deviceWrite, h]⟩)
      | ppu => simp [State.deviceWrite] at hw
      | timer => simp [State.deviceWrite] at hw
      | joystick => simp [State.deviceWrite] at hw
    | some t =>
      rcases State.deviceWrite_cases hw with ⟨rfl, h, ht⟩ | ⟨rfl, h, ht⟩ | ⟨h1, h2, ht⟩
      · exact .inl ⟨rel, rfl, h, by simpa [hw] using ht⟩
      · exact .inr (.inl ⟨rel, rfl, h, by simpa [hw] using ht⟩)
      · refine .inr (.inr ⟨?_, by simpa [hw] using ht⟩)
        cases d <;> simp_all

/-- A write through the bus changes RAM and the PPU configuration region only. -/
theorem State.busWrite_withBytes (s : State) (a : Word) (b : Byte) :
    ∃ r c, (s.busWrite a b).1 = s.withBytes r c := by
  rcases s.busWrite_cases a b with ⟨rel, -, -, h⟩ | ⟨rel, -, -, h⟩ | ⟨-, h⟩
  · exact ⟨_, _, h⟩
  · exact ⟨_, _, h⟩
  · exact ⟨s.ram, s.ppu.config, by simpa using h⟩

/-- The byte writes of an access change RAM and the PPU configuration region only. -/
theorem State.writeBytes_withBytes (bs : List Byte) (s : State) (a : Word) (miss : Bool) :
    ∃ r c, (s.writeBytes bs a miss).1 = s.withBytes r c := by
  induction bs generalizing s a miss with
  | nil => exact ⟨s.ram, s.ppu.config, rfl⟩
  | cons b bs ih =>
    simp only [State.writeBytes]
    split
    · exact ih s _ _
    · obtain ⟨r, c, h⟩ := s.busWrite_withBytes a b
      obtain ⟨r', c', h'⟩ := ih (s.busWrite a b).1 (a + 1) (miss || (s.busWrite a b).2.miss)
      exact ⟨r', c', by rw [h', h]; rfl⟩

/-- `MemWrite` changes RAM and the PPU configuration region only. -/
theorem State.memWrite_withBytes (s : State) (a v : Word) :
    ∃ r c, (s.memWrite a v).1 = s.withBytes r c :=
  State.writeBytes_withBytes _ s a false

/-- Nothing but the map says where an address goes. -/
theorem State.resolve_congr {s t : State} (h : t.config = s.config) (a : Word) :
    t.resolve a = s.resolve a := by
  simp [State.resolve, h]

/-! ### Reading after a write -/

/-- A byte at another location reads as before a bus write. -/
theorem State.busRead_busWrite_ne (s : State) (a x : Word) (b : Byte)
    (h : s.resolve a = s.resolve x → s.resolve x = none) :
    (s.busWrite a b).1.busRead x = s.busRead x := by
  rcases s.busWrite_cases a b with ⟨rel, hr, hlt, ht⟩ | ⟨rel, hr, hlt, ht⟩ | ⟨-, ht⟩
  · rw [ht]
    simp only [State.busRead]
    rw [State.resolve_congr (s := s) (by simp)]
    cases hx : s.resolve x with
    | none => rfl
    | some l =>
      obtain ⟨d, rel'⟩ := l
      have hne : ¬ (d = .ram ∧ rel' = rel) := by
        rintro ⟨rfl, rfl⟩
        simp [hr, hx] at h
      have hd : (s.busWrite a b).1.deviceRead d rel' = s.deviceRead d rel' := by
        rw [ht]
        cases d with
        | ram => simp_all [State.deviceRead]
        | ppu | timer | joystick => rfl
      rw [ht] at hd
      simp only [hd]
  · rw [ht]
    simp only [State.busRead]
    rw [State.resolve_congr (s := s) (by simp)]
    cases hx : s.resolve x with
    | none => rfl
    | some l =>
      obtain ⟨d, rel'⟩ := l
      have hne : ¬ (d = .ppu ∧ rel' = rel) := by
        rintro ⟨rfl, rfl⟩
        simp [hr, hx] at h
      have hd : (s.busWrite a b).1.deviceRead d rel' = s.deviceRead d rel' := by
        rw [ht]
        cases d with
        | ppu => simp_all [State.deviceRead]
        | ram | timer | joystick => rfl
      rw [ht] at hd
      simp only [hd]
  · rw [ht]

/-- Whether an address misses does not depend on the bytes. -/
theorem State.miss_withBytes (s : State) (r c : Memory) (x : Word) :
    ((s.withBytes r c).busRead x).miss = (s.busRead x).miss := by
  simp only [State.busRead]
  rw [State.resolve_congr (s := s) (by simp)]
  cases s.resolve x with
  | none => rfl
  | some l =>
    obtain ⟨d, rel⟩ := l
    cases d
    · by_cases h : rel < s.config.ramSize <;> simp [State.deviceRead, h]
    · rfl
    · rfl
    · rfl

/-- A writable byte reads as what was written to it. -/
theorem State.busRead_busWrite_self (s : State) (a : Word) (b : Byte) (h : s.writable a = true) :
    (s.busWrite a b).1.busRead a = ⟨b, false⟩ := by
  rcases s.busWrite_cases a b with ⟨rel, hr, hlt, ht⟩ | ⟨rel, hr, hlt, ht⟩ | ⟨hw, -⟩
  · rw [ht]
    simp only [State.busRead]
    rw [State.resolve_congr (s := s) (by simp), hr]
    simp [State.deviceRead, hlt]
  · rw [ht]
    simp only [State.busRead]
    rw [State.resolve_congr (s := s) (by simp), hr]
    simp [State.deviceRead, hlt]
  · simp [hw] at h

/-- A byte at a location none of the written addresses is routed to reads as before. -/
theorem State.busRead_writeBytes_ne (bs : List Byte) (s : State) (a x : Word) (miss : Bool)
    (h : ∀ k, k < bs.length → s.resolve (a + BitVec.ofNat 64 k) = s.resolve x →
      s.resolve x = none) :
    (s.writeBytes bs a miss).1.busRead x = s.busRead x := by
  induction bs generalizing s a miss with
  | nil => rfl
  | cons b bs ih =>
    have hshift : ∀ k : Nat, a + BitVec.ofNat 64 (k + 1) = a + 1 + BitVec.ofNat 64 k := by
      intro k
      rw [Nat.add_comm k 1, BitVec.ofNat_add, ← BitVec.add_assoc]
      rfl
    simp only [State.writeBytes]
    split
    · refine ih s (a + 1) _ fun k hk hr => ?_
      exact h (k + 1) (by simpa using hk) (by rw [hshift]; exact hr)
    · obtain ⟨r, c, ht⟩ := s.busWrite_withBytes a b
      have hres : ∀ y, (s.busWrite a b).1.resolve y = s.resolve y :=
        fun y => State.resolve_congr (by rw [ht]; rfl) y
      rw [ih (s.busWrite a b).1 (a + 1)]
      · apply State.busRead_busWrite_ne
        have h0 := h 0 (by simp)
        simpa using h0
      · intro k hk hr
        rw [hres, hres] at hr
        rw [hres]
        exact h (k + 1) (by simpa using hk) (by rw [hshift]; exact hr)

/-! ### Reads of several bytes -/

/-- Where no byte misses, the bytes read are the bus's own, and the setting of
`MULTIBYTE_STOP_AT_MISS` does not matter. -/
theorem State.readBytes_of_mapped (n : Nat) (s : State) (a : Word)
    (h : ∀ k, k < n → (s.busRead (a + BitVec.ofNat 64 k)).miss = false) :
    s.readBytes n a false =
      ((List.range n).map fun k => (s.busRead (a + BitVec.ofNat 64 k)).data, false) := by
  induction n generalizing a with
  | zero => rfl
  | succ n ih =>
    have hshift : ∀ k : Nat, a + BitVec.ofNat 64 (k + 1) = a + 1 + BitVec.ofNat 64 k := by
      intro k
      rw [Nat.add_comm k 1, BitVec.ofNat_add, ← BitVec.add_assoc]
      rfl
    have h0 : (s.busRead a).miss = false := by simpa using h 0 (by simp)
    have ih' := ih (a + 1) fun k hk => by
      rw [← hshift]
      exact h (k + 1) (by omega)
    simp only [State.readBytes, Bool.and_false, Bool.false_eq_true, if_false, h0, Bool.or_false, ih',
      List.range_succ_eq_map, List.map_cons, List.map_map, Prod.mk.injEq, List.cons.injEq, and_true]
    refine ⟨by simp, ?_⟩
    apply List.map_congr_left
    intro k _
    simp only [Function.comp_apply, Nat.succ_eq_add_one, hshift]

/-- Where no byte misses, no byte of a write misses. -/
theorem State.writeBytes_miss_of_mapped (bs : List Byte) (s : State) (a : Word)
    (h : ∀ k, k < bs.length → (s.busRead (a + BitVec.ofNat 64 k)).miss = false) :
    (s.writeBytes bs a false).2 = false := by
  induction bs generalizing s a with
  | nil => rfl
  | cons b bs ih =>
    have hshift : ∀ k : Nat, a + BitVec.ofNat 64 (k + 1) = a + 1 + BitVec.ofNat 64 k := by
      intro k
      rw [Nat.add_comm k 1, BitVec.ofNat_add, ← BitVec.add_assoc]
      rfl
    have h0 : (s.busWrite a b).2.miss = false := by
      rw [State.busWrite_miss]
      simpa using h 0 (by simp)
    simp only [State.writeBytes, Bool.and_false, Bool.false_eq_true, if_false, h0, Bool.or_false]
    obtain ⟨r, c, ht⟩ := s.busWrite_withBytes a b
    apply ih
    intro k hk
    rw [ht, State.miss_withBytes, ← hshift]
    exact h (k + 1) (by simpa using hk)

/-- The eight addresses of an access, one by one. -/
theorem State.mapped8_iff (s : State) (a : Word) :
    s.mapped8 a = true ↔ ∀ k, k < 8 → (s.busRead (a + BitVec.ofNat 64 k)).miss = false := by
  simp only [State.mapped8, eightAddresses, State.mapped, List.all_cons, List.all_nil,
    Bool.and_true, Bool.and_eq_true, Bool.not_eq_true']
  constructor
  · rintro ⟨h0, h1, h2, h3, h4, h5, h6, h7⟩ k hk
    interval_cases k <;> simpa using by assumption
  · intro h
    exact ⟨by simpa using h 0 (by omega), h 1 (by omega), h 2 (by omega), h 3 (by omega),
      h 4 (by omega), h 5 (by omega), h 6 (by omega), h 7 (by omega)⟩

/-- A mapped 8-byte read does not miss. -/
theorem State.memRead_of_mapped8 {s : State} {a : Word} (h : s.mapped8 a = true) :
    s.memRead a =
      (le64 ((List.range 8).map fun k => (s.busRead (a + BitVec.ofNat 64 k)).data), false) := by
  simp only [State.memRead, State.readBytes_of_mapped 8 s a ((s.mapped8_iff a).mp h)]

/-- A mapped 8-byte write does not miss. -/
theorem State.memWrite_of_mapped8 {s : State} {a : Word} (h : s.mapped8 a = true) (v : Word) :
    (s.memWrite a v).2 = false :=
  State.writeBytes_miss_of_mapped _ s a ((s.mapped8_iff a).mp h)

/-! ### Whether an access misses -/

/-- Whether a byte of a read misses, whatever `MULTIBYTE_STOP_AT_MISS` is. -/
theorem State.readBytes_miss (n : Nat) (s : State) (a : Word) (miss : Bool) :
    (s.readBytes n a miss).2 =
      (miss || (List.range n).any fun k => (s.busRead (a + BitVec.ofNat 64 k)).miss) := by
  induction n generalizing a miss with
  | zero => simp [State.readBytes]
  | succ n ih =>
    have hshift : ∀ k : Nat, a + BitVec.ofNat 64 (k + 1) = a + 1 + BitVec.ofNat 64 k := by
      intro k
      rw [Nat.add_comm k 1, BitVec.ofNat_add, ← BitVec.add_assoc]
      rfl
    simp only [State.readBytes, List.range_succ_eq_map, List.any_cons, List.any_map]
    have hf : ((fun k => (s.busRead (a + BitVec.ofNat 64 k)).miss) ∘ Nat.succ) =
        fun k => (s.busRead (a + 1 + BitVec.ofNat 64 k)).miss := by
      funext k
      simp only [Function.comp_apply, Nat.succ_eq_add_one, hshift]
    rw [hf]
    split
    · next h =>
      simp only [Bool.and_eq_true] at h
      simp [ih, h.2]
    · simp [ih, Bool.or_assoc]

/-- Whether a byte of a write misses, whatever `MULTIBYTE_STOP_AT_MISS` is. -/
theorem State.writeBytes_miss (bs : List Byte) (s : State) (a : Word) (miss : Bool) :
    (s.writeBytes bs a miss).2 =
      (miss || (List.range bs.length).any fun k => (s.busRead (a + BitVec.ofNat 64 k)).miss) := by
  induction bs generalizing s a miss with
  | nil => simp [State.writeBytes]
  | cons b bs ih =>
    have hshift : ∀ k : Nat, a + BitVec.ofNat 64 (k + 1) = a + 1 + BitVec.ofNat 64 k := by
      intro k
      rw [Nat.add_comm k 1, BitVec.ofNat_add, ← BitVec.add_assoc]
      rfl
    simp only [State.writeBytes, List.length_cons, List.range_succ_eq_map, List.any_cons,
      List.any_map]
    have hf : ((fun k => (s.busRead (a + BitVec.ofNat 64 k)).miss) ∘ Nat.succ) =
        fun k => (s.busRead (a + 1 + BitVec.ofNat 64 k)).miss := by
      funext k
      simp only [Function.comp_apply, Nat.succ_eq_add_one, hshift]
    rw [hf]
    obtain ⟨r, c, ht⟩ := s.busWrite_withBytes a b
    split
    · next h =>
      simp only [Bool.and_eq_true] at h
      simp [ih, h.2]
    · simp [ih, ht, State.miss_withBytes, State.busWrite_miss, Bool.or_assoc]

/-- An 8-byte access misses iff one of its eight addresses does. -/
theorem State.any_miss_eq (s : State) (a : Word) :
    ((List.range 8).any fun k => (s.busRead (a + BitVec.ofNat 64 k)).miss) = !s.mapped8 a := by
  rw [Bool.eq_iff_iff, Bool.not_eq_true', ← Bool.not_eq_true, s.mapped8_iff]
  simp

/-- `MemRead` misses iff one of the eight addresses does (R70). -/
theorem State.memRead_miss (s : State) (a : Word) : (s.memRead a).2 = !s.mapped8 a := by
  simp only [State.memRead, State.readBytes_miss, Bool.false_or, State.any_miss_eq]

/-- `MemWrite` misses iff one of the eight addresses does (R71). -/
theorem State.memWrite_miss (s : State) (a v : Word) : (s.memWrite a v).2 = !s.mapped8 a := by
  simp only [State.memWrite, State.writeBytes_miss, Bool.false_or, length_bytesLE,
    State.any_miss_eq]

/-! ### The memory stage -/

/-- Everything a store can do: on eight mapped addresses the bytes are written, otherwise ADR is
raised as well. -/
theorem State.storeStage_eq (s : State) (a v : Word) :
    s.storeStage a v =
      (if s.mapped8 a then (s.memWrite a v).1 else (s.memWrite a v).1.raise .adr, s.mapped8 a) := by
  simp only [State.storeStage, State.memWrite_miss, Bool.not_not]
  cases s.mapped8 a <;> simp

/-- Everything a load can do: on eight mapped addresses the word is answered, otherwise ADR is raised
as well. -/
theorem State.loadStage_eq (s : State) (a : Word) :
    s.loadStage a =
      (if s.mapped8 a then s else s.raise .adr, (s.memRead a).1, s.mapped8 a) := by
  simp only [State.loadStage, State.memRead_miss, Bool.not_not]
  cases s.mapped8 a <;> simp

/-- A store changes RAM, the PPU configuration region and STAT only. -/
theorem State.storeStage_withBytes (s : State) (a v : Word) :
    ∃ r c n, (s.storeStage a v).1 = { s.withBytes r c with stat := s.stat.merge n } := by
  obtain ⟨r, c, h⟩ := s.memWrite_withBytes a v
  rw [State.storeStage_eq]
  cases s.mapped8 a
  · exact ⟨r, c, .adr, by simp [h, State.raise]⟩
  · refine ⟨r, c, .aok, ?_⟩
    have : s.stat.merge .aok = s.stat := by cases s.stat <;> rfl
    simp [h, this, State.withBytes]

end Sys2Proof.Machine
end

