-- ==== Sys2Proof/Laws/Devices.lean ====
section
/-! SUPPORT. What the device updates leave alone: one lemma per field. -/

namespace Sys2Proof.Machine

@[simp] theorem State.ppuUpdate_config (s : State) :
    (s.ppuUpdate).config = s.config := rfl

@[simp] theorem State.ppuUpdate_regs (s : State) :
    (s.ppuUpdate).regs = s.regs := rfl

@[simp] theorem State.ppuUpdate_cc (s : State) :
    (s.ppuUpdate).cc = s.cc := rfl

@[simp] theorem State.ppuUpdate_stat (s : State) :
    (s.ppuUpdate).stat = s.stat := rfl

@[simp] theorem State.ppuUpdate_pc (s : State) :
    (s.ppuUpdate).pc = s.pc := rfl

@[simp] theorem State.ppuUpdate_ram (s : State) :
    (s.ppuUpdate).ram = s.ram := rfl

@[simp] theorem State.ppuUpdate_timer (s : State) :
    (s.ppuUpdate).timer = s.timer := rfl

@[simp] theorem State.ppuUpdate_joystick (s : State) :
    (s.ppuUpdate).joystick = s.joystick := rfl

@[simp] theorem State.ppuUpdate_inputs (s : State) :
    (s.ppuUpdate).inputs = s.inputs := rfl

@[simp] theorem State.ppuUpdate_iteration (s : State) :
    (s.ppuUpdate).iteration = s.iteration := rfl

@[simp] theorem State.joystickUpdate_config (s : State) (b : Buttons) :
    (s.joystickUpdate b).config = s.config := rfl

@[simp] theorem State.joystickUpdate_regs (s : State) (b : Buttons) :
    (s.joystickUpdate b).regs = s.regs := rfl

@[simp] theorem State.joystickUpdate_cc (s : State) (b : Buttons) :
    (s.joystickUpdate b).cc = s.cc := rfl

@[simp] theorem State.joystickUpdate_stat (s : State) (b : Buttons) :
    (s.joystickUpdate b).stat = s.stat := rfl

@[simp] theorem State.joystickUpdate_pc (s : State) (b : Buttons) :
    (s.joystickUpdate b).pc = s.pc := rfl

@[simp] theorem State.joystickUpdate_ram (s : State) (b : Buttons) :
    (s.joystickUpdate b).ram = s.ram := rfl

@[simp] theorem State.joystickUpdate_ppu (s : State) (b : Buttons) :
    (s.joystickUpdate b).ppu = s.ppu := rfl

@[simp] theorem State.joystickUpdate_timer (s : State) (b : Buttons) :
    (s.joystickUpdate b).timer = s.timer := rfl

@[simp] theorem State.joystickUpdate_inputs (s : State) (b : Buttons) :
    (s.joystickUpdate b).inputs = s.inputs := rfl

@[simp] theorem State.joystickUpdate_iteration (s : State) (b : Buttons) :
    (s.joystickUpdate b).iteration = s.iteration := rfl

@[simp] theorem State.timerUpdate_config (s : State) (d : Nat) :
    (s.timerUpdate d).config = s.config := rfl

@[simp] theorem State.timerUpdate_regs (s : State) (d : Nat) :
    (s.timerUpdate d).regs = s.regs := rfl

@[simp] theorem State.timerUpdate_cc (s : State) (d : Nat) :
    (s.timerUpdate d).cc = s.cc := rfl

@[simp] theorem State.timerUpdate_stat (s : State) (d : Nat) :
    (s.timerUpdate d).stat = s.stat := rfl

@[simp] theorem State.timerUpdate_pc (s : State) (d : Nat) :
    (s.timerUpdate d).pc = s.pc := rfl

@[simp] theorem State.timerUpdate_ram (s : State) (d : Nat) :
    (s.timerUpdate d).ram = s.ram := rfl

@[simp] theorem State.timerUpdate_ppu (s : State) (d : Nat) :
    (s.timerUpdate d).ppu = s.ppu := rfl

@[simp] theorem State.timerUpdate_joystick (s : State) (d : Nat) :
    (s.timerUpdate d).joystick = s.joystick := rfl

@[simp] theorem State.timerUpdate_inputs (s : State) (d : Nat) :
    (s.timerUpdate d).inputs = s.inputs := rfl

@[simp] theorem State.timerUpdate_iteration (s : State) (d : Nat) :
    (s.timerUpdate d).iteration = s.iteration := rfl

@[simp] theorem State.ppuUpdate_ppuConfig (s : State) :
    s.ppuUpdate.ppu.config = s.ppu.config := rfl

@[simp] theorem State.ppuUpdate_active (s : State) :
    s.ppuUpdate.ppu.active = parseSprites s.ppu.config := rfl

/-- Presenting leaves the front buffer equal to the back buffer (60_exceptions.md R281). -/
@[simp] theorem present_eq (back front : Memory) : present back front = back := by
  unfold present
  split
  · next h => exact h.symm
  · rfl

@[simp] theorem State.ppuUpdate_back (s : State) :
    s.ppuUpdate.ppu.back = s.compose (parseSprites s.ppu.config) := rfl

@[simp] theorem State.ppuUpdate_front (s : State) :
    s.ppuUpdate.ppu.front = s.compose (parseSprites s.ppu.config) := by
  simp [State.ppuUpdate]

/-- A bitmap pixel is on iff the bus answers the byte that holds its bit, and the bit is 1
(60_exceptions.md R278, R279). -/
theorem State.bitmapOn_iff (s : State) (p : Sprite) (row col : Nat) :
    s.bitmapOn p row col = true ↔
      (s.busRead (p.addr + BitVec.ofNat 64 ((row * p.width.toNat + col) / 8))).miss = false ∧
      (s.busRead (p.addr + BitVec.ofNat 64 ((row * p.width.toNat + col) / 8))).data.getLsbD
        ((row * p.width.toNat + col) % 8) = true := by
  simp [State.bitmapOn]

/-- The bus answers as before a PPU update. -/
theorem State.ppuUpdate_sameBus (s : State) : SameBus s s.ppuUpdate := ⟨rfl, rfl, rfl, rfl, rfl⟩


@[simp] theorem State.updateDevices_config (s : State) :
    s.updateDevices.config = s.config := rfl

@[simp] theorem State.updateDevices_regs (s : State) :
    s.updateDevices.regs = s.regs := rfl

@[simp] theorem State.updateDevices_cc (s : State) :
    s.updateDevices.cc = s.cc := rfl

@[simp] theorem State.updateDevices_stat (s : State) :
    s.updateDevices.stat = s.stat := rfl

@[simp] theorem State.updateDevices_pc (s : State) :
    s.updateDevices.pc = s.pc := rfl

@[simp] theorem State.updateDevices_ram (s : State) :
    s.updateDevices.ram = s.ram := rfl

@[simp] theorem State.updateDevices_iteration (s : State) :
    s.updateDevices.iteration = s.iteration := rfl

@[simp] theorem State.endIteration_config (s : State) :
    s.endIteration.config = s.config := by
  unfold State.endIteration; split <;> rfl

@[simp] theorem State.endIteration_regs (s : State) :
    s.endIteration.regs = s.regs := by
  unfold State.endIteration; split <;> rfl

@[simp] theorem State.endIteration_cc (s : State) :
    s.endIteration.cc = s.cc := by
  unfold State.endIteration; split <;> rfl

@[simp] theorem State.endIteration_stat (s : State) :
    s.endIteration.stat = s.stat := by
  unfold State.endIteration; split <;> rfl

@[simp] theorem State.endIteration_pc (s : State) :
    s.endIteration.pc = s.pc := by
  unfold State.endIteration; split <;> rfl

@[simp] theorem State.endIteration_ram (s : State) :
    s.endIteration.ram = s.ram := by
  unfold State.endIteration; split <;> rfl

@[simp] theorem State.endIteration_iteration (s : State) :
    s.endIteration.iteration = s.iteration + 1 := by
  unfold State.endIteration; split <;> rfl

@[simp] theorem State.endIteration_ppuConfig (s : State) :
    s.endIteration.ppu.config = s.ppu.config := by
  unfold State.endIteration; split <;> rfl

end Sys2Proof.Machine
end

