-- ==== Sys2Proof/Laws/Exec.lean ====
section
/-! SUPPORT. What an instruction can do to the state as a whole, said once: it rewrites the CPU's own
fields and the bytes of RAM and of the PPU configuration region, merges a status, and touches
nothing else. -/

namespace Sys2Proof.Machine

/-- `s` with other CPU fields and other RAM and PPU configuration bytes. -/
def State.cpuUpdate (s : State) (regs : RegFile) (cc : CC) (stat : Stat) (pc : Word)
    (ram config : Memory) : State :=
  { s.withBytes ram config with regs := regs, cc := cc, stat := stat, pc := pc }

/-- `t` is `s` with other CPU fields and bytes, a status having been merged. -/
def CpuStep (s t : State) : Prop :=
  ∃ f cc n pc r c, t = s.cpuUpdate f cc (s.stat.merge n) pc r c

theorem Stat.merge_aok_right (a : Stat) : Stat.merge a .aok = a := by
  cases a <;> rfl

theorem Stat.merge_assoc_exists (a n m : Stat) :
    ∃ k, Stat.merge (Stat.merge a n) m = Stat.merge a k := by
  cases a <;> cases n <;> cases m <;> first
    | exact ⟨.aok, rfl⟩
    | exact ⟨.ins, rfl⟩
    | exact ⟨.adr, rfl⟩
    | exact ⟨.hlt, rfl⟩

theorem CpuStep.refl (s : State) : CpuStep s s :=
  ⟨s.regs, s.cc, .aok, s.pc, s.ram, s.ppu.config, by
    simp [State.cpuUpdate, Stat.merge_aok_right, State.withBytes]⟩

theorem CpuStep.trans {s t u : State} (h : CpuStep s t) (h' : CpuStep t u) : CpuStep s u := by
  obtain ⟨f, cc, n, pc, r, c, rfl⟩ := h
  obtain ⟨f', cc', n', pc', r', c', rfl⟩ := h'
  obtain ⟨k, hk⟩ := Stat.merge_assoc_exists s.stat n n'
  exact ⟨f', cc', k, pc', r', c', by rw [← hk]; rfl⟩

theorem CpuStep.setReg {s t : State} (h : CpuStep s t) (r : Reg) (v : Word) :
    CpuStep s (t.setReg r v) :=
  h.trans ⟨t.regs.set r v, t.cc, .aok, t.pc, t.ram, t.ppu.config, by
    simp [State.cpuUpdate, Stat.merge_aok_right, State.withBytes, State.setReg]⟩

theorem CpuStep.raise {s t : State} (h : CpuStep s t) (n : Stat) : CpuStep s (t.raise n) :=
  h.trans ⟨t.regs, t.cc, n, t.pc, t.ram, t.ppu.config, rfl⟩

theorem CpuStep.raiseIf {s t : State} (h : CpuStep s t) (c : Bool) (n : Stat) :
    CpuStep s (t.raiseIf c n) := by
  cases c
  · exact h
  · exact h.raise n

theorem CpuStep.setPc {s t : State} (h : CpuStep s t) (pc : Word) :
    CpuStep s { t with pc := pc } :=
  h.trans ⟨t.regs, t.cc, .aok, pc, t.ram, t.ppu.config, by
    simp [State.cpuUpdate, Stat.merge_aok_right, State.withBytes]⟩

theorem CpuStep.pcUpdate {s t : State} (h : CpuStep s t) (ok : Bool) (pc : Word) :
    CpuStep s (t.pcUpdate ok pc) := by
  cases ok
  · exact h
  · exact h.setPc pc

theorem CpuStep.writeCC {s t : State} (h : CpuStep s t) (cc : CC) : CpuStep s (t.writeCC cc) := by
  unfold State.writeCC
  split
  · exact h.trans ⟨t.regs, cc, .aok, t.pc, t.ram, t.ppu.config, by
      simp [State.cpuUpdate, Stat.merge_aok_right, State.withBytes]⟩
  · exact h

theorem CpuStep.memWrite (s : State) (a v : Word) : CpuStep s (s.memWrite a v).1 := by
  obtain ⟨r, c, h⟩ := s.memWrite_withBytes a v
  exact ⟨s.regs, s.cc, .aok, s.pc, r, c, by
    rw [h]; simp [State.cpuUpdate, Stat.merge_aok_right, State.withBytes]⟩

theorem CpuStep.storeStage (s : State) (a v : Word) : CpuStep s (s.storeStage a v).1 := by
  rw [State.storeStage_eq]
  cases s.mapped8 a
  · exact (CpuStep.memWrite s a v).raise .adr
  · exact CpuStep.memWrite s a v

theorem CpuStep.loadStage (s : State) (a : Word) : CpuStep s (s.loadStage a).1 := by
  rw [State.loadStage_eq]
  cases s.mapped8 a
  · exact (CpuStep.refl s).raise .adr
  · exact CpuStep.refl s

theorem CpuStep.cmov (c : Cond) (rA rB : RegId) (s : State) : CpuStep s (cmov c rA rB s) := by
  rcases rA with _ | a <;> rcases rB with _ | b
  · exact (CpuStep.refl s).raise _
  · exact (CpuStep.refl s).raise _
  · exact (CpuStep.refl s).raise _
  · unfold Machine.cmov
    apply CpuStep.pcUpdate
    split
    · exact (CpuStep.refl s).setReg _ _
    · exact CpuStep.refl s

theorem CpuStep.opq (op : AluOp) (rA rB : RegId) (s : State) : CpuStep s (opq op rA rB s) := by
  rcases rA with _ | a <;> rcases rB with _ | b
  · exact (CpuStep.refl s).raise _
  · exact (CpuStep.refl s).raise _
  · exact (CpuStep.refl s).raise _
  · exact (((CpuStep.refl s).writeCC _).setReg _ _).pcUpdate _ _

theorem CpuStep.jcc (c : Cond) (dest : Word) (s : State) : CpuStep s (jcc c dest s) :=
  (CpuStep.refl s).pcUpdate _ _

/-- Every instruction answers a next state, and it is a CPU step away. -/
theorem exec_cpuStep (i : Instr) (s : State) : ∃ t, exec i s = .next t ∧ CpuStep s t := by
  cases i with
  | halt => exact ⟨_, rfl, ((CpuStep.refl s).raise _).pcUpdate _ _⟩
  | nop => exact ⟨_, rfl, (CpuStep.refl s).pcUpdate _ _⟩
  | rrmovq rA rB => exact ⟨_, rfl, CpuStep.cmov _ _ _ s⟩
  | cmovle rA rB => exact ⟨_, rfl, CpuStep.cmov _ _ _ s⟩
  | cmovl rA rB => exact ⟨_, rfl, CpuStep.cmov _ _ _ s⟩
  | cmove rA rB => exact ⟨_, rfl, CpuStep.cmov _ _ _ s⟩
  | cmovne rA rB => exact ⟨_, rfl, CpuStep.cmov _ _ _ s⟩
  | cmovge rA rB => exact ⟨_, rfl, CpuStep.cmov _ _ _ s⟩
  | cmovg rA rB => exact ⟨_, rfl, CpuStep.cmov _ _ _ s⟩
  | irmovq rA rB v =>
    rcases rB with _ | b
    · exact ⟨_, rfl, (CpuStep.refl s).raise _⟩
    · by_cases h : s.unusedOk rA = true
      · exact ⟨_, by simp only [exec, execIrmovq, h, if_true]; rfl,
          ((CpuStep.refl s).setReg _ _).pcUpdate _ _⟩
      · exact ⟨_, by simp only [exec, execIrmovq, h, Bool.false_eq_true, if_false]; rfl,
          (CpuStep.refl s).raise _⟩
  | rmmovq rA rB d =>
    rcases rA with _ | a <;> rcases rB with _ | b
    · exact ⟨_, rfl, (CpuStep.refl s).raise _⟩
    · exact ⟨_, rfl, (CpuStep.refl s).raise _⟩
    · exact ⟨_, rfl, (CpuStep.refl s).raise _⟩
    · exact ⟨_, rfl, (CpuStep.storeStage s _ _).pcUpdate _ _⟩
  | mrmovq rA rB d =>
    rcases rA with _ | a <;> rcases rB with _ | b
    · exact ⟨_, rfl, (CpuStep.refl s).raise _⟩
    · exact ⟨_, rfl, (CpuStep.refl s).raise _⟩
    · exact ⟨_, rfl, (CpuStep.refl s).raise _⟩
    · exact ⟨_, rfl, ((CpuStep.loadStage s _).setReg _ _).pcUpdate _ _⟩
  | addq rA rB => exact ⟨_, rfl, CpuStep.opq _ _ _ s⟩
  | subq rA rB => exact ⟨_, rfl, CpuStep.opq _ _ _ s⟩
  | andq rA rB => exact ⟨_, rfl, CpuStep.opq _ _ _ s⟩
  | xorq rA rB => exact ⟨_, rfl, CpuStep.opq _ _ _ s⟩
  | jmp dest => exact ⟨_, rfl, CpuStep.jcc _ _ s⟩
  | jle dest => exact ⟨_, rfl, CpuStep.jcc _ _ s⟩
  | jl dest => exact ⟨_, rfl, CpuStep.jcc _ _ s⟩
  | je dest => exact ⟨_, rfl, CpuStep.jcc _ _ s⟩
  | jne dest => exact ⟨_, rfl, CpuStep.jcc _ _ s⟩
  | jge dest => exact ⟨_, rfl, CpuStep.jcc _ _ s⟩
  | jg dest => exact ⟨_, rfl, CpuStep.jcc _ _ s⟩
  | call dest => exact ⟨_, rfl, ((CpuStep.storeStage s _ _).setReg _ _).pcUpdate _ _⟩
  | ret => exact ⟨_, rfl, ((CpuStep.loadStage s _).setReg _ _).pcUpdate _ _⟩
  | pushq rA rB =>
    rcases rA with _ | a
    · exact ⟨_, rfl, (CpuStep.refl s).raise _⟩
    · by_cases h : s.unusedOk rB = true
      · exact ⟨_, by simp only [exec, execPushq, h, if_true]; rfl,
          ((CpuStep.storeStage s _ _).setReg _ _).pcUpdate _ _⟩
      · exact ⟨_, by simp only [exec, execPushq, h, Bool.false_eq_true, if_false]; rfl,
          (CpuStep.refl s).raise _⟩
  | popq rA rB =>
    rcases rA with _ | a
    · exact ⟨_, rfl, (CpuStep.refl s).raise _⟩
    · by_cases h : s.unusedOk rB = true
      · exact ⟨_, by simp only [exec, execPopq, h, if_true]; rfl,
          (((CpuStep.loadStage s _).setReg _ _).setReg _ _).pcUpdate _ _⟩
      · exact ⟨_, by simp only [exec, execPopq, h, Bool.false_eq_true, if_false]; rfl,
          (CpuStep.refl s).raise _⟩
  | iaddq rA rB v =>
    rcases rB with _ | b
    · exact ⟨_, rfl, (CpuStep.refl s).raise _⟩
    · by_cases h : s.unusedOk rA = true
      · exact ⟨_, by simp only [exec, execIaddq, h, if_true]; rfl,
          (((CpuStep.refl s).writeCC _).setReg _ _).pcUpdate _ _⟩
      · exact ⟨_, by simp only [exec, execIaddq, h, Bool.false_eq_true, if_false]; rfl,
          (CpuStep.refl s).raise _⟩

/-! ### RAM and the PPU configuration region stay canonical and within their sizes -/

/-- The two byte arrays the bus writes are canonical and within their sizes. -/
def State.bytesFit (s : State) : Prop :=
  Memory.fits s.ram s.config.ramSize = true ∧ Memory.fits s.ppu.config ppuConfigSize = true

theorem Memory.fits_write {m : Memory} {n a : Nat} (v : Byte) (h : Memory.fits m n = true)
    (ha : a < n) : Memory.fits (m.write a v) n = true := by
  simp only [Memory.fits, Bool.and_eq_true] at h ⊢
  exact ⟨Memory.wf_write m a v h.1, Memory.below_write m a n v h.2 ha⟩

theorem State.bytesFit_busWrite {s : State} (h : s.bytesFit) (a : Word) (b : Byte) :
    (s.busWrite a b).1.bytesFit := by
  rcases s.busWrite_cases a b with ⟨rel, -, hlt, ht⟩ | ⟨rel, -, hlt, ht⟩ | ⟨-, ht⟩
  · rw [ht]
    exact ⟨Memory.fits_write b h.1 hlt, h.2⟩
  · rw [ht]
    exact ⟨h.1, Memory.fits_write b h.2 hlt⟩
  · rw [ht]
    exact h

theorem State.bytesFit_writeBytes (bs : List Byte) {s : State} (h : s.bytesFit) (a : Word)
    (miss : Bool) : (s.writeBytes bs a miss).1.bytesFit := by
  induction bs generalizing s a miss with
  | nil => exact h
  | cons b bs ih =>
    simp only [State.writeBytes]
    split
    · exact ih h _ _
    · exact ih (State.bytesFit_busWrite h a b) _ _

/-- `MemWrite` keeps the canonical form and the sizes. -/
theorem State.bytesFit_memWrite {s : State} (h : s.bytesFit) (a v : Word) :
    (s.memWrite a v).1.bytesFit :=
  State.bytesFit_writeBytes _ h a false

end Sys2Proof.Machine
end

