-- ==== Sys2Proof/Laws/PerInstr.lean ====
section
/-! SUPPORT. Statements about every instruction as syntax, made per constructor: the length of an
encoding, and the class its first byte tells. -/

namespace Sys2Proof.Laws.EncodeLength

/-- The encoding of an instruction has the instruction's length, which is 1, 2, 9 or 10 bytes
(30_encoding.md R90, R96). -/
def Statement (i : Instr) : Prop :=
  (encode i).length = i.length ∧ (i.length = 1 ∨ i.length = 2 ∨ i.length = 9 ∨ i.length = 10)

theorem halt : Statement .halt := ⟨rfl, by decide⟩

theorem nop : Statement .nop := ⟨rfl, by decide⟩

theorem rrmovq (rA : RegId) (rB : RegId) : Statement (.rrmovq rA rB) :=
  ⟨rfl, by simp [Instr.length]⟩

theorem cmovle (rA : RegId) (rB : RegId) : Statement (.cmovle rA rB) :=
  ⟨rfl, by simp [Instr.length]⟩

theorem cmovl (rA : RegId) (rB : RegId) : Statement (.cmovl rA rB) :=
  ⟨rfl, by simp [Instr.length]⟩

theorem cmove (rA : RegId) (rB : RegId) : Statement (.cmove rA rB) :=
  ⟨rfl, by simp [Instr.length]⟩

theorem cmovne (rA : RegId) (rB : RegId) : Statement (.cmovne rA rB) :=
  ⟨rfl, by simp [Instr.length]⟩

theorem cmovge (rA : RegId) (rB : RegId) : Statement (.cmovge rA rB) :=
  ⟨rfl, by simp [Instr.length]⟩

theorem cmovg (rA : RegId) (rB : RegId) : Statement (.cmovg rA rB) :=
  ⟨rfl, by simp [Instr.length]⟩

theorem irmovq (rA : RegId) (rB : RegId) (valC : Word) : Statement (.irmovq rA rB valC) :=
  ⟨rfl, by simp [Instr.length]⟩

theorem rmmovq (rA : RegId) (rB : RegId) (valC : Word) : Statement (.rmmovq rA rB valC) :=
  ⟨rfl, by simp [Instr.length]⟩

theorem mrmovq (rA : RegId) (rB : RegId) (valC : Word) : Statement (.mrmovq rA rB valC) :=
  ⟨rfl, by simp [Instr.length]⟩

theorem addq (rA : RegId) (rB : RegId) : Statement (.addq rA rB) :=
  ⟨rfl, by simp [Instr.length]⟩

theorem subq (rA : RegId) (rB : RegId) : Statement (.subq rA rB) :=
  ⟨rfl, by simp [Instr.length]⟩

theorem andq (rA : RegId) (rB : RegId) : Statement (.andq rA rB) :=
  ⟨rfl, by simp [Instr.length]⟩

theorem xorq (rA : RegId) (rB : RegId) : Statement (.xorq rA rB) :=
  ⟨rfl, by simp [Instr.length]⟩

theorem jmp (valC : Word) : Statement (.jmp valC) :=
  ⟨rfl, by simp [Instr.length]⟩

theorem jle (valC : Word) : Statement (.jle valC) :=
  ⟨rfl, by simp [Instr.length]⟩

theorem jl (valC : Word) : Statement (.jl valC) :=
  ⟨rfl, by simp [Instr.length]⟩

theorem je (valC : Word) : Statement (.je valC) :=
  ⟨rfl, by simp [Instr.length]⟩

theorem jne (valC : Word) : Statement (.jne valC) :=
  ⟨rfl, by simp [Instr.length]⟩

theorem jge (valC : Word) : Statement (.jge valC) :=
  ⟨rfl, by simp [Instr.length]⟩

theorem jg (valC : Word) : Statement (.jg valC) :=
  ⟨rfl, by simp [Instr.length]⟩

theorem call (valC : Word) : Statement (.call valC) :=
  ⟨rfl, by simp [Instr.length]⟩

theorem ret : Statement .ret := ⟨rfl, by decide⟩

theorem pushq (rA : RegId) (rB : RegId) : Statement (.pushq rA rB) :=
  ⟨rfl, by simp [Instr.length]⟩

theorem popq (rA : RegId) (rB : RegId) : Statement (.popq rA rB) :=
  ⟨rfl, by simp [Instr.length]⟩

theorem iaddq (rA : RegId) (rB : RegId) (valC : Word) : Statement (.iaddq rA rB valC) :=
  ⟨rfl, by simp [Instr.length]⟩

end Sys2Proof.Laws.EncodeLength

namespace Sys2Proof.Laws.EncodeClass

/-- Byte 0 of an encoding tells a valid class, and that class tells the length (R92, R96). -/
def Statement (i : Instr) : Prop :=
  ∃ c, classOfByte0 ((encode i).headD 0) = some c ∧ classLength c = i.length

theorem halt : Statement .halt :=
  ⟨.halt, by simp only [encode, List.headD_cons]; decide, rfl⟩

theorem nop : Statement .nop :=
  ⟨.nop, by simp only [encode, List.headD_cons]; decide, rfl⟩

theorem rrmovq (rA : RegId) (rB : RegId) : Statement (.rrmovq rA rB) :=
  ⟨.cmov, by simp only [encode, encodeF2, List.headD_cons]; decide, rfl⟩

theorem cmovle (rA : RegId) (rB : RegId) : Statement (.cmovle rA rB) :=
  ⟨.cmov, by simp only [encode, encodeF2, List.headD_cons]; decide, rfl⟩

theorem cmovl (rA : RegId) (rB : RegId) : Statement (.cmovl rA rB) :=
  ⟨.cmov, by simp only [encode, encodeF2, List.headD_cons]; decide, rfl⟩

theorem cmove (rA : RegId) (rB : RegId) : Statement (.cmove rA rB) :=
  ⟨.cmov, by simp only [encode, encodeF2, List.headD_cons]; decide, rfl⟩

theorem cmovne (rA : RegId) (rB : RegId) : Statement (.cmovne rA rB) :=
  ⟨.cmov, by simp only [encode, encodeF2, List.headD_cons]; decide, rfl⟩

theorem cmovge (rA : RegId) (rB : RegId) : Statement (.cmovge rA rB) :=
  ⟨.cmov, by simp only [encode, encodeF2, List.headD_cons]; decide, rfl⟩

theorem cmovg (rA : RegId) (rB : RegId) : Statement (.cmovg rA rB) :=
  ⟨.cmov, by simp only [encode, encodeF2, List.headD_cons]; decide, rfl⟩

theorem irmovq (rA : RegId) (rB : RegId) (valC : Word) : Statement (.irmovq rA rB valC) :=
  ⟨.irmovq, by simp only [encode, encodeF4, List.headD_cons]; decide, rfl⟩

theorem rmmovq (rA : RegId) (rB : RegId) (valC : Word) : Statement (.rmmovq rA rB valC) :=
  ⟨.rmmovq, by simp only [encode, encodeF4, List.headD_cons]; decide, rfl⟩

theorem mrmovq (rA : RegId) (rB : RegId) (valC : Word) : Statement (.mrmovq rA rB valC) :=
  ⟨.mrmovq, by simp only [encode, encodeF4, List.headD_cons]; decide, rfl⟩

theorem addq (rA : RegId) (rB : RegId) : Statement (.addq rA rB) :=
  ⟨.opq, by simp only [encode, encodeF2, List.headD_cons]; decide, rfl⟩

theorem subq (rA : RegId) (rB : RegId) : Statement (.subq rA rB) :=
  ⟨.opq, by simp only [encode, encodeF2, List.headD_cons]; decide, rfl⟩

theorem andq (rA : RegId) (rB : RegId) : Statement (.andq rA rB) :=
  ⟨.opq, by simp only [encode, encodeF2, List.headD_cons]; decide, rfl⟩

theorem xorq (rA : RegId) (rB : RegId) : Statement (.xorq rA rB) :=
  ⟨.opq, by simp only [encode, encodeF2, List.headD_cons]; decide, rfl⟩

theorem jmp (valC : Word) : Statement (.jmp valC) :=
  ⟨.jcc, by simp only [encode, encodeF3, List.headD_cons]; decide, rfl⟩

theorem jle (valC : Word) : Statement (.jle valC) :=
  ⟨.jcc, by simp only [encode, encodeF3, List.headD_cons]; decide, rfl⟩

theorem jl (valC : Word) : Statement (.jl valC) :=
  ⟨.jcc, by simp only [encode, encodeF3, List.headD_cons]; decide, rfl⟩

theorem je (valC : Word) : Statement (.je valC) :=
  ⟨.jcc, by simp only [encode, encodeF3, List.headD_cons]; decide, rfl⟩

theorem jne (valC : Word) : Statement (.jne valC) :=
  ⟨.jcc, by simp only [encode, encodeF3, List.headD_cons]; decide, rfl⟩

theorem jge (valC : Word) : Statement (.jge valC) :=
  ⟨.jcc, by simp only [encode, encodeF3, List.headD_cons]; decide, rfl⟩

theorem jg (valC : Word) : Statement (.jg valC) :=
  ⟨.jcc, by simp only [encode, encodeF3, List.headD_cons]; decide, rfl⟩

theorem call (valC : Word) : Statement (.call valC) :=
  ⟨.call, by simp only [encode, encodeF3, List.headD_cons]; decide, rfl⟩

theorem ret : Statement .ret :=
  ⟨.ret, by simp only [encode, List.headD_cons]; decide, rfl⟩

theorem pushq (rA : RegId) (rB : RegId) : Statement (.pushq rA rB) :=
  ⟨.pushq, by simp only [encode, encodeF2, List.headD_cons]; decide, rfl⟩

theorem popq (rA : RegId) (rB : RegId) : Statement (.popq rA rB) :=
  ⟨.popq, by simp only [encode, encodeF2, List.headD_cons]; decide, rfl⟩

theorem iaddq (rA : RegId) (rB : RegId) (valC : Word) : Statement (.iaddq rA rB valC) :=
  ⟨.iaddq, by simp only [encode, encodeF4, List.headD_cons]; decide, rfl⟩

end Sys2Proof.Laws.EncodeClass
end

