-- ==== Sys2Proof/Tests/Slice0.lean ====
section
/-! SUPPORT. The model's own tests. Every expected result is a worked example of the spec
(95_test_vectors.md, by its vector's number, or the Example of the instruction's rule) or is written
out from the spec's encoding table; none is the model's own answer. The last part shows, for every
obligation with hypotheses, states and operands that meet them. -/

namespace Sys2Proof.Tests

open Sys2Proof.Machine

/-! ### Helpers -/

/-- The parameters of the spec's vectors: batch, 0x1000 bytes of RAM, every default. -/
def batch : Config := Config.standard .batch 0x1000 2048

/-- The interactive platform with 0x1000 bytes of RAM. -/
def interactive : Config := Config.standard .interactive 0x1000 2048

/-- The state after reset with the bytes loaded at the PC. -/
def loaded (c : Config) (pc : Nat) (bytes : List Byte) : State :=
  { State.resetWith c with pc := BitVec.ofNat 64 pc, ram := Memory.writeList [] pc bytes }

/-- The eight bytes of a number, least significant first: the `q(v)` of the vectors. -/
def q (v : Nat) : List Byte :=
  [BitVec.ofNat 8 v, BitVec.ofNat 8 (v / 2 ^ 8), BitVec.ofNat 8 (v / 2 ^ 16),
   BitVec.ofNat 8 (v / 2 ^ 24), BitVec.ofNat 8 (v / 2 ^ 32), BitVec.ofNat 8 (v / 2 ^ 40),
   BitVec.ofNat 8 (v / 2 ^ 48), BitVec.ofNat 8 (v / 2 ^ 56)]

/-- The outcome is a next state that passes the check. -/
def ends (o : Host.Outcome State Fault Refusal) (check : State → Bool) : Bool :=
  match o with
  | .next t => check t
  | .fault _ => false
  | .refused _ => false

/-- Eight bytes of RAM. -/
def ramWordAt (t : State) (a : Nat) : List Byte :=
  [t.ram.read a, t.ram.read (a + 1), t.ram.read (a + 2), t.ram.read (a + 3), t.ram.read (a + 4),
   t.ram.read (a + 5), t.ram.read (a + 6), t.ram.read (a + 7)]

/-- PC, STAT and flags after the step. -/
def outcomeIs (t : State) (pc : Word) (stat : Stat) (cc : CC) : Bool :=
  t.pc == pc && t.stat == stat && t.cc == cc

/-- The flags after reset (R26). -/
def resetCC : CC := { zf := true, sf := false, of := false }

/-- With STRICT_UNUSED_REG. -/
def strict (s : State) : State := { s with config := { s.config with strictUnusedReg := true } }

/-- With FETCH_ADR_CONTINUES = false. -/
def fetchStops (s : State) : State :=
  { s with config := { s.config with fetchAdrContinues := false } }

/-- With MULTIBYTE_STOP_AT_MISS. -/
def stopAtMiss (s : State) : State :=
  { s with config := { s.config with multibyteStopAtMiss := true } }

/-! ### WellFormed: each check refuses an ill-formed term (40_cycle.md R132) -/

theorem test_illFormed_cmov_rA : Instr.wellFormed (.rrmovq none (some .rax)) = false := by decide

theorem test_illFormed_cmov_rB : Instr.wellFormed (.cmovne (some .rax) none) = false := by decide

theorem test_illFormed_opq_rA : Instr.wellFormed (.addq none (some .rax)) = false := by decide

theorem test_illFormed_opq_rB : Instr.wellFormed (.xorq (some .rax) none) = false := by decide

theorem test_illFormed_irmovq_rB : Instr.wellFormed (.irmovq (some .rax) none 5) = false := by decide

theorem test_illFormed_rmmovq_rA : Instr.wellFormed (.rmmovq none (some .rbx) 8) = false := by decide

theorem test_illFormed_rmmovq_rB : Instr.wellFormed (.rmmovq (some .rbx) none 8) = false := by decide

theorem test_illFormed_mrmovq_rA : Instr.wellFormed (.mrmovq none (some .rbx) 8) = false := by decide

theorem test_illFormed_mrmovq_rB : Instr.wellFormed (.mrmovq (some .rbx) none 8) = false := by decide

theorem test_illFormed_pushq_rA : Instr.wellFormed (.pushq none (some .rax)) = false := by decide

theorem test_illFormed_popq_rA : Instr.wellFormed (.popq none none) = false := by decide

theorem test_illFormed_iaddq_rB : Instr.wellFormed (.iaddq (some .rax) none 5) = false := by decide

theorem test_wellFormed_unusedField : Instr.wellFormed (.irmovq (some .rbx) (some .rax) 5) = true ∧
    Instr.canonical (.irmovq (some .rbx) (some .rax) 5) = false := by decide

theorem test_notCanonical : Instr.canonical (.pushq (some .rax) (some .rcx)) = false ∧
    Instr.canonical (.popq (some .rax) (some .rcx)) = false ∧
    Instr.canonical (.iaddq (some .rax) (some .rcx) 1) = false := by decide

/-! ### Decode: one word for each constructor, its bits from R91 to R98 -/

theorem test_decode_halt :
    decode [0b00000000] = .instr (.halt) [] := by decide

theorem test_decode_nop :
    decode [0b00010000] = .instr (.nop) [] := by decide

theorem test_decode_rrmovq :
    decode [0b00100000, 0b00000001] = .instr (.rrmovq (some .rax) (some .rcx)) [] := by decide

theorem test_decode_cmovle :
    decode [0b00100001, 0b00000001] = .instr (.cmovle (some .rax) (some .rcx)) [] := by decide

theorem test_decode_cmovl :
    decode [0b00100010, 0b00000001] = .instr (.cmovl (some .rax) (some .rcx)) [] := by decide

theorem test_decode_cmove :
    decode [0b00100011, 0b00000001] = .instr (.cmove (some .rax) (some .rcx)) [] := by decide

theorem test_decode_cmovne :
    decode [0b00100100, 0b00000001] = .instr (.cmovne (some .rax) (some .rcx)) [] := by decide

theorem test_decode_cmovge :
    decode [0b00100101, 0b00000001] = .instr (.cmovge (some .rax) (some .rcx)) [] := by decide

theorem test_decode_cmovg :
    decode [0b00100110, 0b00000001] = .instr (.cmovg (some .rax) (some .rcx)) [] := by decide

theorem test_decode_irmovq :
    decode [0b00110000, 0b11110100, 0x00, 0x02, 0, 0, 0, 0, 0, 0] = .instr (.irmovq none (some .rsp) 0x200) [] := by decide

theorem test_decode_rmmovq :
    decode [0b01000000, 0b00000011, 0xF8, 0xFF, 0xFF, 0xFF, 0xFF, 0xFF, 0xFF, 0xFF] = .instr (.rmmovq (some .rax) (some .rbx) 0xFFFFFFFFFFFFFFF8) [] := by decide

theorem test_decode_mrmovq :
    decode [0b01010000, 0b00100011, 0x88, 0x77, 0x66, 0x55, 0x44, 0x33, 0x22, 0x11] = .instr (.mrmovq (some .rdx) (some .rbx) 0x1122334455667788) [] := by decide

theorem test_decode_addq :
    decode [0b01100000, 0b00010000] = .instr (.addq (some .rcx) (some .rax)) [] := by decide

theorem test_decode_subq :
    decode [0b01100001, 0b01010110] = .instr (.subq (some .rbp) (some .rsi)) [] := by decide

theorem test_decode_andq :
    decode [0b01100010, 0b01111000] = .instr (.andq (some .rdi) (some .r8)) [] := by decide

theorem test_decode_xorq :
    decode [0b01100011, 0b10011110] = .instr (.xorq (some .r9) (some .r14)) [] := by decide

theorem test_decode_jmp :
    decode [0b01110000, 0x20, 0, 0, 0, 0, 0, 0, 0x80] = .instr (.jmp 0x8000000000000020) [] := by decide

theorem test_decode_jle :
    decode [0b01110001, 0x20, 0, 0, 0, 0, 0, 0, 0x80] = .instr (.jle 0x8000000000000020) [] := by decide

theorem test_decode_jl :
    decode [0b01110010, 0x20, 0, 0, 0, 0, 0, 0, 0x80] = .instr (.jl 0x8000000000000020) [] := by decide

theorem test_decode_je :
    decode [0b01110011, 0x20, 0, 0, 0, 0, 0, 0, 0x80] = .instr (.je 0x8000000000000020) [] := by decide

theorem test_decode_jne :
    decode [0b01110100, 0x20, 0, 0, 0, 0, 0, 0, 0x80] = .instr (.jne 0x8000000000000020) [] := by decide

theorem test_decode_jge :
    decode [0b01110101, 0x20, 0, 0, 0, 0, 0, 0, 0x80] = .instr (.jge 0x8000000000000020) [] := by decide

theorem test_decode_jg :
    decode [0b01110110, 0x20, 0, 0, 0, 0, 0, 0, 0x80] = .instr (.jg 0x8000000000000020) [] := by decide

theorem test_decode_call :
    decode [0b10000000, 0x30, 0, 0, 0, 0, 0, 0, 0] = .instr (.call 0x30) [] := by decide

theorem test_decode_ret :
    decode [0b10010000] = .instr (.ret) [] := by decide

theorem test_decode_pushq :
    decode [0b10100000, 0b10101111] = .instr (.pushq (some .r10) none) [] := by decide

theorem test_decode_popq :
    decode [0b10110000, 0b11011100] = .instr (.popq (some .r13) (some .r12)) [] := by decide

theorem test_decode_iaddq :
    decode [0b11000000, 0b11111011, 0x0A, 0, 0, 0, 0, 0, 0, 0] = .instr (.iaddq none (some .r11) 10) [] := by decide

/-- 95_test_vectors.md 2.6, E1 to E6, and 2.3's `C1`: illegal whatever follows. -/
theorem test_decode_illegal :
    decode [0xFF] = .reject .illegalByte0 ∧ decode [0x01] = .reject .illegalByte0 ∧
    decode [0x27, 0x01] = .reject .illegalByte0 ∧ decode [0x64, 0x01] = .reject .illegalByte0 ∧
    decode [0xD0] = .reject .illegalByte0 ∧ decode [0x3F, 0xF0] = .reject .illegalByte0 ∧
    decode [0xC1, 0xF2] = .reject .illegalByte0 := by decide

/-- 95_test_vectors.md 2.6, E7 to E11. -/
theorem test_decode_noRegister :
    decode [0x60, 0xF0] = .reject .noRegister ∧ decode [0x60, 0x0F] = .reject .noRegister ∧
    decode ([0x30, 0x0F] ++ q 5) = .reject .noRegister ∧
    decode [0xA0, 0xF0] = .reject .noRegister ∧ decode [0x20, 0x0F] = .reject .noRegister := by
  decide

theorem test_decode_truncated : decode [0x70, 0, 0] = .reject .truncated ∧
    decode [] = .reject .truncated ∧ decode [0x20] = .reject .truncated := by decide

/-- The host's numbering: bit 0 of the word is bit 0 of byte 0; the bytes above are zero. -/
theorem test_tableWord :
    decodeTableWord 8 0x60 = some (.addq (some .rax) (some .rax)) ∧
    decodeTableWord 16 0x0124 = some (.cmovne (some .rax) (some .rcx)) ∧
    decodeTableWord 72 (0x80 + 0x30 * 2 ^ 8) = some (.call 0x30) ∧
    decodeTableWord 8 0xFF = none := by decide

/-- From reset, a placed word is the next instruction run. -/
theorem test_withFetchWord :
    ends (step (State.reset.withFetchWord 8 0x10)) (fun t => outcomeIs t 1 .aok resetCC) = true ∧
    ends (step (State.reset.withFetchWord 72 (0x70 + 0x20 * 2 ^ 8)))
      (fun t => outcomeIs t 0x20 .aok resetCC) = true := by decide

/-! ### Single steps: the spec's vectors -/

/-- Rule R170's example and vector H1. -/
theorem test_halt :
    ends (step (loaded batch 0x18 [0x00]))
      (fun t => outcomeIs t 0x18 .hlt resetCC) = true := by decide

/-- Vector H1: a second cycle changes nothing. -/
theorem test_halt_again :
    ends (step { loaded batch 0x18 [0x00] with stat := .hlt })
      (fun t => t == { loaded batch 0x18 [0x00] with stat := .hlt, iteration := 1 }) = true := by
  decide

/-- Vector H3: byte 0x01. -/
theorem test_halt_illegal :
    ends (step (loaded batch 0 [0x01]))
      (fun t => outcomeIs t 0 .ins resetCC) = true := by decide

/-- Vector H2. -/
theorem test_nop :
    ends (step (loaded batch 0x5 [0x10]))
      (fun t => outcomeIs t 0x6 .aok resetCC) = true := by decide

/-- The CMOVcc vector of 95_test_vectors.md 2.2: rax = 5, rbx = 9, ZF = 0, SF = 1, OF = 0. -/
def cmovVector (byte0 : Byte) (rbx : Word) : Bool :=
  ends (step { loaded batch 0 [byte0, 0x03] with
      regs := { RegFile.reset with rax := 5, rbx := 9 }, cc := ⟨false, true, false⟩ })
    (fun t => outcomeIs t 2 .aok ⟨false, true, false⟩ && t.reg .rbx == rbx && t.reg .rax == 5)

theorem test_rrmovq : cmovVector 0x20 5 = true := by decide

theorem test_cmovle : cmovVector 0x21 5 = true := by decide

theorem test_cmovl : cmovVector 0x22 5 = true := by decide

theorem test_cmove : cmovVector 0x23 9 = true := by decide

theorem test_cmovne : cmovVector 0x24 5 = true := by decide

theorem test_cmovge : cmovVector 0x25 9 = true := by decide

theorem test_cmovg : cmovVector 0x26 9 = true := by decide

/-- The other direction: the Examples of R183 to R187 (rax = 5, rcx = 9). -/
def cmovExample (byte0 : Byte) (cc : CC) (rcx : Word) : Bool :=
  ends (step { loaded batch 0 [byte0, 0x01] with
      regs := { RegFile.reset with rax := 5, rcx := 9 }, cc := cc })
    (fun t => outcomeIs t 2 .aok cc && t.reg .rcx == rcx)

theorem test_cmovl_notTaken : cmovExample 0x22 resetCC 9 = true := by decide

theorem test_cmove_taken : cmovExample 0x23 resetCC 5 = true := by decide

theorem test_cmovne_notTaken : cmovExample 0x24 resetCC 9 = true := by decide

theorem test_cmovge_taken : cmovExample 0x25 ⟨false, true, true⟩ 5 = true := by decide

theorem test_cmovg_taken : cmovExample 0x26 ⟨false, false, false⟩ 5 = true := by decide

/-- Vector M1: rB is checked although the move is not taken. -/
theorem test_cmovne_rnone :
    ends (step (loaded batch 0 [0x24, 0x0F]))
      (fun t => outcomeIs t 0 .ins resetCC) = true := by decide

/-- Vector M2. -/
theorem test_irmovq :
    ends (step (loaded batch 0 ([0x30, 0xF4] ++ q 0x200)))
      (fun t => outcomeIs t 0xA .aok resetCC && t.reg .rsp == 0x200) = true := by decide

/-- Vector M4 with STRICT_UNUSED_REG. -/
theorem test_irmovq_strict :
    ends (step (strict (loaded batch 0 ([0x30, 0x30] ++ q 5))))
      (fun t => outcomeIs t 0 .ins resetCC && t.reg .rax == 0) = true := by decide

/-- Vector M7: the address wraps. -/
theorem test_rmmovq :
    ends (step ({ loaded batch 0x20 ([0x40, 0x03] ++ q 0xFFFFFFFFFFFFFFF8) with
      regs := { RegFile.reset with rax := 0xAB, rbx := 0x10 } }))
      (fun t => outcomeIs t 0x2A .aok resetCC && ramWordAt t 0x8 == [0xAB, 0, 0, 0, 0, 0, 0, 0]) = true := by decide

/-- Vector M9: the four bytes that hit are stored. -/
theorem test_rmmovq_straddles :
    ends (step ({ loaded batch 0 ([0x40, 0x03] ++ q 0) with
      regs := { RegFile.reset with rax := 0xFFFFFFFFFFFFFFFF, rbx := 0xFFC } }))
      (fun t => outcomeIs t 0 .adr resetCC && ramWordAt t 0xFFC == [0xFF, 0xFF, 0xFF, 0xFF, 0, 0, 0, 0]) = true := by decide

/-- Vector M8: the base register is the destination. -/
theorem test_mrmovq :
    ends (step ({ loaded batch 0 ([0x50, 0x33] ++ q 8) with
      regs := { RegFile.reset with rbx := 0x100 }
      ram := Memory.writeList (Memory.writeList [] 0 ([0x50, 0x33] ++ q 8)) 0x108 (q 0x55) }))
      (fun t => outcomeIs t 0xA .aok resetCC && t.reg .rbx == 0x55) = true := by decide

/-- Vector M10: the register is written with 0 in the missed bytes. -/
theorem test_mrmovq_straddles :
    ends (step ({ loaded batch 0 ([0x50, 0x03] ++ q 0) with
      regs := { RegFile.reset with rax := 0x99, rbx := 0xFFC }
      ram := Memory.writeList (Memory.writeList [] 0 ([0x50, 0x03] ++ q 0)) 0xFFC [1, 2, 3, 4] }))
      (fun t => outcomeIs t 0 .adr resetCC && t.reg .rax == 0x04030201) = true := by decide

/-- Vector M11: a store that misses first and then reaches the PPU configuration region. -/
def storeBelowPpu : State :=
  { loaded interactive 0 ([0x40, 0x03] ++ q 0) with
    regs := { RegFile.reset with rax := 0x0123456789ABCDEF, rbx := 0x2FFC }
    inputs := [⟨⟨false, false, false, false, false, false⟩, 0⟩] }

theorem test_rmmovq_missPrefix :
    ends (runCycle storeBelowPpu) (fun t => outcomeIs t 0 .adr resetCC &&
      t.ppu.config == [(0, 0x67), (1, 0x45), (2, 0x23), (3, 0x01)]) = true ∧
    ends (runCycle (stopAtMiss storeBelowPpu)) (fun t => outcomeIs t 0 .adr resetCC &&
      t.ppu.config == []) = true := by decide

/-- Vectors A1 to A17: rax = a, rcx = b, flags ZF = 0, SF = 0, OF = 1 before. -/
def opqVector (byte0 : Byte) (a b r : Word) (cc : CC) : Bool :=
  ends (step { loaded batch 0 [byte0, 0x01] with
      regs := { RegFile.reset with rax := a, rcx := b }, cc := ⟨false, false, true⟩ })
    (fun t => outcomeIs t 2 .aok cc && t.reg .rcx == r && t.reg .rax == a)


/-- Vectors A1 and A2. -/
theorem test_addq :
    opqVector 0x60 1 0x7FFFFFFFFFFFFFFF 0x8000000000000000 ⟨false, true, true⟩ = true ∧
    opqVector 0x60 0x8000000000000000 0x8000000000000000 0 ⟨true, false, true⟩ = true := by decide

/-- Vectors A3 and A5. -/
theorem test_addq_signs :
    opqVector 0x60 1 0xFFFFFFFFFFFFFFFF 0 ⟨true, false, false⟩ = true ∧
    opqVector 0x60 0xFFFFFFFFFFFFFFFF 0x8000000000000000 0x7FFFFFFFFFFFFFFF ⟨false, false, true⟩ = true := by decide

/-- Vectors A7, A8 and A11. -/
theorem test_subq :
    opqVector 0x61 1 0x8000000000000000 0x7FFFFFFFFFFFFFFF ⟨false, false, true⟩ = true ∧
    opqVector 0x61 0x8000000000000000 0 0x8000000000000000 ⟨false, true, true⟩ = true ∧
    opqVector 0x61 0xA 3 0xFFFFFFFFFFFFFFF9 ⟨false, true, false⟩ = true := by decide

/-- Vectors A12 and A13. -/
theorem test_subq_signs :
    opqVector 0x61 0xFFFFFFFFFFFFFFFF 0x7FFFFFFFFFFFFFFF 0x8000000000000000 ⟨false, true, true⟩ = true ∧
    opqVector 0x61 0x8000000000000000 0x8000000000000000 0 ⟨true, false, false⟩ = true := by decide

/-- Vectors A14 and A15. -/
theorem test_andq :
    opqVector 0x62 0xF0 0x0F 0 ⟨true, false, false⟩ = true ∧
    opqVector 0x62 0xFFFFFFFFFFFFFFFF 0x8000000000000001 0x8000000000000001 ⟨false, true, false⟩ = true := by decide

/-- Vectors A16 and A17. -/
theorem test_xorq :
    opqVector 0x63 0x8000000000000000 0 0x8000000000000000 ⟨false, true, false⟩ = true ∧
    opqVector 0x63 0x1234 0x1234 0 ⟨true, false, false⟩ = true := by decide

/-- Vectors I1 to I5. -/
def iaddqVector (v : Nat) (rdx r : Word) (cc : CC) : Bool :=
  ends (step { loaded batch 0 ([0xC0, 0xF2] ++ q v) with regs := { RegFile.reset with rdx := rdx } })
    (fun t => outcomeIs t 0xA .aok cc && t.reg .rdx == r)

theorem test_iaddq :
    iaddqVector 10 118 128 ⟨false, false, false⟩ = true ∧
    iaddqVector 0xFFFFFFFFFFFFFFFF 1 0 ⟨true, false, false⟩ = true := by decide

theorem test_iaddq_overflow :
    iaddqVector 1 0x7FFFFFFFFFFFFFFF 0x8000000000000000 ⟨false, true, true⟩ = true ∧
    iaddqVector 0xFFFFFFFFFFFFFFFF 0x8000000000000000 0x7FFFFFFFFFFFFFFF
      ⟨false, false, true⟩ = true := by decide

/-- The fetch-miss arithmetic of 95_test_vectors.md 2.3: rax is written, the flags and PC are not. -/
def addqAtTopOfRam : State :=
  { loaded batch 0xFFF [0x60] with
    regs := { RegFile.reset with rax := 5 }, cc := ⟨false, false, false⟩ }

theorem test_fetchMiss_arithmetic :
    ends (step addqAtTopOfRam) (fun t => outcomeIs t 0xFFF .adr ⟨false, false, false⟩ &&
      t.reg .rax == 0xA) = true ∧
    ends (step (fetchStops addqAtTopOfRam)) (fun t =>
      outcomeIs t 0xFFF .adr ⟨false, false, false⟩ && t.reg .rax == 5) = true := by decide

/-- Vectors J1 to J5 and the Examples of R221 to R227: a jump to 0x20 at 0x10. -/
def jumpVector (byte0 : Byte) (cc : CC) (pc : Word) : Bool :=
  ends (step { loaded batch 0x10 (byte0 :: q 0x20) with cc := cc })
    (fun t => outcomeIs t pc .aok cc && t.regs == RegFile.reset)

theorem test_jmp : jumpVector 0x70 resetCC 0x20 = true := by decide

theorem test_jle : jumpVector 0x71 resetCC 0x20 = true ∧
    jumpVector 0x71 ⟨false, true, true⟩ 0x19 = true := by decide

theorem test_jl : jumpVector 0x72 ⟨false, false, true⟩ 0x20 = true ∧
    jumpVector 0x72 resetCC 0x19 = true := by decide

theorem test_je : jumpVector 0x73 ⟨false, false, false⟩ 0x19 = true ∧
    jumpVector 0x73 resetCC 0x20 = true := by decide

theorem test_jne : jumpVector 0x74 ⟨false, false, false⟩ 0x20 = true ∧
    jumpVector 0x74 resetCC 0x19 = true := by decide

theorem test_jge : jumpVector 0x75 ⟨false, true, true⟩ 0x20 = true ∧
    jumpVector 0x75 ⟨false, true, false⟩ 0x19 = true := by decide

theorem test_jg : jumpVector 0x76 resetCC 0x19 = true ∧
    jumpVector 0x76 ⟨false, true, true⟩ 0x20 = true := by decide

/-- Vector J7: the second cycle, at an unmapped target, under both settings. -/
theorem test_unmappedTarget :
    ends (step (loaded batch 0 (0x70 :: q 0x5000))) (fun t => outcomeIs t 0x5000 .aok resetCC) = true ∧
    ends (step { loaded batch 0 [] with pc := 0x5000 })
      (fun t => outcomeIs t 0x5000 .hlt resetCC) = true ∧
    ends (step (fetchStops { loaded batch 0 [] with pc := 0x5000 }))
      (fun t => outcomeIs t 0x5000 .adr resetCC) = true := by decide

/-- Vector J8. -/
theorem test_call :
    ends (step ({ loaded batch 0x10 (0x80 :: q 0x30) with regs := { RegFile.reset with rsp := 0x200 } }))
      (fun t => outcomeIs t 0x30 .aok resetCC && t.reg .rsp == 0x1F8 && ramWordAt t 0x1F8 == q 0x19) = true := by decide

/-- Vector J10: RSP is decremented although the store misses. -/
theorem test_call_miss :
    ends (step (loaded batch 0 (0x80 :: q 0x40)))
      (fun t => outcomeIs t 0 .adr resetCC && t.reg .rsp == 0xFFFFFFFFFFFFFFF8) = true := by decide

/-- Vector J9. -/
theorem test_ret :
    ends (step ({ loaded batch 0x30 [0x90] with
      regs := { RegFile.reset with rsp := 0x1F8 }
      ram := Memory.writeList (Memory.writeList [] 0x30 [0x90]) 0x1F8 (q 0x19) }))
      (fun t => outcomeIs t 0x19 .aok resetCC && t.reg .rsp == 0x200) = true := by decide

/-- Vector J11. -/
theorem test_ret_miss :
    ends (step ({ loaded batch 0 [0x90] with
      regs := { RegFile.reset with rsp := 0xFFC }
      ram := Memory.writeList (Memory.writeList [] 0 [0x90]) 0xFFC [0x11, 0x22, 0x33, 0x44] }))
      (fun t => outcomeIs t 0 .adr resetCC && t.reg .rsp == 0x1004) = true := by decide

/-- Vector S3: the stored word is the old RSP. -/
theorem test_pushq :
    ends (step ({ loaded batch 0 [0xA0, 0x4F] with regs := { RegFile.reset with rsp := 0x200 } }))
      (fun t => outcomeIs t 2 .aok resetCC && t.reg .rsp == 0x1F8 && ramWordAt t 0x1F8 == q 0x200) = true := by decide

/-- Vector S5: an unused rB, under both settings. -/
theorem test_pushq_unusedField :
    ends (step (loaded batch 0 [0xA0, 0x01])) (fun t => outcomeIs t 0 .adr resetCC &&
      t.reg .rsp == 0xFFFFFFFFFFFFFFF8) = true ∧
    ends (step (strict (loaded batch 0 [0xA0, 0x01]))) (fun t => outcomeIs t 0 .ins resetCC &&
      t.reg .rsp == 0) = true := by decide

/-- Vector S4: the popped word wins over RSP + 8. -/
theorem test_popq :
    ends (step ({ loaded batch 0 [0xB0, 0x4F] with
      regs := { RegFile.reset with rsp := 0x200 }
      ram := Memory.writeList (Memory.writeList [] 0 [0xB0, 0x4F]) 0x200 (q 0xDEAD) }))
      (fun t => outcomeIs t 2 .aok resetCC && t.reg .rsp == 0xDEAD) = true := by decide

/-- Vector S7. -/
theorem test_popq_miss :
    ends (step ({ loaded batch 0 [0xB0, 0x1F] with
      regs := { RegFile.reset with rsp := 0xFFC }
      ram := Memory.writeList (Memory.writeList [] 0 [0xB0, 0x1F]) 0xFFC [0x11, 0x22, 0x33, 0x44] }))
      (fun t => outcomeIs t 0 .adr resetCC && t.reg .rcx == 0x44332211 && t.reg .rsp == 0x1004) = true := by decide

/-- Vector F2: five immediate bytes miss, under both settings of `FETCH_ADR_CONTINUES`. -/
def irmovqAtTopOfRam : State := loaded batch 0xFFB [0x30, 0xF2, 0x11, 0x22, 0x33]

theorem test_fetchMiss_immediate :
    ends (step irmovqAtTopOfRam) (fun t => outcomeIs t 0xFFB .adr resetCC &&
      t.reg .rdx == 0x332211) = true ∧
    ends (step (fetchStops irmovqAtTopOfRam)) (fun t => outcomeIs t 0xFFB .adr resetCC &&
      t.reg .rdx == 0) = true := by decide

/-- Vector F3: two displacement bytes miss; the store still runs, unless fetch stops the cycle. -/
def rmmovqAtTopOfRam : State :=
  { loaded batch 0xFF8 [0x40, 0x03, 0x10] with
    regs := { RegFile.reset with rax := 0x77, rbx := 0x100 } }

theorem test_fetchMiss_store :
    ends (step rmmovqAtTopOfRam) (fun t => outcomeIs t 0xFF8 .adr resetCC &&
      ramWordAt t 0x110 == q 0x77) = true ∧
    ends (step (fetchStops rmmovqAtTopOfRam)) (fun t => outcomeIs t 0xFF8 .adr resetCC &&
      ramWordAt t 0x110 == q 0) = true := by decide

/-! ### The bus and the devices -/

/-- Vectors B1 to B6. -/
theorem test_bus :
    (loaded batch 0 []).busRead 0x1000 = ⟨0, true⟩ ∧
    (loaded batch 0 []).busWrite 0x1000 0x55 = (loaded batch 0 [], ⟨0, true⟩) ∧
    ({ loaded interactive 0 [] with joystick := ⟨0x48⟩ } : State).busRead 0x2000 = ⟨0x48, false⟩ ∧
    (loaded interactive 0 []).busWrite 0x4000 0x12 = (loaded interactive 0 [], ⟨0x12, false⟩) ∧
    (loaded interactive 0 []).busRead 0x30C0 = ⟨0, true⟩ ∧
    ((loaded interactive 0 []).busWrite 0x30BF 9).1.ppu.config = [(191, 9)] := by decide

/-- Vector B9: only the timer byte of the access is mapped. -/
theorem test_bus_timerByte :
    ({ loaded interactive 0 [] with timer := ⟨0x7F, 0⟩ } : State).memRead 0x3FFC =
      (0x7F00000000, true) := by decide

/-- 95_test_vectors.md 1.3: the source's sprite, drawn by a step at a nop. -/
def spriteState : State :=
  { loaded interactive 0x10 [0x10] with
    ram := Memory.writeList [] 0 ([0x10, 0x73] ++ q 0 ++ q 0 ++ [0x10])
    pc := 0x12
    ppu := ⟨Memory.writeList [] 0 [0, 0, 0, 0, 0, 0, 0, 0, 3, 5, 0, 0], [], [], []⟩
    inputs := [⟨⟨true, false, false, false, false, false⟩, 50000⟩] }

theorem test_ppu_sprite :
    ends (step spriteState) (fun t =>
      t.ppu.front == [(0, 0x10), (15, 0x18), (30, 0x1C)] && t.ppu.back == t.ppu.front &&
      t.ppu.active == [⟨0, 3, 5, 0, 0⟩]) = true := by decide

/-- Vectors V1 and V3: columns past the right edge are clipped; a missed bitmap byte is off. -/
theorem test_ppu_clip_and_miss :
    ({ loaded interactive 0x100 [0xFF] with
      ppu := ⟨Memory.writeList [] 0 [0, 1, 0, 0, 0, 0, 0, 0, 1, 8, 116, 29], [], [], []⟩ } :
      State).ppuUpdate.ppu.front = [(449, 0xF0)] ∧
    ({ loaded interactive 0xFFF [0x81] with
      ppu := ⟨Memory.writeList [] 0 [0xFF, 0xF, 0, 0, 0, 0, 0, 0, 1, 16, 0, 0], [], [], []⟩ } :
      State).ppuUpdate.ppu.front = [(0, 0x81)] := by decide

/-- Vectors T2 and T4. -/
theorem test_timer :
    Timer.advance ⟨0, 0⟩ 16667 5000100 = ⟨44, 0⟩ ∧
    [8000, 8000, 8000, 8000, 8000].foldl (fun t d => Timer.advance t 16667 d) ⟨0, 0⟩ =
      ⟨2, 6666⟩ := by decide

/-- Vectors K2 to K6, the last through the machine. -/
theorem test_joystick :
    Buttons.toByte ⟨true, false, false, false, false, false⟩ = 0x80 ∧
    Buttons.toByte ⟨false, true, false, false, true, false⟩ = 0x48 ∧
    Buttons.toByte ⟨false, false, true, true, false, true⟩ = 0x34 ∧
    Buttons.toByte ⟨true, true, true, true, true, true⟩ = 0xFC ∧
    ends (step spriteState) (fun t => t.joystick.byte == 0x80 && t.timer == ⟨2, 16666⟩ &&
      t.inputs == []) = true := by decide

/-! ### The loader and the trace -/

/-- R320: the address prefix, spaces in the payload, a comment, and a dropped last digit. -/
theorem test_parseLine :
    parseLine "0x00a: 30F4 0001 | irmovq".toList = some (0xA, [0x30, 0xF4, 0x00, 0x01]) ∧
    parseLine "013: 00".toList = none ∧ parseLine "013:  | x".toList = none ∧
    parseLine "013: 901 |".toList = some (0x13, [0x90]) := by decide

/-- The model's choices of notes/assumptions/8: blanks around an address, a blank inside one, and a
payload of one digit. -/
theorem test_parseLine_choices :
    parseLine " 0x12 : 30 |".toList = some (0x12, [0x30]) ∧
    parseLine "1 2: 30 | c".toList = none ∧
    parseLine "0x12: 3 | c".toList = some (0x12, []) := by decide

/-- R54: a load past the end of RAM fails. -/
theorem test_loadBytes_overflow :
    (loaded batch 0 []).loadBytes 0xFFF [1, 2] = none ∧
    ((loaded batch 0 []).loadBytes 0xFFE [1, 2]).isSome = true := by decide

/-- R334: program P3's last word, -4294967296, in a RAM of 16 bytes. -/
theorem test_memEntries :
    (loaded (Config.standard .batch 16 10) 0xC [0xFF, 0xFF, 0xFF, 0xFF]).memEntries =
      [(8, -4294967296)] := by decide

/-! ### Hypotheses are met

One theorem for each obligation with hypotheses, named after it. -/
theorem ends_next {o : Host.Outcome State Fault Refusal} {check : State → Bool}
    (h : ends o check = true) : ∃ t, o = .next t ∧ check t = true := by
  cases o with
  | next t => exact ⟨t, rfl, h⟩
  | fault r => cases h
  | refused r => cases h

theorem exec_next (i : Instr) (s : State) : ∃ t, exec i s = .next t :=
  (exec_cpuStep i s).imp fun _ h => h.1

/-- `addq %rcx, %rax` at 0x10. -/
def addqState : State := loaded batch 0x10 [0x60, 0x10]

/-- Ten instruction bytes that end with the last byte of RAM. -/
def lastIrmovq : State := loaded batch 0xFF6 ([0x30, 0xF4] ++ q 0x200)

/-- A stack pointer just above RAM: a push stores to its last eight bytes. -/
def pushAtTop : State :=
  { State.resetWith batch with regs := { RegFile.reset with rsp := 0x1000 } }

/-- A stack pointer one byte higher: the last byte of a push misses. -/
def pushPastTop : State :=
  { State.resetWith batch with regs := { RegFile.reset with rsp := 0x1001 } }

/-- A pop reads the last eight bytes of RAM. -/
def popAtTop : State :=
  { State.resetWith batch with regs := { RegFile.reset with rsp := 0xFF8, rbx := 0xFF8 } }

/-- A pop's last byte misses. -/
def popPastTop : State :=
  { State.resetWith batch with regs := { RegFile.reset with rsp := 0xFF9, rbx := 0xFF9 } }

theorem witness_ResetCpuState :
    ∃ t, (loaded batch 0 []).loadBytes 0xFFE [1, 2] = some t :=
  ⟨_, rfl⟩

theorem witness_ResetMeetsInvariant : interactive.wf = true ∧ 1 ≤ (1 : Nat) := by decide

theorem witness_StepKeepsInvariant : spriteState.Inv ∧ ∃ t, step spriteState = .next t := by
  have h : ∃ t, step spriteState = .next t ∧ (fun _ => true) t = true :=
    ends_next (check := fun _ => true) (by decide)
  exact ⟨⟨by decide, by decide, by decide, by decide, rfl, by decide, by decide, by decide,
    by decide⟩, h.imp fun _ h => h.1⟩

theorem witness_StepRunsDecodedInstruction :
    (addqState.stat = .aok ∧ Instr.wellFormed (.addq (some .rcx) (some .rax)) = true ∧
      addqState.holdsAtPc (.addq (some .rcx) (some .rax))) ∧
    (lastIrmovq.stat = .aok ∧ Instr.wellFormed (.irmovq none (some .rsp) 0x200) = true ∧
      lastIrmovq.holdsAtPc (.irmovq none (some .rsp) 0x200)) := by
  unfold State.holdsAtPc; decide

theorem witness_AokCycleRanOneInstruction :
    addqState.stat = .aok ∧ ∃ t, runCycle addqState = .next t ∧ (t.stat == .aok) = true :=
  ⟨rfl, ends_next (check := fun t => t.stat == .aok) (by decide)⟩

theorem witness_IterationOrder :
    (spriteState.config.platform = .interactive ∧
      ∃ u, runCycle spriteState = .next u ∧ (u.stat == .aok) = true) ∧
    (addqState.config.platform = .batch ∧
      ∃ u, runCycle addqState = .next u ∧ (u.stat == .aok) = true) :=
  ⟨⟨rfl, ends_next (check := fun t => t.stat == .aok) (by decide)⟩,
    ⟨rfl, ends_next (check := fun t => t.stat == .aok) (by decide)⟩⟩

theorem witness_StatusIsSticky :
    (addqState.raise .hlt).stat ≠ .aok ∧
    (∃ t, step (addqState.raise .hlt) = .next t ∧ (t.stat == .hlt) = true) ∧
    ∃ t, exec .nop (addqState.raise .adr) = .next t :=
  ⟨by decide, ends_next (check := fun t => t.stat == .hlt) (by decide), exec_next _ _⟩

theorem witness_StatusMonotone :
    (∃ t, exec .halt addqState = .next t) ∧
    ∃ t, step addqState = .next t ∧ (t.stat == .aok) = true :=
  ⟨exec_next _ _, ends_next (check := fun t => t.stat == .aok) (by decide)⟩

/-- A cycle that ends in INS, one in HLT and one in ADR, from AOK. -/
theorem witness_PcPreservedOffAok_InsAndHltPrecise :
    (loaded batch 0 [0xFF]).stat = .aok ∧
    (∃ t, runCycle (loaded batch 0 [0xFF]) = .next t ∧ (t.stat == .ins) = true) ∧
    (∃ t, runCycle (loaded batch 0 [0x00]) = .next t ∧ (t.stat == .hlt) = true) ∧
    (∃ t, runCycle (loaded batch 0 (0x80 :: q 0x40)) = .next t ∧ (t.stat == .adr) = true) :=
  ⟨rfl, ends_next (check := fun t => t.stat == .ins) (by decide),
    ends_next (check := fun t => t.stat == .hlt) (by decide),
    ends_next (check := fun t => t.stat == .adr) (by decide)⟩

theorem witness_DecodeEncodeRoundTrip : Instr.wellFormed (.popq (some .r14) none) = true := by
  decide

theorem witness_DecodedBytesAreTheEncoding :
    decode [0xB0, 0xEF, 0x90] = .instr (.popq (some .r14) none) [0x90] := by decide

theorem witness_IllegalByte0RaisesIns :
    (0x01 : Byte) ∉ validByte0 ∧ (0xFF : Byte) ∉ validByte0 ∧ (0xC0 : Byte) ∈ validByte0 ∧
    (loaded batch 0 [0xFF]).stat = .aok ∧
    (loaded batch 0 [0xFF]).busRead (loaded batch 0 [0xFF]).pc =
      { data := 0xFF, miss := false } := by
  decide

theorem witness_RnoneRaisesIns :
    Instr.wellFormed (.cmovne (some .rax) none) = false ∧
    (loaded batch 0 [0x60, 0x0F]).stat = .aok ∧
    (loaded batch 0 [0x60, 0x0F]).fetch.ok = true ∧
    decode (loaded batch 0 [0x60, 0x0F]).fetch.bytes = .reject .noRegister := by
  decide

theorem witness_StrictUnusedFieldRaisesIns :
    (strict addqState).config.strictUnusedReg = true ∧
    Instr.canonical (.popq (some .rax) (some .r14)) = false := by
  decide

theorem witness_CanonicalIgnoresStrict :
    Instr.canonical (.pushq (some .rax) none) = true ∧
    Instr.canonical (.addq (some .rax) none) = true := by
  decide

theorem witness_HaltEffect :
    addqState.stat = .aok ∧
    ({ addqState with pc := 0x1000 } : State).config.fetchAdrContinues = true ∧
    ({ addqState with pc := 0x1000 } : State).mapped 0x1000 = false ∧
    (0x01 : Byte).toNat ≤ 0x0F ∧ 0x01 ≤ (0x0F : Byte).toNat ∧
    (loaded batch 0 [0x0F]).stat = .aok ∧
    (loaded batch 0 [0x0F]).busRead (loaded batch 0 [0x0F]).pc =
      { data := 0x0F, miss := false } := by
  decide

theorem witness_NopEffect : addqState.stat = .aok := by decide

theorem witness_CmovEffect :
    addqState.stat = .aok ∧ addqState.cc.cond .e = true ∧ addqState.cc.cond .ne = false := by
  decide

/-- Also for IADDQ, PUSHQ and POPQ, which have the same register-field hypotheses. -/
theorem witness_IrmovqEffect_IaddqEffect :
    addqState.stat = .aok ∧ addqState.unusedOk none = true ∧
    addqState.unusedOk (some .r14) = true ∧ (strict addqState).unusedOk none = true ∧
    (addqState.raise .adr).stat = .adr ∧ (addqState.raise .adr).unusedOk none = true ∧
    (strict addqState).config.strictUnusedReg = true ∧ (some Reg.rax : RegId) ≠ none ∧
    addqState.config.strictUnusedReg = false := by
  decide

theorem witness_RmmovqEffect_MrmovqEffect :
    popAtTop.stat = .aok ∧
    popAtTop.mapped8 (effectiveAddress (popAtTop.reg .rbx) 0) = true ∧
    popPastTop.stat = .aok ∧
    popPastTop.mapped8 (effectiveAddress (popPastTop.reg .rbx) 0) = false ∧
    popPastTop.mapped (0xFF9 + BitVec.ofNat 64 7) = false ∧
    popPastTop.mapped (0x1000 + BitVec.ofNat 64 0) = false := by
  decide

theorem witness_OpqEffect : addqState.stat = .aok ∧ (addqState.raise .adr).stat = .adr := by decide

theorem witness_JccEffect :
    addqState.stat = .aok ∧ (addqState.raise .adr).stat = .adr ∧
    ({ addqState with pc := 0x1000 } : State).mapped 0x1000 = false := by
  decide

/-- Also for PUSHQ. -/
theorem witness_CallEffect_PushqEffect :
    pushAtTop.stat = .aok ∧ pushAtTop.mapped8 (pushAtTop.reg .rsp - 8) = true ∧
    pushPastTop.stat = .aok ∧ pushPastTop.mapped8 (pushPastTop.reg .rsp - 8) = false ∧
    pushAtTop.unusedOk (some .rcx) = true ∧ pushPastTop.unusedOk none = true := by
  decide

/-- Also for POPQ. -/
theorem witness_RetEffect_PopqEffect :
    popAtTop.stat = .aok ∧ popAtTop.mapped8 (popAtTop.reg .rsp) = true ∧
    popPastTop.stat = .aok ∧ popPastTop.mapped8 (popPastTop.reg .rsp) = false ∧
    popAtTop.unusedOk (some .rcx) = true ∧ popPastTop.unusedOk none = true := by
  decide

/-- A custom map whose RAM record is longer than RAM. -/
def longRamRecord : State :=
  State.resetWith { batch with busMap := [⟨.ram, 0x100, 0x2000⟩] }

/-- No record, the first record, a later record at its last address, and a RAM record past the end of
RAM. -/
theorem witness_BusFirstMatch :
    (∀ m ∈ interactive.busMap, ¬ (m.start ≤ 0x30C0 ∧ 0x30C0 < m.stop)) ∧
    (interactive.busMap = [] ++ ⟨.ram, 0, 0x1000⟩ :: interactive.busMap.tail) ∧
    (interactive.busMap = [⟨.ram, 0, 0x1000⟩, ⟨.joystick, 0x2000, 0x2001⟩] ++
      ⟨.ppu, 0x3000, 0x30C0⟩ :: [⟨.timer, 0x4000, 0x4001⟩]) ∧
    (∀ m ∈ [(⟨.ram, 0, 0x1000⟩ : Mapping), ⟨.joystick, 0x2000, 0x2001⟩],
      ¬ (m.start ≤ 0x30BF ∧ 0x30BF < m.stop)) ∧
    (loaded interactive 0 []).mapped 0x30C0 = false ∧
    (longRamRecord.config.busMap = [] ++ ⟨.ram, 0x100, 0x2000⟩ :: [] ∧
      0x100 ≤ (0x1100 : Word).toNat ∧ (0x1100 : Word).toNat < 0x2000 ∧
      longRamRecord.config.ramSize ≤ (0x1100 : Word).toNat - 0x100) ∧
    0xFFF < longRamRecord.config.ramSize ∧ longRamRecord.config.ramSize ≤ 0x1000 := by
  decide

/-- The first and the last byte of each record of the interactive map. -/
theorem witness_DefaultMapsInRangeAndAliasFree :
    findMapping (defaultMap .interactive 0x1000) 0xFFF = some (.ram, 0xFFF) ∧
    findMapping (defaultMap .interactive 0x1000) 0x2000 = some (.joystick, 0) ∧
    findMapping (defaultMap .interactive 0x1000) 0x3000 = some (.ppu, 0) ∧
    findMapping (defaultMap .interactive 0x1000) 0x30BF = some (.ppu, 191) ∧
    findMapping (defaultMap .interactive 0x1000) 0x4000 = some (.timer, 0) ∧
    findMapping (defaultMap .interactive 0x1000) 0x4001 = none := by
  decide

theorem distinct8_of_bounded {s : State} {a : Word}
    (h : ∀ j, j < 8 → ∀ k, k < 8 → j ≠ k →
      s.resolve (a + BitVec.ofNat 64 j) = s.resolve (a + BitVec.ofNat 64 k) →
      s.resolve (a + BitVec.ofNat 64 j) = none) : s.distinct8 a :=
  fun j k hj hk hne => h j hj k hk hne

/-- An access that begins in the unmapped addresses below the PPU region: its bytes 0 to 3 miss and
its bytes 4 to 7 are writable, under both settings. -/
theorem witness_MemReadBytes_MemWriteBytes :
    (loaded interactive 0 []).config.multibyteStopAtMiss = false ∧
    (stopAtMiss (loaded interactive 0 [])).config.multibyteStopAtMiss = true ∧
    (stopAtMiss (loaded interactive 0 [])).mapped (0x2FFC + BitVec.ofNat 64 0) = false ∧
    (loaded interactive 0 []).writable (0x2FFC + BitVec.ofNat 64 4) = true ∧
    (∀ j, j < 7 → (stopAtMiss (loaded interactive 0 [])).mapped
      (0xFF9 + BitVec.ofNat 64 j) = true) ∧
    (loaded interactive 0 []).writable (0xFF9 + BitVec.ofNat 64 6) = true := by
  decide

theorem witness_MemWriteBytes_distinct :
    (loaded interactive 0 []).distinct8 0x2FFC ∧
    (stopAtMiss (loaded interactive 0 [])).distinct8 0x2FFC :=
  ⟨distinct8_of_bounded (by decide), distinct8_of_bounded (by decide)⟩

theorem witness_SuffixMissesIgnoreStopSetting :
    (loaded batch 0 []).missesAreSuffix 0xFFC ∧
    (loaded batch 0 []).mapped (0xFFC + BitVec.ofNat 64 4) = false := by
  have h : ∀ k, k < 8 → ∀ j, j < k →
      (loaded batch 0 []).mapped (0xFFC + BitVec.ofNat 64 j) = false →
      (loaded batch 0 []).mapped (0xFFC + BitVec.ofNat 64 k) = false := by decide
  exact ⟨fun j k hjk hk => h k hk j hjk, by decide⟩

theorem batch_aliasFree : mapAliasFree batch := by
  intro x y l hx hy
  have e : ∀ n, findMapping batch.busMap n = if n < 0x1000 then some (Device.ram, n) else none := by
    intro n
    simp [batch, Config.standard, defaultMap, findMapping]
  rw [e] at hx hy
  split at hx <;> split at hy <;> simp_all
  apply BitVec.eq_of_toNat_eq
  rw [← hx] at hy
  simpa using hy.symm

theorem witness_StoresOnlyAtTheirAddress :
    storeAddress pushAtTop .ret = none ∧ (∃ t, exec .ret pushAtTop = .next t) ∧
    storeAddress pushAtTop (.call 0x20) = some 0xFF8 ∧
    (∃ t, exec (.call 0x20) pushAtTop = .next t) ∧ mapAliasFree pushAtTop.config ∧
    (∀ k, k < 8 → (0xFF7 : Word) ≠ 0xFF8 + BitVec.ofNat 64 k) ∧
    (∀ k, k < 8 → pushAtTop.resolve (0xFF8 + BitVec.ofNat 64 k) = pushAtTop.resolve 0xFF7 →
      pushAtTop.resolve 0xFF7 = none) :=
  ⟨by decide, exec_next _ _, by decide, exec_next _ _, batch_aliasFree, by decide, by decide⟩

theorem witness_RegistersWrittenAreTheTables :
    (∃ t, exec (.popq (some .rbx) none) popAtTop = .next t) ∧
    Reg.rax ∉ destinations (.popq (some .rbx) none) :=
  ⟨exec_next _ _, by decide⟩

theorem witness_FlagsOwnedByArithmetic :
    writesFlags (.cmove (some .rax) (some .rbx)) = false ∧ writesFlags .ret = false ∧
    (addqState.raise .adr).stat ≠ .aok ∧
    (∃ t, exec (.addq (some .rax) (some .rbx)) (addqState.raise .adr) = .next t) ∧
    addqState.stat = .aok ∧ addqState.unusedOk none = true ∧
    (∃ t, exec (opqInstr .sub (some .rax) (some .rbx)) addqState = .next t) ∧
    (∃ t, exec (.iaddq none (some .rbx) 1) addqState = .next t) ∧
    readsFlags (.addq (some .rax) (some .rbx)) = false :=
  ⟨by decide, by decide, by decide, exec_next _ _, by decide, by decide, exec_next _ _,
    exec_next _ _, by decide⟩

/-- A store, and a cycle from two states that differ in hidden state. -/
theorem witness_HiddenDeviceStateUnreachable :
    (∃ t, exec (.rmmovq (some .rax) (some .rbx) 0) spriteState = .next t) ∧
    (∃ t, runCycle spriteState = .next t ∧ (t.stat == .aok) = true) ∧
    spriteState.withHidden { State.reset with timer := ⟨0, 7⟩, iteration := 3 } ≠ spriteState :=
  ⟨exec_next _ _, ends_next (check := fun t => t.stat == .aok) (by decide), by decide⟩

/-- Byte 0 missing, and a later byte missing, under both settings. -/
theorem witness_FetchMissOnByte0_FetchMissKeepsPcAndFlags :
    ({ addqState with pc := 0x1000 } : State).stat = .aok ∧
    ({ addqState with pc := 0x1000 } : State).mapped 0x1000 = false ∧
    irmovqAtTopOfRam.stat = .aok ∧ irmovqAtTopOfRam.fetch.ok = false ∧
    irmovqAtTopOfRam.config.fetchAdrContinues = true ∧
    decode irmovqAtTopOfRam.fetch.bytes = .instr (.irmovq none (some .rdx) 0x332211) [] ∧
    (fetchStops irmovqAtTopOfRam).stat = .aok ∧ (fetchStops irmovqAtTopOfRam).fetch.ok = false ∧
    (fetchStops irmovqAtTopOfRam).config.fetchAdrContinues = false := by
  decide

theorem witness_FetchMiss_cycle :
    ∃ t, runCycle irmovqAtTopOfRam = .next t ∧ (t.stat == .adr) = true :=
  ends_next (check := fun t => t.stat == .adr) (by decide)

/-- Also for `CallThenRet`. -/
theorem witness_PushThenPop_CallThenRet :
    pushAtTop.stat = .aok ∧ pushAtTop.unusedOk none = true ∧
    pushAtTop.writable8 (pushAtTop.reg .rsp - 8) = true ∧
    pushAtTop.distinct8 (pushAtTop.reg .rsp - 8) :=
  ⟨by decide, by decide, by decide, distinct8_of_bounded (by decide)⟩

theorem witness_TimerCountsWholePeriods :
    0 < (16667 : Nat) ∧ (⟨255, 16666⟩ : Timer).acc < 16667 ∧ 0 < (1 : Nat) ∧
    (⟨255, 0⟩ : Timer).acc < 1 ∧ ∃ t, exec .nop spriteState = .next t :=
  ⟨by decide, by decide, by decide, by decide, exec_next _ _⟩

theorem witness_SpriteRecordLayout :
    spriteState.config.busMap = defaultMap .interactive 0x1000 ∧ (0x1000 : Nat) ≤ 0x3000 ∧
    (15 : Nat) < 16 ∧ (7 : Nat) < 8 := by
  decide

theorem witness_FramebufferLayout :
    (119 : Nat) < 120 ∧ (29 : Nat) < 30 ∧ ¬ ((120 : Nat) < 120 ∧ (0 : Nat) < 30) ∧
    pixelOn (setPixel [] 119 29) 119 29 = true ∧ pixelOn (setPixel [] 119 29) 118 29 = false ∧
    setPixel [] 120 0 = [] := by
  decide

/-- The last pixel of the display, and a pixel of the source's sprite. -/
theorem witness_PpuComposesEnabledSprites :
    (119 : Nat) < 120 ∧ (29 : Nat) < 30 ∧
    pixelOn spriteState.ppuUpdate.ppu.front 4 0 = true ∧
    pixelOn spriteState.ppuUpdate.ppu.front 119 29 = false := by
  decide

/-- A run that iterates: the jump to itself at 0 reaches a cap of 2. -/
theorem witness_RunEndsByStatusOrCap :
    ends (run (loaded (Config.standard .batch 0x1000 2) 0 (0x70 :: q 0)))
      (fun t => t.stat == .aok && t.iteration == 2) = true ∧
    ends (run (loaded batch 0 [0x10, 0x00])) (fun t => t.stat == .hlt && t.iteration == 2) = true := by
  decide

/-- The last word of a RAM of 12 bytes: its bytes 4 to 7 lie past the end. -/
theorem witness_SnapshotMemIsNonzeroWords :
    (7 : Nat) < 8 ∧ 8 + 3 < (Config.standard .batch 12 10).ramSize ∧
    ¬ (8 + 4 < (Config.standard .batch 12 10).ramSize) := by
  decide

/-- STAT = ADR, with a memory stage that hits and one that misses as well. -/
theorem witness_EffectsAfterFetchMiss :
    (popAtTop.raise .adr).stat = .adr ∧
    (popAtTop.raise .adr).mapped8 ((popAtTop.raise .adr).reg .rsp) = true ∧
    (popPastTop.raise .adr).stat = .adr ∧
    (popPastTop.raise .adr).mapped8 ((popPastTop.raise .adr).reg .rsp) = false ∧
    (popAtTop.raise .adr).unusedOk (some .rcx) = true ∧
    (strict (popAtTop.raise .adr)).unusedOk none = true := by
  decide

theorem witness_LoadBytesWritesRam :
    (∃ t, (loaded batch 0 []).loadBytes 0xFFE [1, 2] = some t) ∧
    (loaded batch 0 []).loadBytes 0xFFF [1, 2] = none ∧
    (loaded batch 0 []).config.ramSize < 0xFFF + 2 :=
  ⟨⟨_, rfl⟩, by decide, by decide⟩

end Sys2Proof.Tests
end

/-! ## Proofs: the state and who owns what (10_state.md)

What an instruction and a cycle keep (`CpuStep.frame`, `exec_guarded`), what no instruction sees
(`Unseen`), and with these the statements on reset, STAT, the flags, the hidden device state and the
fetch miss. -/

namespace Sys2Proof.Machine

/-! ### The status merge -/

/-- A status other than AOK stays other than AOK whatever is merged into it (10_state.md R29). -/
theorem Stat.merge_ne_aok {a : Stat} (h : a ≠ .aok) (n : Stat) : a.merge n ≠ .aok := by
  cases a with
  | aok => exact absurd rfl h
  | ins | adr | hlt => cases n <;> decide

/-- Only HLT outranks ADR (10_state.md R27). -/
theorem Stat.merge_adr (n : Stat) : Stat.merge .adr n = .adr ∨ Stat.merge .adr n = .hlt := by
  cases n <;> decide

/-- Merging a status twice is merging it once. -/
@[simp] theorem Stat.merge_merge (a n : Stat) : (a.merge n).merge n = a.merge n := by
  cases a <;> cases n <;> rfl

/-! ### The instructions by class -/

@[simp] theorem exec_cmovInstr (c : Cond) (rA rB : RegId) (s : State) :
    exec (cmovInstr c rA rB) s = .next (cmov c rA rB s) := by
  cases c <;> rfl

@[simp] theorem exec_opqInstr (op : AluOp) (rA rB : RegId) (s : State) :
    exec (opqInstr op rA rB) s = .next (opq op rA rB s) := by
  cases op <;> rfl

@[simp] theorem exec_jccInstr (c : Cond) (dest : Word) (s : State) :
    exec (jccInstr c dest) s = .next (jcc c dest s) := by
  cases c <;> rfl

@[simp] theorem writesFlags_opqInstr (op : AluOp) (rA rB : RegId) :
    writesFlags (opqInstr op rA rB) = true := by
  cases op <;> rfl

@[simp] theorem readsFlags_cmovInstr (c : Cond) (rA rB : RegId) :
    readsFlags (cmovInstr c rA rB) = true := by
  cases c <;> rfl

@[simp] theorem readsFlags_jccInstr (c : Cond) (dest : Word) :
    readsFlags (jccInstr c dest) = true := by
  cases c <;> rfl

/-- The thirteen classes of instructions (30_encoding.md R92), for a case split with one case for all
conditions of CMOVcc and of Jcc and one for all operations of OPQ. -/
theorem Instr.classCases {motive : Instr → Prop} (halt : motive .halt) (nop : motive .nop)
    (cmov : ∀ c rA rB, motive (cmovInstr c rA rB))
    (irmovq : ∀ rA rB v, motive (.irmovq rA rB v))
    (rmmovq : ∀ rA rB d, motive (.rmmovq rA rB d))
    (mrmovq : ∀ rA rB d, motive (.mrmovq rA rB d))
    (opq : ∀ op rA rB, motive (opqInstr op rA rB))
    (jcc : ∀ c dest, motive (jccInstr c dest))
    (call : ∀ dest, motive (.call dest)) (ret : motive .ret)
    (pushq : ∀ rA rB, motive (.pushq rA rB)) (popq : ∀ rA rB, motive (.popq rA rB))
    (iaddq : ∀ rA rB v, motive (.iaddq rA rB v)) (i : Instr) : motive i := by
  cases i with
  | halt => exact halt
  | nop => exact nop
  | rrmovq rA rB => exact cmov .always rA rB
  | cmovle rA rB => exact cmov .le rA rB
  | cmovl rA rB => exact cmov .l rA rB
  | cmove rA rB => exact cmov .e rA rB
  | cmovne rA rB => exact cmov .ne rA rB
  | cmovge rA rB => exact cmov .ge rA rB
  | cmovg rA rB => exact cmov .g rA rB
  | irmovq rA rB v => exact irmovq rA rB v
  | rmmovq rA rB d => exact rmmovq rA rB d
  | mrmovq rA rB d => exact mrmovq rA rB d
  | addq rA rB => exact opq .add rA rB
  | subq rA rB => exact opq .sub rA rB
  | andq rA rB => exact opq .and rA rB
  | xorq rA rB => exact opq .xor rA rB
  | jmp dest => exact jcc .always dest
  | jle dest => exact jcc .le dest
  | jl dest => exact jcc .l dest
  | je dest => exact jcc .e dest
  | jne dest => exact jcc .ne dest
  | jge dest => exact jcc .ge dest
  | jg dest => exact jcc .g dest
  | call dest => exact call dest
  | ret => exact ret
  | pushq rA rB => exact pushq rA rB
  | popq rA rB => exact popq rA rB
  | iaddq rA rB v => exact iaddq rA rB v

/-! ### What a CPU step keeps -/

/-- A CPU step leaves the parameters, the host's side and every device alone, but for the bytes of RAM
and of the PPU configuration region. -/
theorem CpuStep.frame {s t : State} (h : CpuStep s t) :
    t.ppu.active = s.ppu.active ∧ t.ppu.back = s.ppu.back ∧ t.ppu.front = s.ppu.front ∧
    t.timer = s.timer ∧ t.joystick = s.joystick ∧ t.config = s.config ∧ t.inputs = s.inputs ∧
    t.iteration = s.iteration := by
  obtain ⟨f, cc, n, pc, r, c, rfl⟩ := h
  exact ⟨rfl, rfl, rfl, rfl, rfl, rfl, rfl, rfl⟩

/-- A CPU step merges a status into STAT. -/
theorem CpuStep.stat {s t : State} (h : CpuStep s t) : ∃ n, t.stat = s.stat.merge n := by
  obtain ⟨f, cc, n, pc, r, c, rfl⟩ := h
  exact ⟨n, rfl⟩

theorem CpuStep.of_exec {i : Instr} {s t : State} (h : exec i s = .next t) : CpuStep s t := by
  obtain ⟨u, hu, hstep⟩ := exec_cpuStep i s
  cases hu.symm.trans h
  exact hstep

/-! ### The flags and the PC -/

@[simp] theorem State.storeStage_cc (s : State) (a v : Word) : (s.storeStage a v).1.cc = s.cc := by
  obtain ⟨r, c, n, h⟩ := s.storeStage_withBytes a v
  rw [h]; rfl

@[simp] theorem State.storeStage_pc (s : State) (a v : Word) : (s.storeStage a v).1.pc = s.pc := by
  obtain ⟨r, c, n, h⟩ := s.storeStage_withBytes a v
  rw [h]; rfl

@[simp] theorem State.loadStage_cc (s : State) (a : Word) : (s.loadStage a).1.cc = s.cc := by
  simp [State.loadStage]

@[simp] theorem State.loadStage_pc (s : State) (a : Word) : (s.loadStage a).1.pc = s.pc := by
  simp [State.loadStage]

/-- `t` has the PC of `s` unless STAT = AOK in `s` (40_cycle.md R152), and the flags of `s` unless
STAT = AOK in `s` and `w` says that the instruction writes them (R142). -/
structure Guarded (w : Bool) (s t : State) : Prop where
  pc : s.stat ≠ .aok → t.pc = s.pc
  cc : w = false ∨ s.stat ≠ .aok → t.cc = s.cc

/-- Taking an exception keeps the PC and the flags. -/
theorem Guarded.raise (w : Bool) (s : State) (n : Stat) : Guarded w s (s.raise n) :=
  ⟨fun _ => rfl, fun _ => rfl⟩

/-- The PC update of a cycle, after work that keeps the PC, and the flags where it must. -/
theorem Guarded.pcUpdate {w : Bool} {s u : State} (target : Word) (hpc : u.pc = s.pc)
    (hcc : w = false ∨ s.stat ≠ .aok → u.cc = s.cc) :
    Guarded w s (u.pcUpdate s.fetchOk target) :=
  ⟨fun h => by simp [State.fetchOk, h, hpc], fun h => by simpa using hcc h⟩

/-- The PC update of a cycle with a memory stage. -/
theorem Guarded.pcUpdate_and {w : Bool} {s u : State} (ok : Bool) (target : Word)
    (hpc : u.pc = s.pc) (hcc : u.cc = s.cc) :
    Guarded w s (u.pcUpdate (s.fetchOk && ok) target) :=
  ⟨fun h => by simp [State.fetchOk, h, hpc], fun _ => by simpa using hcc⟩

/-- Work that writes the flags and one register. -/
theorem Guarded.arith (s : State) (f : CC) (r : Reg) (v target : Word) :
    Guarded true s (((s.writeCC f).setReg r v).pcUpdate s.fetchOk target) := by
  refine Guarded.pcUpdate target (by simp) fun h => ?_
  simp [h.resolve_left (by decide)]

/-- Every instruction guards the PC and the flags. -/
theorem exec_guarded {i : Instr} {s t : State} (h : exec i s = .next t) :
    Guarded (writesFlags i) s t := by
  cases i using Instr.classCases with
  | halt => cases h; exact .pcUpdate _ rfl fun _ => rfl
  | nop => cases h; exact .pcUpdate _ rfl fun _ => rfl
  | cmov c rA rB =>
    rw [exec_cmovInstr] at h
    cases h
    unfold cmov
    split
    · split <;> exact .pcUpdate _ rfl fun _ => rfl
    · exact .raise _ _ _
  | irmovq rA rB v =>
    simp only [exec, execIrmovq] at h
    split at h
    · split at h <;> cases h
      · exact .pcUpdate _ rfl fun _ => rfl
      · exact .raise _ _ _
    · cases h; exact .raise _ _ _
  | rmmovq rA rB d =>
    simp only [exec, execRmmovq] at h
    split at h <;> cases h
    · exact .pcUpdate_and _ _ (by simp) (by simp)
    · exact .raise _ _ _
  | mrmovq rA rB d =>
    simp only [exec, execMrmovq] at h
    split at h <;> cases h
    · exact .pcUpdate_and _ _ (by simp) (by simp)
    · exact .raise _ _ _
  | opq op rA rB =>
    rw [exec_opqInstr] at h
    cases h
    rw [writesFlags_opqInstr]
    unfold opq
    split
    · exact .arith _ _ _ _ _
    · exact .raise _ _ _
  | jcc c dest =>
    rw [exec_jccInstr] at h
    cases h
    exact .pcUpdate _ rfl fun _ => rfl
  | call dest => cases h; exact .pcUpdate_and _ _ (by simp) (by simp)
  | ret => cases h; exact .pcUpdate_and _ _ (by simp) (by simp)
  | pushq rA rB =>
    simp only [exec, execPushq] at h
    split at h
    · split at h <;> cases h
      · exact .pcUpdate_and _ _ (by simp) (by simp)
      · exact .raise _ _ _
    · cases h; exact .raise _ _ _
  | popq rA rB =>
    simp only [exec, execPopq] at h
    split at h
    · split at h <;> cases h
      · exact .pcUpdate_and _ _ (by simp) (by simp)
      · exact .raise _ _ _
    · cases h; exact .raise _ _ _
  | iaddq rA rB v =>
    simp only [exec, execIaddq] at h
    split at h
    · split at h <;> cases h
      · exact .arith _ _ _ _ _
      · exact .raise _ _ _
    · cases h; exact .raise _ _ _

/-! ### What no instruction sees -/

/-- `φ` rewrites only parts of the state that no instruction sees: the bus, the registers, STAT and the
PC are those of `s`, and `φ` commutes with every update of these parts. The flags may be among the parts
rewritten, so a write of the flags is asked to agree only after `φ`. -/
structure Unseen (φ : State → State) : Prop where
  idem : ∀ s, φ (φ s) = φ s
  sameBus : ∀ s, SameBus s (φ s)
  regs : ∀ s, (φ s).regs = s.regs
  stat : ∀ s, (φ s).stat = s.stat
  pc : ∀ s, (φ s).pc = s.pc
  setReg : ∀ s r v, φ (s.setReg r v) = (φ s).setReg r v
  raise : ∀ s n, φ (s.raise n) = (φ s).raise n
  setPc : ∀ s pc, φ { s with pc := pc } = { φ s with pc := pc }
  setRam : ∀ s m, φ { s with ram := m } = { φ s with ram := m }
  setPpuConfig : ∀ s m, φ { s with ppu := { s.ppu with config := m } } =
    { φ s with ppu := { (φ s).ppu with config := m } }
  writeCC : ∀ s f, φ ((φ s).writeCC f) = φ (s.writeCC f)

namespace Unseen

variable {φ : State → State} (hφ : Unseen φ)
include hφ

theorem reg (s : State) (r : Reg) : (φ s).reg r = s.reg r := by
  simp [State.reg, hφ.regs]

theorem fetchOk (s : State) : (φ s).fetchOk = s.fetchOk := by
  simp [State.fetchOk, hφ.stat]

theorem valP (s : State) (n : Nat) : (φ s).valP n = s.valP n := by
  simp [State.valP, hφ.pc]

theorem unusedOk (s : State) (r : RegId) : (φ s).unusedOk r = s.unusedOk r := by
  simp [State.unusedOk, (hφ.sameBus s).config]

theorem pcUpdate (s : State) (ok : Bool) (target : Word) :
    φ (s.pcUpdate ok target) = (φ s).pcUpdate ok target := by
  cases ok
  · rfl
  · exact hφ.setPc s target

theorem deviceWrite (s : State) (d : Device) (rel : Nat) (b : Byte) :
    (φ s).deviceWrite d rel b = (s.deviceWrite d rel b).map φ := by
  have hbus := hφ.sameBus s
  cases d with
  | ram =>
    have hsize : (φ s).config.ramSize = s.config.ramSize := by rw [hbus.config]
    simp only [State.deviceWrite, hsize, hbus.ram]
    split
    · exact congrArg some (hφ.setRam s _).symm
    · rfl
  | ppu =>
    simp only [State.deviceWrite, hbus.ppuConfig]
    split
    · exact congrArg some (hφ.setPpuConfig s _).symm
    · rfl
  | timer => rfl
  | joystick => rfl

theorem busWrite (s : State) (a : Word) (b : Byte) :
    (φ s).busWrite a b = (φ (s.busWrite a b).1, (s.busWrite a b).2) := by
  simp only [State.busWrite, (hφ.sameBus s).resolve]
  cases s.resolve a with
  | none => rfl
  | some l =>
    simp only [hφ.deviceWrite]
    cases s.deviceWrite l.1 l.2 b <;> rfl

theorem writeBytes (bs : List Byte) (s : State) (a : Word) (miss : Bool) :
    (φ s).writeBytes bs a miss = (φ (s.writeBytes bs a miss).1, (s.writeBytes bs a miss).2) := by
  induction bs generalizing s a miss with
  | nil => rfl
  | cons b bs ih =>
    simp only [State.writeBytes, (hφ.sameBus s).config, hφ.busWrite, ih]
    split <;> rfl

theorem storeStage (s : State) (a v : Word) :
    (φ s).storeStage a v = (φ (s.storeStage a v).1, (s.storeStage a v).2) := by
  simp only [State.storeStage, State.memWrite, hφ.writeBytes]
  cases (s.writeBytes (bytesLE v) a false).2
  · rfl
  · simp [hφ.raise]

theorem loadStage (s : State) (a : Word) :
    (φ s).loadStage a = (φ (s.loadStage a).1, (s.loadStage a).2) := by
  simp only [State.loadStage, (hφ.sameBus s).memRead]
  cases (s.memRead a).2
  · rfl
  · simp [hφ.raise]

/-- What `φ` rewrites does not change what an instruction does, but for the parts that `φ` rewrites.
CMOVcc and Jcc need the flags they read. -/
theorem mapNext_exec {i : Instr} {s : State} (hf : readsFlags i = false ∨ (φ s).cc = s.cc) :
    mapNext φ (exec i (φ s)) = mapNext φ (exec i s) := by
  cases i using Instr.classCases with
  | halt => simp [exec, execHalt, mapNext, hφ.fetchOk, hφ.pcUpdate, hφ.raise, hφ.idem, hφ.pc]
  | nop => simp [exec, execNop, mapNext, hφ.fetchOk, hφ.pcUpdate, hφ.valP, hφ.idem]
  | cmov c rA rB =>
    have hcc : (φ s).cc = s.cc := by simpa using hf
    simp only [exec_cmovInstr, cmov, hcc, hφ.reg, hφ.fetchOk, hφ.valP, mapNext]
    split
    · split <;> simp [hφ.pcUpdate, hφ.setReg, hφ.idem]
    · simp [hφ.raise, hφ.idem]
  | irmovq rA rB v =>
    simp only [exec, execIrmovq, hφ.unusedOk, hφ.fetchOk, hφ.valP]
    split
    · split <;> simp [mapNext, hφ.pcUpdate, hφ.setReg, hφ.raise, hφ.idem]
    · simp [mapNext, hφ.raise, hφ.idem]
  | rmmovq rA rB d =>
    simp only [exec, execRmmovq, hφ.reg, hφ.fetchOk, hφ.valP, hφ.storeStage]
    split <;> simp [mapNext, hφ.pcUpdate, hφ.raise, hφ.idem]
  | mrmovq rA rB d =>
    simp only [exec, execMrmovq, hφ.reg, hφ.fetchOk, hφ.valP, hφ.loadStage]
    split <;> simp [mapNext, hφ.pcUpdate, hφ.setReg, hφ.raise, hφ.idem]
  | opq op rA rB =>
    simp only [exec_opqInstr, opq, hφ.reg, hφ.fetchOk, hφ.valP, mapNext]
    split
    · simp [hφ.pcUpdate, hφ.setReg, hφ.writeCC]
    · simp [hφ.raise, hφ.idem]
  | jcc c dest =>
    have hcc : (φ s).cc = s.cc := by simpa using hf
    simp [jcc, hcc, mapNext, hφ.fetchOk, hφ.valP, hφ.pcUpdate, hφ.idem]
  | call dest =>
    simp [exec, execCall, mapNext, hφ.reg, hφ.fetchOk, hφ.valP, hφ.storeStage, hφ.pcUpdate,
      hφ.setReg, hφ.idem]
  | ret =>
    simp [exec, execRet, mapNext, hφ.reg, hφ.fetchOk, hφ.loadStage, hφ.pcUpdate, hφ.setReg,
      hφ.idem]
  | pushq rA rB =>
    simp only [exec, execPushq, hφ.unusedOk, hφ.reg, hφ.fetchOk, hφ.valP, hφ.storeStage]
    split
    · split <;> simp [mapNext, hφ.pcUpdate, hφ.setReg, hφ.raise, hφ.idem]
    · simp [mapNext, hφ.raise, hφ.idem]
  | popq rA rB =>
    simp only [exec, execPopq, hφ.unusedOk, hφ.reg, hφ.fetchOk, hφ.valP, hφ.loadStage]
    split
    · split <;> simp [mapNext, hφ.pcUpdate, hφ.setReg, hφ.raise, hφ.idem]
    · simp [mapNext, hφ.raise, hφ.idem]
  | iaddq rA rB v =>
    simp only [exec, execIaddq, hφ.unusedOk, hφ.reg, hφ.fetchOk, hφ.valP]
    split
    · split <;> simp [mapNext, hφ.pcUpdate, hφ.setReg, hφ.writeCC, hφ.raise, hφ.idem]
    · simp [mapNext, hφ.raise, hφ.idem]

end Unseen

/-- The flags are unseen by all instructions but those that read them. -/
theorem unseen_flags (f : CC) : Unseen fun s => { s with cc := f } where
  idem _ := rfl
  sameBus _ := ⟨rfl, rfl, rfl, rfl, rfl⟩
  regs _ := rfl
  stat _ := rfl
  pc _ := rfl
  setReg _ _ _ := rfl
  raise _ _ := rfl
  setPc _ _ := rfl
  setRam _ _ := rfl
  setPpuConfig _ _ := rfl
  writeCC s g := by unfold State.writeCC; split <;> rfl

/-- The hidden device state is unseen (10_state.md R37). -/
theorem unseen_hidden (h : State) : Unseen fun s => s.withHidden h where
  idem _ := rfl
  sameBus _ := ⟨rfl, rfl, rfl, rfl, rfl⟩
  regs _ := rfl
  stat _ := rfl
  pc _ := rfl
  setReg _ _ _ := rfl
  raise _ _ := rfl
  setPc _ _ := rfl
  setRam _ _ := rfl
  setPpuConfig _ _ := rfl
  writeCC s g := by
    by_cases hs : s.stat = .aok <;> simp [State.writeCC, State.withHidden, hs]

/-! ### The cycle -/

/-- Off AOK a cycle does nothing (40_cycle.md R120). -/
theorem runCycle_of_not_aok {s : State} (hs : s.stat ≠ .aok) : runCycle s = .next s := by
  simp [runCycle, hs]

/-- A fetch miss that ends the cycle (40_cycle.md R130). -/
theorem runCycle_of_fetchStops {s : State} (hs : s.stat = .aok) (hok : s.fetch.ok = false)
    (hc : s.config.fetchAdrContinues = false) : runCycle s = .next s.afterFetch := by
  simp [runCycle, hs, hok, hc]

/-- The bytes read hold an instruction, and it runs. -/
theorem runCycle_of_instr {s : State} {i : Instr} {rest : List Byte} (hs : s.stat = .aok)
    (hc : s.fetch.ok = true ∨ s.config.fetchAdrContinues = true)
    (hd : decode s.fetch.bytes = .instr i rest) : runCycle s = exec i s.afterFetch := by
  rcases hc with hc | hc <;> simp [runCycle, hs, hc, hd]

/-- The bytes read hold no instruction, and INS is raised (40_cycle.md R127, R133). -/
theorem runCycle_of_reject {s : State} {why : Reject} (hs : s.stat = .aok)
    (hc : s.fetch.ok = true ∨ s.config.fetchAdrContinues = true)
    (hd : decode s.fetch.bytes = .reject why) :
    runCycle s = .next (s.afterFetch.raise .ins) := by
  rcases hc with hc | hc <;> simp [runCycle, hs, hc, hd]

/-- Everything a cycle from AOK can do: end after a fetch miss, run the instruction of the bytes read,
or raise INS where they hold none. -/
theorem runCycle_cases {s : State} (hs : s.stat = .aok) :
    (s.fetch.ok = false ∧ s.config.fetchAdrContinues = false ∧ runCycle s = .next s.afterFetch) ∨
    (∃ i rest, decode s.fetch.bytes = .instr i rest ∧ runCycle s = exec i s.afterFetch) ∨
    runCycle s = .next (s.afterFetch.raise .ins) := by
  by_cases hc : s.fetch.ok = true ∨ s.config.fetchAdrContinues = true
  · cases hd : decode s.fetch.bytes with
    | instr i rest => exact .inr (.inl ⟨i, rest, rfl, runCycle_of_instr hs hc hd⟩)
    | reject why => exact .inr (.inr (runCycle_of_reject hs hc hd))
  · simp only [not_or, Bool.not_eq_true] at hc
    exact .inl ⟨hc.1, hc.2, runCycle_of_fetchStops hs hc.1 hc.2⟩

/-- A fetch miss raises ADR. -/
theorem State.afterFetch_of_miss {s : State} (hs : s.stat = .aok) (hok : s.fetch.ok = false) :
    s.afterFetch = { s with stat := .adr } := by
  simp [State.afterFetch, hok, State.raise, hs]

/-- What a cycle with a fetch miss can do: a CPU step from the state with ADR raised, that keeps the PC
and the flags. -/
theorem runCycle_fetchMiss {s t : State} (hs : s.stat = .aok) (hok : s.fetch.ok = false)
    (h : runCycle s = .next t) : CpuStep { s with stat := .adr } t ∧ t.pc = s.pc ∧ t.cc = s.cc := by
  have hfetch := State.afterFetch_of_miss hs hok
  rcases runCycle_cases hs with ⟨-, -, hrun⟩ | ⟨i, rest, -, hrun⟩ | hrun
  · cases hrun.symm.trans h
    rw [hfetch]
    exact ⟨.refl _, rfl, rfl⟩
  · have hexec : exec i { s with stat := .adr } = .next t := by rw [← hfetch, ← hrun, h]
    have hkept := exec_guarded hexec
    exact ⟨.of_exec hexec, hkept.pc (by simp), hkept.cc (.inr (by simp))⟩
  · cases hrun.symm.trans h
    rw [hfetch]
    exact ⟨(CpuStep.refl _).raise _, rfl, rfl⟩

/-! ### The hidden device state -/

/-- Hidden state that a state has already. -/
theorem State.withHidden_eq_self {s h : State} (hactive : s.ppu.active = h.ppu.active)
    (hback : s.ppu.back = h.ppu.back) (hfront : s.ppu.front = h.ppu.front)
    (hacc : s.timer.acc = h.timer.acc) (hinputs : s.inputs = h.inputs)
    (hiter : s.iteration = h.iteration) : s.withHidden h = s := by
  simp [State.withHidden, ← hactive, ← hback, ← hfront, ← hacc, ← hinputs, ← hiter]

/-- An instruction commutes with a change of the hidden state. -/
theorem exec_withHidden (i : Instr) (s h : State) :
    exec i (s.withHidden h) = mapNext (fun t => t.withHidden h) (exec i s) := by
  obtain ⟨t, ht, hstep⟩ := exec_cpuStep i (s.withHidden h)
  obtain ⟨hactive, hback, hfront, htimer, -, -, hinputs, hiter⟩ := hstep.frame
  have hself : t.withHidden h = t :=
    State.withHidden_eq_self hactive hback hfront (by rw [htimer]; rfl) hinputs hiter
  have hunseen := (unseen_hidden h).mapNext_exec (i := i) (s := s) (.inr rfl)
  rw [ht] at hunseen ⊢
  rw [← hunseen, mapNext, hself]

theorem State.afterFetch_withHidden (s h : State) :
    (s.withHidden h).afterFetch = s.afterFetch.withHidden h := by
  have hf : (s.withHidden h).fetch = s.fetch := ((unseen_hidden h).sameBus s).fetch rfl
  simp only [State.afterFetch, hf]
  cases s.fetch.ok <;> rfl

/-- A cycle commutes with a change of the hidden state. -/
theorem runCycle_withHidden (s h : State) :
    runCycle (s.withHidden h) = mapNext (fun t => t.withHidden h) (runCycle s) := by
  have hf : (s.withHidden h).fetch = s.fetch := ((unseen_hidden h).sameBus s).fetch rfl
  have hstat : (s.withHidden h).stat = s.stat := rfl
  have hconfig : (s.withHidden h).config = s.config := rfl
  simp only [runCycle, hf, hstat, hconfig, State.afterFetch_withHidden]
  split
  · split
    · rfl
    · split
      · exact exec_withHidden _ _ h
      · rfl
  · rfl

/-! ### The host's load -/

/-- A load by the host writes RAM alone (20_memory.md R54). -/
theorem State.loadBytes_eq {s t : State} {addr : Nat} {bytes : List Byte}
    (h : s.loadBytes addr bytes = some t) : t = { s with ram := s.ram.writeList addr bytes } := by
  unfold State.loadBytes at h
  split at h
  · exact (Option.some.inj h).symm
  · cases h

/-! ### The statements -/

/-- Settles O10: off AOK a cycle does nothing, and a CPU step only merges a status. -/
theorem statusIsSticky : Obligations.StatusIsSticky := by
  refine ⟨fun s => runCycle_of_not_aok, fun s t hs h => ?_, fun i s t hs h => ?_, fun s => rfl⟩
  · have hstep : step s = .next s.endIteration := by
      simp [step, iterate, runCycle_of_not_aok hs]
    cases hstep.symm.trans h
    simp
  · obtain ⟨n, hn⟩ := (CpuStep.of_exec h).stat
    rw [hn]
    exact Stat.merge_ne_aok hs n

/-- Settles O44: who writes the flags is `exec_guarded`, who reads them is `unseen_flags`. -/
theorem flagsOwnedByArithmetic : Obligations.FlagsOwnedByArithmetic := by
  refine ⟨fun i s t h hw => (exec_guarded h).cc (.inl hw),
    fun i s t h hs => (exec_guarded h).cc (.inr hs), fun op a b s t hs h => ?_,
    fun rA b v s t hs hu h => ?_,
    fun i s f hr => (unseen_flags f).mapNext_exec (.inl hr)⟩
  · rw [exec_opqInstr] at h
    cases h
    simp [opq, hs]
  · simp only [exec, execIaddq, hu, if_true] at h
    cases h
    simp [hs]

/-- Settles O45: an instruction is a CPU step, whose frame holds all hidden state, and the cycle
commutes with a change of the hidden state. -/
theorem hiddenDeviceStateUnreachable : Obligations.HiddenDeviceStateUnreachable :=
  ⟨fun _ _ _ h => (CpuStep.of_exec h).frame, runCycle_withHidden⟩

/-- Settles O48: a cycle with a fetch miss is a CPU step from ADR that keeps the PC and the flags. -/
theorem fetchMissKeepsPcAndFlags : Obligations.FetchMissKeepsPcAndFlags := by
  refine ⟨fun s t hs hok h => ?_, fun s hs hok hc => ?_, fun s i rest hs hok hc hd => ?_⟩
  · obtain ⟨hstep, hpc, hcc⟩ := runCycle_fetchMiss hs hok h
    obtain ⟨n, hn⟩ := hstep.stat
    exact ⟨hpc, hcc, hn ▸ Stat.merge_adr n, hstep.frame⟩
  · rw [runCycle_of_fetchStops hs hok hc, State.afterFetch_of_miss hs hok]
  · rw [runCycle_of_instr hs (.inr hc) hd, State.afterFetch_of_miss hs hok]

/-- Settles O1, from the reset values and the frames of the device updates and of the load. -/
theorem resetCpuState : Obligations.ResetCpuState :=
  ⟨fun _ r => RegFile.get_reset r, fun _ => ⟨rfl, rfl, rfl⟩, ⟨Config.atReset, rfl⟩,
    State.updateDevices_regs, fun _ _ _ _ h => by rw [State.loadBytes_eq h]⟩

/-- Settles O9, from the laws of the status merge. -/
theorem setStatusMerges : Obligations.SetStatusMerges := by
  refine ⟨⟨rfl, rfl, rfl, rfl⟩, ⟨rfl, rfl, rfl, rfl⟩, fun s new => rfl, fun s new => ?_, fun s => ?_⟩
  · simp [State.raise]
  · simp [State.raise, Stat.merge_aok_right]

end Sys2Proof.Machine

/-! ## Proofs: the host's load into RAM (20_memory.md)

When `load_bytes` fails and which byte stands where after it; that it writes RAM alone is
`State.loadBytes_eq`. -/

namespace Sys2Proof.Machine

/-- A load fails exactly on segment overflow (20_memory.md R54). -/
theorem State.loadBytes_eq_none_iff (s : State) (addr : Nat) (bytes : List Byte) :
    s.loadBytes addr bytes = none ↔ s.config.ramSize < addr + bytes.length := by
  simp [State.loadBytes]

/-- Byte `k` of a list written at `a` stands at `a + k`. -/
theorem Memory.read_writeList_add (m : Memory) (a : Nat) {bs : List Byte} {k : Nat}
    (hk : k < bs.length) : (m.writeList a bs).read (a + k) = bs.getD k 0 := by
  rw [Memory.read_writeList, if_pos (by omega), Nat.add_sub_cancel_left]

/-- A list written leaves every byte outside its range alone. -/
theorem Memory.read_writeList_outside (m : Memory) {a x : Nat} {bs : List Byte}
    (hx : x < a ∨ a + bs.length ≤ x) : (m.writeList a bs).read x = m.read x := by
  rw [Memory.read_writeList, if_neg (by omega)]

/-- Settles O58: a load that succeeds is one write of a byte list to RAM, and the laws of that write
say which byte stands where. -/
theorem loadBytesWritesRam : Obligations.LoadBytesWritesRam := by
  refine fun s addr bytes => ⟨s.loadBytes_eq_none_iff addr bytes, fun t h => ?_⟩
  obtain rfl := State.loadBytes_eq h
  exact ⟨fun _ => s.ram.read_writeList_add addr, fun _ => s.ram.read_writeList_outside, rfl⟩

end Sys2Proof.Machine

/-! ## Proofs: the illegal values of byte 0 (30_encoding.md)

The decoder rejects a string for its byte 0 exactly when that byte has no class, whatever follows it,
and such a byte is fetched alone. -/

namespace Sys2Proof.Machine

/-- The opcode map: the bytes without a class are the bytes outside R98's list (30_encoding.md R98). -/
theorem notMem_validByte0_iff (b : Byte) : b ∉ validByte0 ↔ classOfByte0 b = none := by
  revert b
  decide

/-- The valid numbers below 256, in order, are those of R98's list (30_encoding.md R98). -/
theorem filter_range_mem_validByte0 :
    (List.range 256).filter (fun n => decide (BitVec.ofNat 8 n ∈ validByte0)) =
      validByte0.map BitVec.toNat := by
  decide

/-- 28 of the 256 values are valid, so 228 are illegal (30_encoding.md R99). -/
theorem countP_notMem_validByte0 :
    ((List.range 256).countP fun n => decide (BitVec.ofNat 8 n ∉ validByte0)) = 228 := by
  have hvalid : (List.range 256).countP (fun n => decide (BitVec.ofNat 8 n ∈ validByte0)) = 28 := by
    rw [List.countP_eq_length_filter, filter_range_mem_validByte0]
    rfl
  have hall := (List.range 256).length_eq_countP_add_countP
    (fun n => decide (BitVec.ofNat 8 n ∈ validByte0))
  simp only [hvalid, List.length_range, decide_eq_true_eq] at hall
  omega

/-- The class of a byte 0 comes with a valid ifun (30_encoding.md R92). -/
theorem ifunValid_of_classOfByte0 {b : Byte} {c : IClass} (h : classOfByte0 b = some c) :
    ifunValid c (loNibble b) = true := by
  unfold classOfByte0 at h
  split at h
  · split at h
    · next hvalid =>
      obtain rfl := Option.some.inj h
      exact hvalid
    · cases h
  · cases h

/-- A class and a valid ifun name an instruction, whatever the fields hold (30_encoding.md R97). -/
theorem instrOf_ne_none {c : IClass} {ifun : Nibble} (h : ifunValid c ifun = true)
    (rA rB : RegId) (valC : Word) : instrOf c ifun rA rB valC ≠ none := by
  cases c with
  | cmov =>
    have hle : ifun.toNat ≤ 6 := of_decide_eq_true h
    interval_cases hn : ifun.toNat <;> simp [instrOf, cmovOf, hn]
  | opq =>
    have hle : ifun.toNat ≤ 3 := of_decide_eq_true h
    interval_cases hn : ifun.toNat <;> simp [instrOf, opqOf, hn]
  | jcc =>
    have hle : ifun.toNat ≤ 6 := of_decide_eq_true h
    interval_cases hn : ifun.toNat <;> simp [instrOf, jccOf, hn]
  | halt | nop | irmovq | rmmovq | mrmovq | call | ret | pushq | popq | iaddq => simp [instrOf]

/-- Byte 0 alone decides whether it is illegal (30_encoding.md R99). -/
theorem decode_eq_illegalByte0_iff (b : Byte) (rest : List Byte) :
    decode (b :: rest) = .reject .illegalByte0 ↔ b ∉ validByte0 := by
  rw [notMem_validByte0_iff]
  constructor
  · intro h
    cases hc : classOfByte0 b with
    | none => rfl
    | some c =>
      have hinstr := instrOf_ne_none (ifunValid_of_classOfByte0 hc)
      simp only [decode, hc] at h
      split at h
      · cases h
      · split at h
        · cases h
        · split at h
          · next hnone => exact absurd hnone (hinstr _ _ _)
          · split at h <;> cases h
  · intro hc
    simp [decode, hc]

/-- An illegal byte 0 is read alone (40_cycle.md R127). -/
theorem State.fetch_of_illegalByte0 {s : State} {b : Byte}
    (hbus : s.busRead s.pc = { data := b, miss := false }) (hb : b ∉ validByte0) :
    s.fetch = ⟨[b], true⟩ := by
  simp [State.fetch, hbus, (notMem_validByte0_iff b).mp hb]

/-- A fetch without a miss leaves the state alone. -/
theorem State.afterFetch_of_ok {s : State} (hok : s.fetch.ok = true) : s.afterFetch = s := by
  simp [State.afterFetch, State.raiseIf, hok]

/-- A cycle that reads its bytes without a miss and finds no instruction in them sets STAT to INS and
changes nothing else (40_cycle.md R127, R133). -/
theorem runCycle_of_ok_of_reject {s : State} {why : Reject} (hs : s.stat = .aok)
    (hok : s.fetch.ok = true) (hd : decode s.fetch.bytes = .reject why) :
    runCycle s = .next { s with stat := .ins } := by
  rw [runCycle_of_reject hs (.inl hok) hd, State.afterFetch_of_ok hok, State.raise, hs]
  rfl

/-- A cycle that fetches an illegal byte 0 sets STAT to INS and changes nothing else
(30_encoding.md R99). -/
theorem runCycle_of_illegalByte0 {s : State} {b : Byte} (hs : s.stat = .aok)
    (hbus : s.busRead s.pc = { data := b, miss := false }) (hb : b ∉ validByte0) :
    runCycle s = .next { s with stat := .ins } := by
  have hfetch := State.fetch_of_illegalByte0 hbus hb
  refine runCycle_of_ok_of_reject (why := .illegalByte0) hs (by rw [hfetch]) ?_
  rw [hfetch]
  exact (decode_eq_illegalByte0_iff b []).mpr hb

/-- Settles O16: the decoder rejects byte 0 exactly outside the opcode map, and a cycle that fetches
such a byte reads nothing more. -/
theorem illegalByte0RaisesIns : Obligations.IllegalByte0RaisesIns :=
  ⟨notMem_validByte0_iff,
   fun b rest => (decode_eq_illegalByte0_iff b rest).mpr,
   fun b rest hb h => (decode_eq_illegalByte0_iff b rest).mp h hb,
   countP_notMem_validByte0,
   fun _ _ hs hbus hb => runCycle_of_illegalByte0 hs hbus hb⟩

end Sys2Proof.Machine

/-! ## Proofs: RNONE, CMOVcc and Jcc (40_cycle.md, 42_moves.md, 44_control.md)

RNONE in a required field, the condition table, the two classes of instructions that read it, and the
cycle at an unmapped PC, where a jump to an unmapped target shows. -/

namespace Sys2Proof.Machine

/-! ### The required register fields -/

@[simp] theorem wellFormed_cmovInstr (c : Cond) (rA rB : RegId) :
    (cmovInstr c rA rB).wellFormed = (rA.isSome && rB.isSome) := by
  cases c <;> simp [cmovInstr, Instr.wellFormed, Instr.requiredFields]

@[simp] theorem wellFormed_opqInstr (op : AluOp) (rA rB : RegId) :
    (opqInstr op rA rB).wellFormed = (rA.isSome && rB.isSome) := by
  cases op <;> simp [opqInstr, Instr.wellFormed, Instr.requiredFields]

@[simp] theorem wellFormed_rmmovq (rA rB : RegId) (d : Word) :
    (Instr.rmmovq rA rB d).wellFormed = (rA.isSome && rB.isSome) := by
  simp [Instr.wellFormed, Instr.requiredFields]

@[simp] theorem wellFormed_mrmovq (rA rB : RegId) (d : Word) :
    (Instr.mrmovq rA rB d).wellFormed = (rA.isSome && rB.isSome) := by
  simp [Instr.wellFormed, Instr.requiredFields]

@[simp] theorem wellFormed_jccInstr (c : Cond) (dest : Word) :
    (jccInstr c dest).wellFormed = true := by
  cases c <;> rfl

/-- A check of two fields fails exactly when one of them holds RNONE (40_cycle.md R132). -/
theorem isSome_and_isSome_eq_false {rA rB : RegId} :
    (rA.isSome && rB.isSome) = false ↔ rA = none ∨ rB = none := by
  cases rA <;> cases rB <;> simp

/-- CMOVcc checks both fields, whether or not the move is taken (42_moves.md R180). -/
theorem cmov_of_rnone {rA rB : RegId} (h : rA = none ∨ rB = none) (c : Cond) (s : State) :
    cmov c rA rB s = s.raise .ins := by
  rcases h with rfl | rfl
  · rfl
  · cases rA <;> rfl

/-- OPQ checks both fields (43_arith.md R200). -/
theorem opq_of_rnone {rA rB : RegId} (h : rA = none ∨ rB = none) (op : AluOp) (s : State) :
    opq op rA rB s = s.raise .ins := by
  rcases h with rfl | rfl
  · rfl
  · cases rA <;> rfl

/-- RMMOVQ checks both fields (42_moves.md R189). -/
theorem execRmmovq_of_rnone {rA rB : RegId} (h : rA = none ∨ rB = none) (d : Word) (s : State) :
    execRmmovq rA rB d s = .next (s.raise .ins) := by
  rcases h with rfl | rfl
  · rfl
  · cases rA <;> rfl

/-- MRMOVQ checks both fields (42_moves.md R190). -/
theorem execMrmovq_of_rnone {rA rB : RegId} (h : rA = none ∨ rB = none) (d : Word) (s : State) :
    execMrmovq rA rB d s = .next (s.raise .ins) := by
  rcases h with rfl | rfl
  · rfl
  · cases rA <;> rfl

/-- RNONE in a required field raises INS and nothing else happens (40_cycle.md R133). -/
theorem exec_of_not_wellFormed {i : Instr} (h : i.wellFormed = false) (s : State) :
    exec i s = .next (s.raise .ins) := by
  cases i using Instr.classCases with
  | halt | nop | call | ret => cases h
  | jcc c dest => simp at h
  | cmov c rA rB =>
    rw [wellFormed_cmovInstr, isSome_and_isSome_eq_false] at h
    rw [exec_cmovInstr, cmov_of_rnone h]
  | opq op rA rB =>
    rw [wellFormed_opqInstr, isSome_and_isSome_eq_false] at h
    rw [exec_opqInstr, opq_of_rnone h]
  | rmmovq rA rB d =>
    rw [wellFormed_rmmovq, isSome_and_isSome_eq_false] at h
    rw [exec, execRmmovq_of_rnone h]
  | mrmovq rA rB d =>
    rw [wellFormed_mrmovq, isSome_and_isSome_eq_false] at h
    rw [exec, execMrmovq_of_rnone h]
  | irmovq rA rB v | iaddq rA rB v =>
    obtain rfl : rB = none := by simpa [Instr.wellFormed, Instr.requiredFields] using h
    rfl
  | pushq rA rB | popq rA rB =>
    obtain rfl : rA = none := by simpa [Instr.wellFormed, Instr.requiredFields] using h
    rfl

/-- RNONE is the field value 0xF and no other (10_state.md R20, R21). -/
theorem regIdOf_eq_none_iff (n : Nibble) : regIdOf n = none ↔ n = 0xF := by
  constructor
  · intro h
    rw [← fieldNibble_regIdOf n, h]
    rfl
  · rintro rfl
    rfl

/-! ### The condition table and the instructions that read it -/

/-- The conditions are those of the table (40_cycle.md R140). -/
theorem cond_conditionTable : conditionTable :=
  fun _ _ _ => ⟨rfl, rfl, rfl, rfl, rfl, rfl, rfl⟩

/-- CMOVcc in a cycle that fetched without a miss (42_moves.md R180). -/
theorem cmov_of_aok {s : State} (hs : s.stat = .aok) (c : Cond) (a b : Reg) :
    cmov c (some a) (some b) s = { s with
      regs := if s.cc.cond c then s.regs.set b (s.reg a) else s.regs
      pc := s.pc + 2 } := by
  simp only [cmov, State.fetchOk_of_aok hs, State.pcUpdate_true]
  split <;> rfl

/-- Jcc in a cycle that fetched without a miss (44_control.md R220). -/
theorem jcc_of_aok {s : State} (hs : s.stat = .aok) (c : Cond) (dest : Word) :
    jcc c dest s = { s with pc := if s.cc.cond c then dest else s.pc + 9 } := by
  rw [jcc, State.fetchOk_of_aok hs, State.pcUpdate_true]
  rfl

/-- The guard of the PC update is clear once STAT is not AOK (40_cycle.md R124, R152). -/
theorem State.fetchOk_of_not_aok {s : State} (hs : s.stat ≠ .aok) : s.fetchOk = false := by
  simp [State.fetchOk, hs]

/-- Jcc after a fetch miss does nothing (40_cycle.md R152). -/
theorem jcc_of_not_aok {s : State} (hs : s.stat ≠ .aok) (c : Cond) (dest : Word) :
    jcc c dest s = s := by
  rw [jcc, State.fetchOk_of_not_aok hs, State.pcUpdate_false]

theorem encode_cmovInstr (c : Cond) (rA rB : RegId) :
    encode (cmovInstr c rA rB) = [BitVec.ofNat 8 (0x20 + condIfun c), regByte rA rB] := by
  cases c <;> rfl

theorem encode_jccInstr (c : Cond) (dest : Word) :
    encode (jccInstr c dest) = BitVec.ofNat 8 (0x70 + condIfun c) :: bytesLE dest := by
  cases c <;> rfl

/-! ### The ranges of illegal values of byte 0 -/

/-- A range that no byte of the opcode map lies in holds illegal values only (30_encoding.md R99). -/
theorem rejectsByte0_of_forall_validByte0 {lo hi : Nat}
    (h : ∀ b ∈ validByte0, b.toNat < lo ∨ hi < b.toNat) : rejectsByte0 lo hi := by
  intro b hlo hhi
  have hb : b ∉ validByte0 := fun hmem => by
    rcases h b hmem with hlt | hlt <;> omega
  exact ⟨fun rest => (decode_eq_illegalByte0_iff b rest).mpr hb,
    fun _ hs hbus => runCycle_of_illegalByte0 hs hbus hb⟩

/-! ### A cycle at an unmapped PC -/

/-- A read that misses answers 0 (20_memory.md R56). -/
theorem State.busRead_of_not_mapped {s : State} {a : Word} (h : s.mapped a = false) :
    s.busRead a = ⟨0, true⟩ := by
  simp only [State.mapped, Bool.not_eq_false'] at h
  unfold State.busRead at h ⊢
  split at h
  · rfl
  · split at h
    · rfl
    · cases h

/-- A miss on byte 0 reads as the one byte of `halt` (40_cycle.md R124). -/
theorem State.fetch_of_not_mapped {s : State} (h : s.mapped s.pc = false) :
    s.fetch = ⟨encode .halt, false⟩ := by
  rw [State.fetch, State.busRead_of_not_mapped h]
  rfl

/-- A miss on byte 0 raises ADR, and HLT over it where the cycle goes on and runs the `halt` it read
(40_cycle.md R130, 41_halt_nop.md R170). -/
theorem runCycle_of_not_mapped {s : State} (hs : s.stat = .aok) (h : s.mapped s.pc = false) :
    runCycle s = .next { s with stat := if s.config.fetchAdrContinues then .hlt else .adr } := by
  have hfetch := State.fetch_of_not_mapped h
  have hok : s.fetch.ok = false := by rw [hfetch]
  cases hc : s.config.fetchAdrContinues with
  | false =>
    rw [runCycle_of_fetchStops hs hok hc, State.afterFetch_of_miss hs hok]
    rfl
  | true =>
    have hd : decode s.fetch.bytes = .instr .halt [] := by rw [hfetch]; rfl
    rw [runCycle_of_instr hs (.inr hc) hd, State.afterFetch_of_miss hs hok]
    rfl

/-! ### The statements -/

/-- Settles O17: the instructions by class, and a cycle that reads its bytes without a miss and rejects
them. -/
theorem rnoneRaisesIns : Obligations.RnoneRaisesIns :=
  ⟨fun _ s h => exec_of_not_wellFormed h s, regIdOf_eq_none_iff,
   fun _ => runCycle_of_ok_of_reject⟩

/-- Settles O23: all seven instructions are `cmov` at their condition. -/
theorem cmovEffect : Obligations.CmovEffect := by
  refine ⟨fun c a b s hs => ?_, cond_conditionTable, fun c rA rB s h => ?_, encode_cmovInstr,
    rejectsByte0_of_forall_validByte0 (by decide)⟩
  · rw [exec_cmovInstr, cmov_of_aok hs]
  · rw [exec_cmovInstr, cmov_of_rnone h]

/-- Settles O29: all seven instructions are `jcc` at their condition, and an unmapped target misses on
byte 0 of the next fetch. -/
theorem jccEffect : Obligations.JccEffect := by
  refine ⟨fun c dest s hs => ?_, fun c dest s hs => ?_, cond_conditionTable,
    fun _ => runCycle_of_not_mapped, encode_jccInstr,
    rejectsByte0_of_forall_validByte0 (by decide)⟩
  · rw [exec_jccInstr, jcc_of_aok hs]
  · rw [exec_jccInstr, jcc_of_not_aok (by simp [hs])]

end Sys2Proof.Machine

/-! ## Proofs: HALT and NOP (41_halt_nop.md)

What `halt` does from any STAT and `nop` from AOK, and the statements on their effect. -/

namespace Sys2Proof.Machine

/-- `halt` takes the exception and its PC update writes back the address it stands at, whether or not
the fetch missed (41_halt_nop.md R170). -/
theorem exec_halt (s : State) : exec .halt s = .next (s.raise .hlt) :=
  congrArg Host.Outcome.next (State.pcUpdate_self (s.raise .hlt) s.fetchOk)

/-- `nop` in a cycle that fetched without a miss (41_halt_nop.md R171). -/
theorem exec_nop_of_aok {s : State} (hs : s.stat = .aok) :
    exec .nop s = .next { s with pc := s.pc + 1 } := by
  rw [exec, execNop, State.fetchOk_of_aok hs, State.pcUpdate_true]
  rfl

/-- Settles O21: `halt` is the raise of HLT, which from AOK sets STAT and after which no cycle runs;
an unmapped PC reads as the byte of `halt`. -/
theorem haltEffect : Obligations.HaltEffect := by
  refine ⟨fun s hs => ?_, fun s => runCycle_of_not_aok (by simp), rfl,
    rejectsByte0_of_forall_validByte0 (by decide), fun s hs hc hm => ?_⟩
  · rw [exec_halt, State.raise, hs, Stat.merge_aok_left]
  · rw [runCycle_of_not_mapped hs hm, hc, if_pos rfl]

/-- Settles O22: from AOK the PC update is all that `nop` does. -/
theorem nopEffect : Obligations.NopEffect :=
  ⟨fun _ => exec_nop_of_aok, rfl, rejectsByte0_of_forall_validByte0 (by decide)⟩

end Sys2Proof.Machine

/-! ## Proofs: IADDQ (43_arith.md)

The write of the flags by STAT, the check of the unused register field by parameter, the flags of an
add by bits, and the statement on the effect of `iaddq`. -/

namespace Sys2Proof.Machine

/-- The flags are written at STAT = AOK (40_cycle.md R142). -/
theorem State.writeCC_of_aok {s : State} (hs : s.stat = .aok) (f : CC) :
    s.writeCC f = { s with cc := f } :=
  if_pos hs

/-- The flags are not written at any other STAT (40_cycle.md R142). -/
theorem State.writeCC_of_not_aok {s : State} (hs : s.stat ≠ .aok) (f : CC) : s.writeCC f = s :=
  if_neg hs

/-- Without `STRICT_UNUSED_REG` an unused register field is not checked (40_cycle.md R134). -/
theorem State.unusedOk_of_not_strict {s : State} (h : s.config.strictUnusedReg = false)
    (r : RegId) : s.unusedOk r = true := by
  simp [State.unusedOk, h]

/-- Under `STRICT_UNUSED_REG` a register in an unused field fails the check (40_cycle.md R134). -/
theorem State.unusedOk_of_strict {s : State} (h : s.config.strictUnusedReg = true) {r : RegId}
    (hr : r ≠ none) : s.unusedOk r = false := by
  simpa [State.unusedOk, h] using Option.isSome_iff_ne_none.mpr hr

/-- The flags of an add, by bit 63 of the operands and of the sum (40_cycle.md R141). -/
theorem aluFlags_add (b a : Word) : aluFlags .add b a =
    { zf := b + a == 0
      sf := (b + a).getLsbD 63
      of := (a.getLsbD 63 == b.getLsbD 63) && ((b + a).getLsbD 63 != a.getLsbD 63) } := by
  simp only [aluFlags, alu, overflow, BitVec.msb_eq_getLsbD_last]

/-- `iaddq` where both register fields pass: the add, its flags and the PC update (43_arith.md
R205). -/
theorem exec_iaddq_of_unusedOk {s : State} {rA : RegId} (hu : s.unusedOk rA = true) (b : Reg)
    (v : Word) :
    exec (.iaddq rA (some b) v) s =
      .next (((s.writeCC (aluFlags .add (s.reg b) v)).setReg b (s.reg b + v)).pcUpdate
        s.fetchOk (s.pc + 10)) :=
  if_pos hu

/-- `iaddq` where the unused field fails its check: INS, whether or not rB passes (43_arith.md
R205). -/
theorem exec_iaddq_of_not_unusedOk {s : State} {rA : RegId} (hu : s.unusedOk rA = false)
    (rB : RegId) (v : Word) : exec (.iaddq rA rB v) s = .next (s.raise .ins) := by
  cases rB with
  | none => rfl
  | some b => simp [exec, execIaddq, hu]

/-- Settles O28: STAT decides whether the flags and the PC are written beside rB, and the check of
each register field raises INS alone. -/
theorem iaddqEffect : Obligations.IaddqEffect := by
  refine ⟨fun rA b v s hs hu => ?_, fun rA b v s hs hu => ?_, fun _ _ _ => rfl,
    fun rA rB v s hc hr => exec_iaddq_of_not_unusedOk (State.unusedOk_of_strict hc hr) rB v,
    fun _ => State.unusedOk_of_not_strict, fun _ _ _ => rfl,
    rejectsByte0_of_forall_validByte0 (by decide)⟩
  · rw [exec_iaddq_of_unusedOk hu, State.writeCC_of_aok hs, State.fetchOk_of_aok hs,
      State.pcUpdate_true, aluFlags_add]
    rfl
  · have hna : s.stat ≠ .aok := by simp [hs]
    rw [exec_iaddq_of_unusedOk hu, State.writeCC_of_not_aok hna, State.fetchOk_of_not_aok hna,
      State.pcUpdate_false]
    rfl

end Sys2Proof.Machine

/-! ## Proofs: POPQ (45_stack.md)

The bytes of an assembled word one by one, the byte that a missed address contributes to a read, the
two outcomes of the register-field checks of `popq`, and the statement on its effect. -/

namespace Sys2Proof.Machine

/-! ### The bytes of a word read -/

/-- Byte 0 of an assembled word is the first byte (00_scope.md R13). -/
theorem byteOf_zero_le64_cons (b : Byte) (bs : List Byte) : byteOf 0 (le64 (b :: bs)) = b := by
  refine BitVec.eq_of_getLsbD_eq fun i hi => ?_
  have hi64 : i < 64 := by omega
  simp [byteOf, le64, hi, hi64]

/-- The later bytes of an assembled word are those of the rest of the list (00_scope.md R13). -/
theorem byteOf_succ_le64_cons (b : Byte) (bs : List Byte) {k : Nat} (hk : k + 1 < 8) :
    byteOf (k + 1) (le64 (b :: bs)) = byteOf k (le64 bs) := by
  refine BitVec.eq_of_getLsbD_eq fun i hi => ?_
  have hpos : 8 * (k + 1) + i = 8 * k + i + 8 := by omega
  have hlt : 8 * k + i + 8 < 64 := by omega
  have hlt' : 8 * k + i < 64 := by omega
  simp [byteOf, le64, hpos, hlt, hi, BitVec.getLsbD_eq_getElem hlt']

/-- Byte `k` of an assembled word is entry `k` of the list, 0 past its end (00_scope.md R13). -/
theorem byteOf_le64_eq_getD (bs : List Byte) {k : Nat} (hk : k < 8) :
    byteOf k (le64 bs) = bs.getD k 0 := by
  induction bs generalizing k with
  | nil => simp [byteOf, le64]
  | cons b bs ih =>
    cases k with
    | zero => exact byteOf_zero_le64_cons b bs
    | succ k => rw [byteOf_succ_le64_cons b bs hk, ih (by omega), List.getD_cons_succ]

/-- The addresses of an access from `a`, counted from the next one. -/
theorem add_ofNat_succ (a : Word) (k : Nat) :
    a + BitVec.ofNat 64 (k + 1) = a + 1 + BitVec.ofNat 64 k := by
  rw [Nat.add_comm k 1, BitVec.ofNat_add, ← BitVec.add_assoc]
  rfl

/-- An address that misses contributes 0 to a read, whether the bus answers it or
`MULTIBYTE_STOP_AT_MISS` leaves it out (20_memory.md R70). -/
theorem State.readBytes_getD_of_not_mapped (n : Nat) {s : State} {a : Word} {k : Nat} (miss : Bool)
    (h : s.mapped (a + BitVec.ofNat 64 k) = false) : (s.readBytes n a miss).1.getD k 0 = 0 := by
  induction n generalizing a k miss with
  | zero => rfl
  | succ n ih =>
    cases k with
    | zero =>
      have hread : (s.busRead a).data = 0 := by
        rw [State.busRead_of_not_mapped (by simpa using h)]
      rw [State.readBytes]
      split
      · rfl
      · exact hread
    | succ k =>
      rw [add_ofNat_succ] at h
      rw [State.readBytes]
      split <;> exact ih _ h

/-- A word read has 0 in every byte whose address misses (20_memory.md R70, 40_cycle.md R148). -/
theorem State.byteOf_memRead_of_not_mapped {s : State} {a : Word} {k : Nat} (hk : k < 8)
    (h : s.mapped (a + BitVec.ofNat 64 k) = false) : byteOf k (s.memRead a).1 = 0 := by
  rw [State.memRead, byteOf_le64_eq_getD _ hk]
  exact State.readBytes_getD_of_not_mapped 8 false h

/-! ### The statement -/

/-- `popq` where both register fields pass: the load at the old RSP, RSP and then rA written, and the
PC update (45_stack.md R241). -/
theorem exec_popq_of_unusedOk {s : State} {rB : RegId} (hu : s.unusedOk rB = true) (a : Reg) :
    exec (.popq (some a) rB) s =
      .next ((((s.loadStage (s.reg .rsp)).1.setReg .rsp (s.reg .rsp + 8)).setReg a
        (s.memRead (s.reg .rsp)).1).pcUpdate
          (s.fetchOk && (s.loadStage (s.reg .rsp)).2.2) (s.pc + 2)) :=
  if_pos hu

/-- `popq` where the unused field fails its check: INS, whether or not rA passes (45_stack.md
R241). -/
theorem exec_popq_of_not_unusedOk {s : State} {rB : RegId} (hu : s.unusedOk rB = false)
    (rA : RegId) : exec (.popq rA rB) s = .next (s.raise .ins) := by
  cases rA with
  | none => rfl
  | some a => simp [exec, execPopq, hu]

/-- Settles O33: the load stage decides whether ADR is raised or the PC updated beside RSP and rA, and
the check of each register field raises INS alone. -/
theorem popqEffect : Obligations.PopqEffect := by
  refine ⟨fun a rB s hs hu hm => ?_, fun a rB s hs hu hm => ?_,
    fun _ _ _ => State.byteOf_memRead_of_not_mapped, fun f => f.set_set .rsp, fun _ _ => rfl,
    fun rA rB s hc hr => exec_popq_of_not_unusedOk (State.unusedOk_of_strict hc hr) rA,
    fun _ => State.unusedOk_of_not_strict, fun _ _ => rfl,
    rejectsByte0_of_forall_validByte0 (by decide)⟩
  · rw [exec_popq_of_unusedOk hu, State.loadStage_eq, hm, State.fetchOk_of_aok hs]
    rfl
  · rw [exec_popq_of_unusedOk hu, State.loadStage_eq, hm, Bool.and_false, State.pcUpdate_false,
      if_neg Bool.false_ne_true, State.raise, hs]
    rfl

end Sys2Proof.Machine

/-! ## Proofs: the devices (60_exceptions.md)

Timer updates compose, so that a sequence of them is one update by the total time; the bytes of a
sprite record and where the interactive map puts them; and a framebuffer as an array of bits. With
these the statements on the timer, the sprite record and the framebuffer. -/

namespace Sys2Proof.Machine

/-! ### The timer -/

/-- Two updates are one update by the sum of their times: the residual is carried, so that jitter
does not accumulate (60_exceptions.md R291). -/
theorem Timer.advance_advance (t : Timer) {p : Nat} (hp : 0 < p) (d e : Nat) :
    (t.advance p d).advance p e = t.advance p (d + e) := by
  have hcount : (t.acc + (d + e)) / p = (t.acc + d) / p + ((t.acc + d) % p + e) / p := by
    rw [← Nat.mul_add_div hp, ← Nat.add_assoc (p * _), Nat.div_add_mod, Nat.add_assoc]
  simp only [Timer.advance, hcount, BitVec.ofNat_add, BitVec.add_assoc, Nat.mod_add_mod,
    Nat.add_assoc]

/-- An update by no time changes nothing where the residual is below the period. -/
theorem Timer.advance_zero {t : Timer} {p : Nat} (h : t.acc < p) : t.advance p 0 = t := by
  simp [Timer.advance, Nat.div_eq_of_lt h, Nat.mod_eq_of_lt h]

/-- A sequence of updates is one update by the total elapsed time (60_exceptions.md R291). -/
theorem Timer.foldl_advance {p : Nat} (hp : 0 < p) (deltas : List Nat) {t : Timer} (h : t.acc < p) :
    deltas.foldl (fun t d => t.advance p d) t = t.advance p deltas.sum := by
  induction deltas generalizing t with
  | nil => exact (Timer.advance_zero h).symm
  | cons d ds ih =>
    have hacc : (t.advance p d).acc < p := Nat.mod_lt _ hp
    rw [List.foldl_cons, ih hacc, Timer.advance_advance t hp, List.sum_cons]

/-- The tick byte counts the whole periods modulo 256 (60_exceptions.md R291). -/
theorem Timer.toNat_byte_advance (t : Timer) (p d : Nat) :
    (t.advance p d).byte.toNat = (t.byte.toNat + (t.acc + d) / p) % 256 := by
  simp [Timer.advance]

/-- Settles O51: a sequence of updates is one update by the total time, and a CPU step keeps the
timer. -/
theorem timerCountsWholePeriods : Obligations.TimerCountsWholePeriods := by
  refine ⟨fun t p deltas hp hacc => ?_, fun _ _ => rfl, fun i s t h => ?_,
    fun s b => ⟨s.ppuUpdate_timer, s.joystickUpdate_timer b⟩⟩
  · rw [Timer.foldl_advance hp deltas hacc]
    exact ⟨t.toNat_byte_advance p _, rfl⟩
  · obtain ⟨-, -, -, htimer, -⟩ := (CpuStep.of_exec h).frame
    exact htimer

/-! ### The sprite record -/

/-- The address bytes of a record are its bytes 0 to 7, little-endian (60_exceptions.md R271). -/
theorem byteOf_spriteRecord_addr (m : Memory) (i : Nat) {k : Nat} (hk : k < 8) :
    byteOf k (spriteRecord m i).addr = m.read (12 * i + k) := by
  have haddr : (spriteRecord m i).addr =
      le64 ((List.range 8).map fun j => m.read (12 * i + j)) := rfl
  rw [haddr, byteOf_le64_eq_getD _ hk]
  simp [hk]

/-- The interactive map routes relative byte `rel` of the PPU region to 0x3000 + rel, where RAM does
not shadow it (20_memory.md R62, R63). -/
theorem State.busRead_ppuRegion {s : State} {n rel : Nat}
    (hmap : s.config.busMap = defaultMap .interactive n) (hn : n ≤ 0x3000)
    (hrel : rel < ppuConfigSize) :
    s.busRead (BitVec.ofNat 64 (0x3000 + rel)) = ⟨s.ppu.config.read rel, false⟩ := by
  have hsize : rel < 192 := hrel
  have haddr : (BitVec.ofNat 64 (0x3000 + rel)).toNat = 0x3000 + rel := by
    rw [BitVec.toNat_ofNat, Nat.mod_eq_of_lt (by omega)]
  have hresolve : s.resolve (BitVec.ofNat 64 (0x3000 + rel)) = some (.ppu, rel) := by
    have hram : ¬ 0x3000 + rel < n := by omega
    have hjoystick : ¬ 0x3000 + rel < 0x2001 := by omega
    have hppu : 0x3000 + rel < 0x30C0 := by omega
    simp [State.resolve, hmap, haddr, defaultMap, findMapping, hram, hjoystick, hppu]
  simp [State.busRead, hresolve, State.deviceRead, hrel]

/-- A sprite is disabled exactly when one of its sides is 0 (60_exceptions.md R272). -/
theorem Sprite.enabled_eq_false_iff (p : Sprite) :
    p.enabled = false ↔ p.width = 0 ∨ p.height = 0 := by
  rw [Sprite.enabled, Bool.and_eq_false_iff, bne_eq_false_iff_eq, bne_eq_false_iff_eq]

/-- Settles O53: every address named is 0x3000 plus a relative byte of the region. -/
theorem spriteRecordLayout : Obligations.SpriteRecordLayout := by
  refine ⟨fun m i _ _ => byteOf_spriteRecord_addr m i, fun s n i k hmap hn hi hk => ?_,
    Sprite.enabled_eq_false_iff⟩
  have hread : ∀ j a, j < 12 → a = 0x3000 + (12 * i + j) →
      (s.busRead (BitVec.ofNat 64 a)).data = s.ppu.config.read (12 * i + j) := by
    rintro j _ hj rfl
    rw [State.busRead_ppuRegion hmap hn (show 12 * i + j < 192 by omega)]
  rw [byteOf_spriteRecord_addr _ _ hk]
  exact ⟨hread k _ (by omega) (by omega), hread 8 _ (by decide) (by omega),
    hread 9 _ (by decide) (by omega), hread 10 _ (by decide) (by omega),
    hread 11 _ (by decide) (by omega)⟩

/-! ### The framebuffer -/

/-- Turning on bit `i` of a byte array turns on that bit and no other. -/
theorem Memory.getLsbD_write_bit (m : Memory) (i j : Nat) :
    ((m.write (i / 8) (m.read (i / 8) ||| (1#8 <<< (i % 8)))).read (j / 8)).getLsbD (j % 8) =
      ((m.read (j / 8)).getLsbD (j % 8) || decide (j = i)) := by
  rw [Memory.read_write]
  split
  · next hbyte =>
    have hindex : i % 8 = j % 8 ↔ j = i := by omega
    have hi : i % 8 < 8 := Nat.mod_lt i (by decide)
    rw [BitVec.getLsbD_or, ← BitVec.twoPow_eq, BitVec.getLsbD_twoPow, decide_eq_true hi,
      Bool.true_and, decide_eq_decide.mpr hindex, hbyte]
  · next hbyte =>
    have hne : j ≠ i := fun h => hbyte (h ▸ rfl)
    simp [hne]

/-- The bit index tells the pixels of the display apart (60_exceptions.md R274). -/
theorem pixelIndex_inj {x y x' y' : Nat} (hx : x < displayWidth) (hx' : x' < displayWidth) :
    pixelIndex x' y' = pixelIndex x y ↔ x' = x ∧ y' = y := by
  simp only [pixelIndex, displayWidth] at *
  omega

/-- `set_pixel` inside the display turns on its pixel and no other (60_exceptions.md R280). -/
theorem pixelOn_setPixel (fb : Memory) {x y x' y' : Nat} (hx : x < displayWidth)
    (hy : y < displayHeight) (hx' : x' < displayWidth) :
    pixelOn (setPixel fb x y) x' y' =
      (pixelOn fb x' y' || (decide (x' = x) && decide (y' = y))) := by
  rw [setPixel, if_pos ⟨hx, hy⟩, pixelOn, Memory.getLsbD_write_bit, ← Bool.decide_and,
    decide_eq_decide.mpr (pixelIndex_inj hx hx'), pixelOn]

/-- Settles O54: a pixel is the bit at its index, and the index is one-to-one on the display. -/
theorem framebufferLayout : Obligations.FramebufferLayout :=
  ⟨fun _ _ _ => rfl, fun _ _ _ _ => by omega,
    fun fb _ _ _ _ hx hy hx' _ => pixelOn_setPixel fb hx hy hx', fun _ _ _ h => if_neg h⟩

end Sys2Proof.Machine

/-! ## Proofs: the encoding as a round trip (30_encoding.md)

Decoding what the encoder writes, by the four formats; and the bytes a decoded instruction was read
from, by the fields the decoder takes. -/

namespace Sys2Proof.Machine

/-- Decoding an encoding gives the instruction back, format by format (30_encoding.md R95, R98). -/
theorem decode_encode_append {i : Instr} (rest : List Byte) (hw : i.wellFormed = true) :
    decode (encode i ++ rest) = .instr i rest := by
  cases i with
  | halt | nop | ret => exact decode_F1 rest rfl rfl rfl rfl hw
  | rrmovq rA rB | cmovle rA rB | cmovl rA rB | cmove rA rB | cmovne rA rB | cmovge rA rB
  | cmovg rA rB | addq rA rB | subq rA rB | andq rA rB | xorq rA rB | pushq rA rB | popq rA rB =>
    exact decode_F2 rA rB rest rfl rfl rfl rfl hw
  | jmp v | jle v | jl v | je v | jne v | jge v | jg v | call v =>
    exact decode_F3 v rest rfl rfl rfl rfl hw
  | irmovq rA rB v | rmmovq rA rB v | mrmovq rA rB v | iaddq rA rB v =>
    exact decode_F4 rA rB v rest rfl rfl rfl rfl hw

/-- The bytes of a class after byte 0: the register byte and the immediate, as far as the class has
them (30_encoding.md R95). -/
def fieldBytes (c : IClass) (rA rB : RegId) (valC : Word) : List Byte :=
  (if usesRegByte c then [regByte rA rB] else []) ++ (if usesValC c then bytesLE valC else [])

/-- The decoder takes the register byte that encodes its two fields (30_encoding.md R93). -/
theorem takeRegByte_inv {c : IClass} {bs rest : List Byte} {rA rB : RegId}
    (h : takeRegByte c bs = some (rA, rB, rest)) :
    bs = (if usesRegByte c then [regByte rA rB] else []) ++ rest := by
  unfold takeRegByte at h
  split at h
  · next huses =>
    split at h
    · cases h
      simp [huses]
    · cases h
  · next huses =>
    cases h
    simp [huses]

/-- The decoder takes the eight bytes of its immediate (30_encoding.md R94). -/
theorem takeValC_inv {c : IClass} {bs rest : List Byte} {valC : Word}
    (h : takeValC c bs = some (valC, rest)) :
    bs = (if usesValC c then bytesLE valC else []) ++ rest := by
  unfold takeValC at h
  split at h
  · next huses =>
    split at h
    · cases h
      rw [if_pos huses, byteOf_le64]
      rfl
    · cases h
  · next huses =>
    cases h
    simp [huses]

/-- The instruction of a valid byte 0 and its fields is encoded by that byte and those fields
(30_encoding.md R97, R98). -/
theorem encode_of_instrOf {b0 : Byte} {c : IClass} {rA rB : RegId} {valC : Word} {i : Instr}
    (hc : classOfByte0 b0 = some c) (hi : instrOf c (loNibble b0) rA rB valC = some i) :
    encode i = b0 :: fieldBytes c rA rB valC := by
  have hmem : b0 ∈ validByte0 := by
    by_contra hb
    rw [(notMem_validByte0_iff b0).mp hb] at hc
    cases hc
  fin_cases hmem <;> · cases hc; cases hi; rfl

/-- The encoding of an instruction has the instruction's length (30_encoding.md R96). -/
theorem length_encode (i : Instr) : (encode i).length = i.length := by
  cases i <;> rfl

/-- What the decoder reads is the encoding of its answer (30_encoding.md R91 to R101). -/
theorem eq_encode_append_of_decode {bs rest : List Byte} {i : Instr}
    (h : decode bs = .instr i rest) : i.wellFormed = true ∧ bs = encode i ++ rest := by
  obtain ⟨b0, rest0, c, rA, rB, rest1, valC, rfl, hc, hr, hv, hi, hw⟩ := decode_inv h
  refine ⟨hw, ?_⟩
  rw [takeRegByte_inv hr, takeValC_inv hv, encode_of_instrOf hc hi, fieldBytes, List.cons_append,
    List.append_assoc]

/-- Settles O14: each instruction has one of four formats, and each format decodes to its fields. -/
theorem decodeEncodeRoundTrip : Obligations.DecodeEncodeRoundTrip :=
  fun _ rest => decode_encode_append rest

/-- Settles O15: byte 0 and the fields taken are the bytes the encoder writes. -/
theorem decodedBytesAreTheEncoding : Obligations.DecodedBytesAreTheEncoding := fun _ i _ h =>
  ⟨(eq_encode_append_of_decode h).1, (eq_encode_append_of_decode h).2, length_encode i⟩

/-- Settles O20: the decoder evaluates each word. -/
theorem specWordsDecode : Obligations.SpecWordsDecode :=
  ⟨rfl, rfl, rfl, rfl, rfl, rfl, rfl, rfl, rfl, rfl, rfl, rfl, rfl, rfl, rfl⟩

end Sys2Proof.Machine

/-! ## Proofs: the cycle and the step (40_cycle.md, 60_exceptions.md, 70_reset_and_hazards.md)

The bytes a fetch reads and the instruction they hold (`fetch_decode_iff`); the ways an instruction
changes STAT (`exec_stat_cases`); and with these the statements on the cycle, the step and the
iteration. -/

namespace Sys2Proof.Machine

/-! ### The bytes a fetch reads -/

/-- What the bus answers at the `n` addresses from `a` on. -/
def State.replies (s : State) : Nat → Word → List BusReply
  | 0, _ => []
  | n + 1, a => s.busRead a :: s.replies n (a + 1)

@[simp] theorem State.replies_zero (s : State) (a : Word) : s.replies 0 a = [] := rfl

theorem State.replies_succ (s : State) (n : Nat) (a : Word) :
    s.replies (n + 1) a = s.busRead a :: s.replies n (a + 1) := rfl

theorem State.replies_eq_map (s : State) (n : Nat) (a : Word) :
    s.replies n a = (List.range n).map fun k => s.busRead (a + BitVec.ofNat 64 k) := by
  induction n generalizing a with
  | zero => rfl
  | succ n ih =>
    rw [State.replies_succ, ih, List.range_succ_eq_map, List.map_cons, List.map_map,
      BitVec.add_zero]
    simp only [Function.comp_def, Nat.succ_eq_add_one, add_ofNat_succ]

/-- An access misses where one of its bytes does (20_memory.md R70). -/
theorem State.readBytes_snd (s : State) (n : Nat) (a : Word) :
    (s.readBytes n a false).2 = (s.replies n a).any BusReply.miss := by
  rw [State.readBytes_miss, Bool.false_or, State.replies_eq_map, List.any_map]
  rfl

/-- The bytes of an access without a miss are those the bus answers (20_memory.md R70). -/
theorem State.readBytes_fst {s : State} {n : Nat} {a : Word}
    (h : (s.replies n a).any BusReply.miss = false) :
    (s.readBytes n a false).1 = (s.replies n a).map BusReply.data := by
  rw [State.replies_eq_map] at h ⊢
  rw [State.readBytes_of_mapped n s a (by simpa using h), List.map_map]
  rfl

/-- The first byte fetched is the one at the PC (40_cycle.md R124). -/
theorem State.fetch_bytes_eq_cons (s : State) :
    ∃ bs, s.fetch.bytes = (s.busRead s.pc).data :: bs := by
  simp only [State.fetch]
  split <;> exact ⟨_, rfl⟩

/-- A fetch misses where one of the bytes of its class does (40_cycle.md R124, R128, R129). -/
theorem State.fetch_ok_eq {s : State} {c : IClass}
    (hc : classOfByte0 (s.busRead s.pc).data = some c) :
    s.fetch.ok = !(s.replies (classLength c) s.pc).any BusReply.miss := by
  simp only [State.fetch, hc, classLength]
  cases usesRegByte c <;> cases usesValC c <;>
    simp [State.replies_succ, State.readBytes_snd, Bool.or_assoc]

/-- A fetch without a miss reads as many bytes as its class has (40_cycle.md R125 to R129). -/
theorem State.fetch_bytes_eq {s : State} {c : IClass}
    (hc : classOfByte0 (s.busRead s.pc).data = some c)
    (hmiss : (s.replies (classLength c) s.pc).any BusReply.miss = false) :
    s.fetch.bytes = (s.replies (classLength c) s.pc).map BusReply.data := by
  revert hmiss
  simp only [State.fetch, hc, classLength]
  cases usesRegByte c <;> cases usesValC c <;>
    simp +contextual [State.replies_succ, State.readBytes_fst]

/-- Byte 0 of a decoded string tells its instruction's length (30_encoding.md R96). -/
theorem decode_class {b0 : Byte} {bs rest : List Byte} {i : Instr}
    (h : decode (b0 :: bs) = .instr i rest) :
    ∃ c, classOfByte0 b0 = some c ∧ classLength c = i.length := by
  obtain ⟨b, _, c, rA, rB, _, valC, hcons, hc, -, -, hi, -⟩ := decode_inv h
  obtain ⟨rfl, -⟩ := List.cons.inj hcons
  refine ⟨c, hc, ?_⟩
  rw [← length_encode, encode_of_instrOf hc hi, fieldBytes, classLength]
  cases usesRegByte c <;> cases usesValC c <;> rfl

/-- The bytes of an instruction stand at the PC where the bus answers them without a miss. -/
theorem State.holdsAtPc_iff (s : State) (i : Instr) : s.holdsAtPc i ↔
    (s.replies i.length s.pc).any BusReply.miss = false ∧
      (s.replies i.length s.pc).map BusReply.data = encode i := by
  rw [State.replies_eq_map, List.map_map, List.any_map]
  constructor
  · intro h
    refine ⟨?_, List.ext_getElem (by simp [length_encode]) fun k hk hk' => ?_⟩
    · simpa using fun k hk => congrArg BusReply.miss (h k hk)
    · have hlen : k < i.length := by simpa using hk
      simpa [hk'] using congrArg BusReply.data (h k hlen)
  · rintro ⟨hmiss, hdata⟩ k hk
    rw [← hdata]
    have hm : (s.busRead (s.pc + BitVec.ofNat 64 k)).miss = false := by
      simpa using (List.any_eq_false.mp hmiss) k (by simpa using hk)
    simp [hk, ← hm]

/-- A fetch without a miss reads an instruction exactly where its bytes stand at the PC, and it
reads nothing more. -/
theorem State.fetch_decode_iff (s : State) (i : Instr) (rest : List Byte) :
    s.fetch.ok = true ∧ decode s.fetch.bytes = .instr i rest ↔
      i.wellFormed = true ∧ s.holdsAtPc i ∧ rest = [] := by
  obtain ⟨tl, htl⟩ := s.fetch_bytes_eq_cons
  rw [State.holdsAtPc_iff]
  constructor
  · rintro ⟨hok, hd⟩
    obtain ⟨hw, hbytes⟩ := eq_encode_append_of_decode hd
    rw [htl] at hd
    obtain ⟨c, hc, hlen⟩ := decode_class hd
    have hmiss : (s.replies i.length s.pc).any BusReply.miss = false := by
      simpa [State.fetch_ok_eq hc, hlen] using hok
    rw [State.fetch_bytes_eq hc (by rwa [hlen]), hlen] at hbytes
    have hrest : rest = [] := by
      have := congrArg List.length hbytes
      rw [List.length_append, length_encode, State.replies_eq_map] at this
      simpa using this
    rw [hrest, List.append_nil] at hbytes
    exact ⟨hw, ⟨hmiss, hbytes⟩, hrest⟩
  · rintro ⟨hw, ⟨hmiss, hdata⟩, rfl⟩
    have hd := decode_encode_append [] hw
    rw [List.append_nil] at hd
    have hcons : ∃ bs, encode i = (s.busRead s.pc).data :: bs := by
      obtain ⟨n, hn⟩ := Nat.exists_eq_add_of_le' i.length_pos
      exact ⟨_, by rw [← hdata, hn, State.replies_succ, List.map_cons]⟩
    obtain ⟨bs, hbs⟩ := hcons
    obtain ⟨c, hc, hlen⟩ := decode_class (hbs ▸ hd)
    rw [← hlen] at hmiss hdata
    refine ⟨by rw [State.fetch_ok_eq hc, hmiss]; rfl, ?_⟩
    rw [State.fetch_bytes_eq hc hmiss, hdata, hd]

/-! ### How an instruction changes STAT -/

theorem State.storeStage_stat (s : State) (a v : Word) : (s.storeStage a v).1.stat =
    if (s.storeStage a v).2 then s.stat else s.stat.merge .adr := by
  obtain ⟨r, c, h⟩ := s.memWrite_withBytes a v
  rw [State.storeStage_eq, h]
  cases s.mapped8 a <;> rfl

theorem State.loadStage_stat (s : State) (a : Word) : (s.loadStage a).1.stat =
    if (s.loadStage a).2.2 then s.stat else s.stat.merge .adr := by
  rw [State.loadStage_eq]
  cases s.mapped8 a <;> rfl

/-- The four ways an instruction can leave STAT: HLT or INS is raised and nothing else happens; STAT
stays; or a miss of the memory stage raises ADR and the PC stays (40_cycle.md R133, R146, R152). -/
inductive StatOutcome (s t : State) : Prop
  | halted (h : t = s.raise .hlt)
  | illegal (h : t = s.raise .ins)
  | kept (h : t.stat = s.stat)
  | missed (hstat : t.stat = s.stat.merge .adr) (hpc : t.pc = s.pc)

/-- The PC update after a memory stage, whose guard is clear where the stage missed. -/
theorem StatOutcome.pcUpdate_and {s u : State} {ok : Bool} (target : Word) (hpc : u.pc = s.pc)
    (hstat : u.stat = if ok then s.stat else s.stat.merge .adr) :
    StatOutcome s (u.pcUpdate (s.fetchOk && ok) target) := by
  cases ok with
  | true => exact .kept (by simpa using hstat)
  | false => exact .missed (by simpa using hstat) (by simpa using hpc)

/-- Every instruction leaves STAT in one of the four ways. -/
theorem exec_statOutcome {i : Instr} {s t : State} (h : exec i s = .next t) : StatOutcome s t := by
  cases i using Instr.classCases with
  | halt => rw [exec_halt] at h; cases h; exact .halted rfl
  | nop => cases h; exact .kept (by simp)
  | cmov c rA rB =>
    rw [exec_cmovInstr] at h
    cases h
    unfold cmov
    split
    · split <;> exact .kept (by simp)
    · exact .illegal rfl
  | irmovq rA rB v =>
    simp only [exec, execIrmovq] at h
    split at h
    · split at h <;> cases h
      · exact .kept (by simp)
      · exact .illegal rfl
    · cases h; exact .illegal rfl
  | rmmovq rA rB d =>
    simp only [exec, execRmmovq] at h
    split at h <;> cases h
    · exact .pcUpdate_and _ (by simp) (State.storeStage_stat ..)
    · exact .illegal rfl
  | mrmovq rA rB d =>
    simp only [exec, execMrmovq] at h
    split at h <;> cases h
    · exact .pcUpdate_and _ (by simp) (State.loadStage_stat ..)
    · exact .illegal rfl
  | opq op rA rB =>
    rw [exec_opqInstr] at h
    cases h
    unfold opq
    split
    · exact .kept (by simp)
    · exact .illegal rfl
  | jcc c dest =>
    rw [exec_jccInstr] at h
    cases h
    exact .kept (by simp [jcc])
  | call dest => cases h; exact .pcUpdate_and _ (by simp) (State.storeStage_stat ..)
  | ret => cases h; exact .pcUpdate_and _ (by simp) (State.loadStage_stat ..)
  | pushq rA rB =>
    simp only [exec, execPushq] at h
    split at h
    · split at h <;> cases h
      · exact .pcUpdate_and _ (by simp) (State.storeStage_stat ..)
      · exact .illegal rfl
    · cases h; exact .illegal rfl
  | popq rA rB =>
    simp only [exec, execPopq] at h
    split at h
    · split at h <;> cases h
      · exact .pcUpdate_and _ (by simp) (State.loadStage_stat ..)
      · exact .illegal rfl
    · cases h; exact .illegal rfl
  | iaddq rA rB v =>
    simp only [exec, execIaddq] at h
    split at h
    · split at h <;> cases h
      · exact .kept (by simp)
      · exact .illegal rfl
    · cases h; exact .illegal rfl

/-! ### The cycle and the iteration -/

/-- Every cycle answers a next state, and it is a CPU step away. -/
theorem runCycle_cpuStep (s : State) : ∃ t, runCycle s = .next t ∧ CpuStep s t := by
  have hfetch : CpuStep s s.afterFetch := (CpuStep.refl s).raiseIf _ _
  by_cases hs : s.stat = .aok
  · rcases runCycle_cases hs with ⟨-, -, hrun⟩ | ⟨i, rest, -, hrun⟩ | hrun
    · exact ⟨_, hrun, hfetch⟩
    · obtain ⟨t, ht, hstep⟩ := exec_cpuStep i s.afterFetch
      exact ⟨t, by rw [hrun, ht], hfetch.trans hstep⟩
    · exact ⟨_, hrun, hfetch.raise _⟩
  · exact ⟨s, runCycle_of_not_aok hs, .refl s⟩

theorem CpuStep.of_runCycle {s t : State} (h : runCycle s = .next t) : CpuStep s t := by
  obtain ⟨u, hu, hstep⟩ := runCycle_cpuStep s
  cases hu.symm.trans h
  exact hstep

/-- A step is a cycle and the end of the iteration (70_reset_and_hazards.md R330). -/
theorem step_eq_mapNext (s : State) : step s = mapNext State.endIteration (runCycle s) := by
  unfold step iterate
  cases runCycle s <;> rfl

theorem step_of_runCycle {s u : State} (h : runCycle s = .next u) :
    step s = .next u.endIteration := by
  rw [step_eq_mapNext, h]
  rfl

/-- The state a step answers is the end of an iteration whose cycle was a CPU step. -/
theorem step_inv {s t : State} (h : step s = .next t) :
    ∃ u, runCycle s = .next u ∧ CpuStep s u ∧ t = u.endIteration := by
  obtain ⟨u, hu, hstep⟩ := runCycle_cpuStep s
  cases (step_of_runCycle hu).symm.trans h
  exact ⟨u, hu, hstep, rfl⟩

/-- The bytes of an instruction at the PC, every one mapped, run as that instruction. -/
theorem runCycle_of_holdsAtPc {s : State} {i : Instr} (hs : s.stat = .aok)
    (hw : i.wellFormed = true) (h : s.holdsAtPc i) :
    decode s.fetch.bytes = .instr i [] ∧ runCycle s = exec i s := by
  obtain ⟨hok, hd⟩ := (s.fetch_decode_iff i []).mpr ⟨hw, h, rfl⟩
  exact ⟨hd, by rw [runCycle_of_instr hs (.inl hok) hd, State.afterFetch_of_ok hok]⟩

/-- A cycle whose fetch did not miss runs the instruction at the PC or raises INS. -/
theorem runCycle_of_fetchOk {s t : State} (hs : s.stat = .aok) (hok : s.fetch.ok = true)
    (h : runCycle s = .next t) :
    (∃ i, i.wellFormed = true ∧ s.holdsAtPc i ∧ exec i s = .next t) ∨ t = s.raise .ins := by
  rcases runCycle_cases hs with ⟨hmiss, -, -⟩ | ⟨i, rest, hd, hrun⟩ | hrun
  · cases hok.symm.trans hmiss
  · obtain ⟨hw, hat, -⟩ := (s.fetch_decode_iff i rest).mp ⟨hok, hd⟩
    rw [hrun, State.afterFetch_of_ok hok] at h
    exact .inl ⟨i, hw, hat, h⟩
  · rw [hrun, State.afterFetch_of_ok hok] at h
    cases h
    exact .inr rfl

/-- A cycle from AOK leaves STAT in one of the four ways, from AOK or, after a fetch miss, from ADR.
-/
theorem runCycle_statOutcome {s t : State} (hs : s.stat = .aok) (h : runCycle s = .next t) :
    StatOutcome s t ∨ StatOutcome { s with stat := .adr } t ∧ t.pc = s.pc := by
  cases hok : s.fetch.ok with
  | true =>
    rcases runCycle_of_fetchOk hs hok h with ⟨i, -, -, hexec⟩ | hraise
    · exact .inl (exec_statOutcome hexec)
    · exact .inl (.illegal hraise)
  | false =>
    refine .inr ⟨?_, (runCycle_fetchMiss hs hok h).2.1⟩
    have hfetch := State.afterFetch_of_miss hs hok
    rcases runCycle_cases hs with ⟨-, -, hrun⟩ | ⟨i, rest, -, hrun⟩ | hrun <;>
      rw [hrun, hfetch] at h
    · cases h; exact .kept rfl
    · exact exec_statOutcome h
    · cases h; exact .illegal rfl

/-- A status raised and nothing else happened. -/
theorem State.eq_withStat_of_raise {s t : State} {n : Stat} (h : t = s.raise n) :
    t = { s with stat := t.stat } := by
  rw [h]
  rfl

/-- From AOK or ADR only a raise, which changes nothing else, ends in INS or HLT (60_exceptions.md
R252). -/
theorem StatOutcome.precise {s t : State} (h : StatOutcome s t) (hs : s.stat = .aok ∨ s.stat = .adr)
    (ht : t.stat = .ins ∨ t.stat = .hlt) : t = { s with stat := t.stat } := by
  cases h with
  | halted h | illegal h => exact State.eq_withStat_of_raise h
  | kept h | missed h _ => rcases hs with hs | hs <;> simp [h, hs] at ht

/-! ### The statements -/

/-- Settles O5: an instruction and a cycle are CPU steps, which keep the parameters and the count,
and the end of the iteration adds one. -/
theorem everyStepCompletes : Obligations.EveryStepCompletes := by
  refine ⟨fun i s => ?_, fun s => ?_⟩
  · obtain ⟨t, ht, -⟩ := exec_cpuStep i s
    exact ⟨t, ht⟩
  · obtain ⟨u, hu, hstep⟩ := runCycle_cpuStep s
    obtain ⟨-, -, -, -, -, hconfig, -, hiter⟩ := hstep.frame
    exact ⟨_, step_of_runCycle hu, by simp [hconfig], by simp [hiter]⟩

/-- Settles O6: the fetch reads exactly the bytes that stand at the PC. -/
theorem stepRunsDecodedInstruction : Obligations.StepRunsDecodedInstruction := by
  intro s i hs hw h
  obtain ⟨hd, hrun⟩ := runCycle_of_holdsAtPc hs hw h
  exact ⟨hd, hrun, by rw [step_eq_mapNext, hrun]⟩

/-- Settles O7: a fetch miss and a rejected string both take STAT out of AOK. -/
theorem aokCycleRanOneInstruction : Obligations.AokCycleRanOneInstruction := by
  intro s t hs h ht
  cases hok : s.fetch.ok with
  | true =>
    rcases runCycle_of_fetchOk hs hok h with hexec | rfl
    · exact hexec
    · rw [State.raise_stat, hs] at ht
      cases ht
  | false =>
    obtain ⟨n, hn⟩ := (runCycle_fetchMiss hs hok h).1.stat
    exact absurd (hn.symm.trans ht) (Stat.merge_ne_aok (by simp) n)

/-- Settles O8: the platform, which the cycle keeps, decides what the end of the iteration does. -/
theorem iterationOrder : Obligations.IterationOrder := by
  intro s u hu
  obtain ⟨-, -, -, -, -, hconfig, -, -⟩ := (CpuStep.of_runCycle hu).frame
  rw [step_of_runCycle hu, ← hconfig]
  refine ⟨fun hp => ⟨?_, rfl⟩, fun hp => ?_⟩
  · rw [State.endIteration, if_pos hp]
    rfl
  · rw [State.endIteration, if_neg (by simp [hp])]

/-- Settles O11: a CPU step merges a status and no device update writes STAT. -/
theorem statusMonotone : Obligations.StatusMonotone := by
  refine ⟨fun i s t h => ?_, fun s t h => ?_⟩
  · obtain ⟨n, hn⟩ := (CpuStep.of_exec h).stat
    exact hn ▸ Stat.le_merge _ n
  · obtain ⟨u, -, hstep, rfl⟩ := step_inv h
    obtain ⟨n, hn⟩ := hstep.stat
    rw [State.endIteration_stat, hn]
    exact Stat.le_merge _ n

/-- Settles O12: of the ways a cycle leaves STAT, only the one that keeps AOK moves the PC. -/
theorem pcPreservedOffAok : Obligations.PcPreservedOffAok := by
  intro s t hs h ht
  rcases runCycle_statOutcome hs h with hout | ⟨-, hpc⟩
  · cases hout with
    | halted h | illegal h => rw [h, State.raise_pc]
    | kept h => exact absurd (h.trans hs) ht
    | missed _ hpc => exact hpc
  · exact hpc

/-- Settles O13: of the ways a cycle leaves STAT, only a raise ends in INS or HLT. -/
theorem insAndHltPrecise : Obligations.InsAndHltPrecise := by
  intro s t hs h ht
  rcases runCycle_statOutcome hs h with hout | ⟨hout, -⟩
  · exact hout.precise (.inl hs) ht
  · exact hout.precise (.inr rfl) ht

/-- Settles O47: a miss on byte 0 reads as the byte of `halt`. -/
theorem fetchMissOnByte0 : Obligations.FetchMissOnByte0 :=
  fun _ => runCycle_of_not_mapped

end Sys2Proof.Machine

/-! ## Proofs: the flags as signed arithmetic (40_cycle.md, 44_control.md)

OF against the library's signed overflow, and the condition `l` after a subtract as the signed
comparison, from which the other conditions follow. -/

namespace Sys2Proof.Machine

/-- OF of an add is signed overflow (40_cycle.md R141). -/
theorem aluFlags_add_of (b a : Word) : (aluFlags .add b a).of = BitVec.saddOverflow b a := by
  simp only [aluFlags, alu, overflow, BitVec.saddOverflow_eq]
  cases b.msb <;> cases a.msb <;> simp

/-- OF of a subtract is signed overflow (40_cycle.md R141). -/
theorem aluFlags_sub_of (b a : Word) : (aluFlags .sub b a).of = BitVec.ssubOverflow b a := by
  simp only [aluFlags, alu, overflow, BitVec.ssubOverflow_eq]
  cases b.msb <;> cases a.msb <;> simp

theorem aluFlags_zf_iff (op : AluOp) (b a : Word) :
    (aluFlags op b a).zf = true ↔ alu op b a = 0 := by
  simp [aluFlags]

theorem aluFlags_sf_iff (op : AluOp) (b a : Word) :
    (aluFlags op b a).sf = true ↔ (alu op b a).toInt < 0 := by
  simp [aluFlags, BitVec.msb_eq_toInt]

/-- After a subtract, ZF says that the operands are equal. -/
theorem aluFlags_sub_zf (b a : Word) : (aluFlags .sub b a).zf = decide (b.toInt = a.toInt) := by
  rw [Bool.eq_iff_iff, aluFlags_zf_iff, decide_eq_true_eq, BitVec.toInt_inj, alu, sub_eq_zero]

/-- A difference of two words of the same sign does not overflow. -/
theorem toInt_sub_of_msb_eq {b a : Word} (h : b.msb = a.msb) :
    (b - a).toInt = b.toInt - a.toInt := by
  apply BitVec.toInt_sub_of_not_ssubOverflow
  rw [BitVec.ssubOverflow_eq, h]
  simp

/-- After a subtract, SF xor OF is the signed comparison: words of one sign do not overflow, and of
two words of different signs the negative one is less (40_cycle.md R140, R141). -/
theorem aluFlags_sub_sf_xor_of (b a : Word) :
    ((aluFlags .sub b a).sf ^^ (aluFlags .sub b a).of) = decide (b.toInt < a.toInt) := by
  simp only [aluFlags_sub_of, BitVec.ssubOverflow_eq]
  simp only [aluFlags, alu]
  by_cases hsign : b.msb = a.msb
  · have hsf : (b - a).msb = decide (b.toInt < a.toInt) := by
      rw [BitVec.msb_eq_toInt, toInt_sub_of_msb_eq hsign, decide_eq_decide, sub_neg]
    rw [hsf, hsign]
    simp
  · have hlt : decide (b.toInt < a.toInt) = b.msb := by
      rw [BitVec.msb_eq_toInt, BitVec.msb_eq_toInt, decide_eq_decide] at hsign
      rw [BitVec.msb_eq_toInt, decide_eq_decide]
      omega
    rw [hlt, Bool.eq_not.mpr hsign]
    cases a.msb <;> simp

/-- Settles O34: OF is the library's signed overflow. -/
theorem overflowFlagIsSignedOverflow : Obligations.OverflowFlagIsSignedOverflow := by
  refine fun b a => ⟨?_, ?_, ?_, fun op => aluFlags_zf_iff op b a, fun op => aluFlags_sf_iff op b a⟩
  · rw [aluFlags_add_of, BitVec.saddOverflow]
    simp only [Bool.or_eq_true, decide_eq_true_eq]
    omega
  · rw [aluFlags_sub_of, BitVec.ssubOverflow]
    simp only [Bool.or_eq_true, decide_eq_true_eq]
    omega
  · rintro op (rfl | rfl) <;> rfl

/-- Settles O35: every condition is made of ZF, which is equality, and of SF xor OF, which is the
signed comparison. -/
theorem conditionsAfterSubtract : Obligations.ConditionsAfterSubtract := by
  intro b a
  simp only [CC.cond, aluFlags_sub_sf_xor_of, aluFlags_sub_zf, ← BitVec.toInt_inj (x := b),
    Bool.or_eq_true, Bool.and_eq_true, Bool.not_eq_true', decide_eq_true_eq,
    decide_eq_false_iff_not, ne_eq]
  exact ⟨le_iff_lt_or_eq.symm, trivial, trivial, trivial, not_lt, by omega⟩

end Sys2Proof.Machine

/-! ## Proofs: the bus and the 8-byte accesses (20_memory.md)

Which record answers an address, and where the default maps send it; which bytes of an access are
done under `MULTIBYTE_STOP_AT_MISS` (`State.reached`) and what a read and a write make of each byte;
and when the setting does not matter. -/

namespace Sys2Proof.Machine

/-! ### The first record that covers an address -/

/-- No record covers the address: no record is found (20_memory.md R56). -/
theorem findMapping_eq_none {ms : List Mapping} {a : Nat}
    (h : ∀ m ∈ ms, ¬ (m.start ≤ a ∧ a < m.stop)) : findMapping ms a = none := by
  induction ms with
  | nil => rfl
  | cons m ms ih =>
    rw [findMapping, if_neg (h m List.mem_cons_self)]
    exact ih fun m' hm' => h m' (List.mem_cons_of_mem m hm')

/-- The first record that covers the address is found (20_memory.md R58, R60). -/
theorem findMapping_append_cons {pre post : List Mapping} {m : Mapping} {a : Nat}
    (hpre : ∀ m' ∈ pre, ¬ (m'.start ≤ a ∧ a < m'.stop)) (hm : m.start ≤ a ∧ a < m.stop) :
    findMapping (pre ++ m :: post) a = some (m.device, a - m.start) := by
  induction pre with
  | nil => rw [List.nil_append, findMapping, if_pos hm]
  | cons m' pre ih =>
    rw [List.cons_append, findMapping, if_neg (hpre m' List.mem_cons_self)]
    exact ih fun m'' hm'' => hpre m'' (List.mem_cons_of_mem m' hm'')

/-- A bus read where a record is found: the device answers, and a rejection is a miss. -/
theorem State.busRead_of_resolve {s : State} {a : Word} {d : Device} {rel : Nat}
    (h : s.resolve a = some (d, rel)) :
    s.busRead a = ((s.deviceRead d rel).map fun b => ⟨b, false⟩).getD ⟨0, true⟩ := by
  rw [State.busRead, h]
  cases hr : s.deviceRead d rel <;> simp [hr]

/-- A bus write where a record is found: the device answers, and a rejection is a miss. -/
theorem State.busWrite_of_resolve {s : State} {a : Word} {d : Device} {rel : Nat}
    (h : s.resolve a = some (d, rel)) (b : Byte) :
    s.busWrite a b =
      ((s.deviceWrite d rel b).map fun t => (t, ⟨b, false⟩)).getD (s, ⟨0, true⟩) := by
  rw [State.busWrite, h]
  cases hw : s.deviceWrite d rel b <;> simp [hw]

/-- A write where no record is found misses and changes nothing (20_memory.md R56, R57). -/
theorem State.busWrite_of_resolve_none {s : State} {a : Word} (h : s.resolve a = none) (b : Byte) :
    s.busWrite a b = (s, ⟨0, true⟩) := by
  rw [State.busWrite, h]

/-- An address that misses is not written (20_memory.md R57). -/
theorem State.busWrite_of_not_mapped {s : State} {a : Word} (h : s.mapped a = false) (b : Byte) :
    s.busWrite a b = (s, ⟨0, true⟩) := by
  cases hr : s.resolve a with
  | none => exact State.busWrite_of_resolve_none hr b
  | some l =>
    obtain ⟨d, rel⟩ := l
    have hread := State.busRead_of_not_mapped h
    rw [State.busRead_of_resolve hr] at hread
    have hsome := s.deviceWrite_isSome d rel b
    rw [State.busWrite_of_resolve hr]
    cases hw : s.deviceWrite d rel b with
    | none => rfl
    | some t =>
      obtain ⟨c, hc⟩ := Option.isSome_iff_exists.mp (by rw [← hsome, hw]; rfl)
      simp [hc] at hread

/-- Settles O36: the search for a record follows the table's order, and each device answers by its
own definition. -/
theorem busFirstMatch : Obligations.BusFirstMatch := by
  refine ⟨fun s a b h => ?_, fun s a b pre m post hmap hpre hlo hhi => ?_,
    fun s a b h => State.busWrite_of_not_mapped h b, fun s rel => ⟨rfl, rfl, rfl, rfl⟩,
    fun s rel b => ⟨fun h => ?_, fun h => ?_, fun h => ?_, fun h => ?_, rfl, rfl⟩⟩
  · have hr : s.resolve a = none := findMapping_eq_none h
    exact ⟨by rw [State.busRead, hr], State.busWrite_of_resolve_none hr b⟩
  · have hr : s.resolve a = some (m.device, a.toNat - m.start) := by
      rw [State.resolve, hmap, findMapping_append_cons hpre ⟨hlo, hhi⟩]
    rw [State.busRead_of_resolve hr, State.busWrite_of_resolve hr]
    refine ⟨?_, ?_, fun hd hsize => ?_⟩
    · cases s.deviceRead m.device (a.toNat - m.start) <;> rfl
    · cases s.deviceWrite m.device (a.toNat - m.start) b <;> rfl
    · have hout : ¬ a.toNat - m.start < s.config.ramSize := by omega
      simp [hd, State.deviceRead, State.deviceWrite, hout]
  · exact ⟨_, if_pos h, fun x => s.ram.read_write rel x b⟩
  · exact if_neg (by omega)
  · exact ⟨_, congrArg some (if_pos h), fun x => s.ppu.config.read_write rel x b⟩
  · exact congrArg some (if_neg (by simp only [ppuConfigSize]; omega))

/-! ### The default maps -/

/-- Where the interactive map sends an address (20_memory.md R62, R63). -/
theorem findMapping_defaultMap_interactive (n a : Nat) :
    findMapping (defaultMap .interactive n) a =
      if a < n then some (.ram, a)
      else if a = 0x2000 then some (.joystick, 0)
      else if 0x3000 ≤ a ∧ a ≤ 0x30BF then some (.ppu, a - 0x3000)
      else if a = 0x4000 then some (.timer, 0)
      else none := by
  have hjoystick : (0x2000 ≤ a ∧ a < 0x2001) = (a = 0x2000) := propext (by omega)
  have hppu : (0x3000 ≤ a ∧ a < 0x30C0) = (0x3000 ≤ a ∧ a ≤ 0x30BF) := propext (by omega)
  have htimer : (0x4000 ≤ a ∧ a < 0x4001) = (a = 0x4000) := propext (by omega)
  simp only [defaultMap, findMapping, Nat.zero_le, true_and, Nat.sub_zero, hjoystick, hppu, htimer]
  split_ifs <;> simp [*]

theorem findMapping_defaultMap_batch (n a : Nat) :
    findMapping (defaultMap .batch n) a = if a < n then some (.ram, a) else none := by
  simp [defaultMap, findMapping]

/-- Where a device stands in the default maps (20_memory.md R62). -/
def defaultBase : Device → Nat
  | .ram => 0
  | .joystick => 0x2000
  | .ppu => 0x3000
  | .timer => 0x4000

/-- How many bytes a device has in the default maps (20_memory.md R62). -/
def defaultSize (n : Nat) : Device → Nat
  | .ram => n
  | .joystick => 1
  | .ppu => ppuConfigSize
  | .timer => 1

/-- A default map sends an address to a device byte in range, and the byte tells the address
(20_memory.md R51). -/
theorem findMapping_defaultMap_inv {p : Platform} {n a : Nat} {d : Device} {rel : Nat}
    (h : findMapping (defaultMap p n) a = some (d, rel)) :
    rel < defaultSize n d ∧ a = defaultBase d + rel := by
  cases p with
  | batch =>
    rw [findMapping_defaultMap_batch] at h
    split at h
    · next hram => cases h; exact ⟨hram, (Nat.zero_add _).symm⟩
    · cases h
  | interactive =>
    rw [findMapping_defaultMap_interactive] at h
    split at h
    · next hram => cases h; exact ⟨hram, (Nat.zero_add _).symm⟩
    split at h
    · next hjoystick => cases h; exact ⟨Nat.one_pos, hjoystick⟩
    split at h
    · next hppu =>
      cases h
      simp only [defaultSize, ppuConfigSize, defaultBase]
      omega
    split at h
    · next htimer => cases h; exact ⟨Nat.one_pos, htimer⟩
    · cases h

/-- Settles O37: each record of the two maps, in order. -/
theorem defaultMapRouting : Obligations.DefaultMapRouting :=
  ⟨findMapping_defaultMap_batch, findMapping_defaultMap_interactive⟩

/-- Settles O38: the device byte lies in the device's range and tells the address. -/
theorem defaultMapsInRangeAndAliasFree : Obligations.DefaultMapsInRangeAndAliasFree := by
  refine fun p n cap => ⟨fun a d rel h => ?_, fun x y l hx hy => ?_⟩
  · have hlt := (findMapping_defaultMap_inv h).1
    cases d with
    | ram | ppu => exact hlt
    | joystick | timer => exact Nat.lt_one_iff.mp hlt
  · obtain ⟨d, rel⟩ := l
    exact BitVec.eq_of_toNat_eq ((findMapping_defaultMap_inv hx).2.trans
      (findMapping_defaultMap_inv hy).2.symm)

/-! ### The bytes of an access that are done -/

/-- Byte `k` of an access from `a` is done: `MULTIBYTE_STOP_AT_MISS` does not hold, or nothing
missed before it (20_memory.md R70, R71); `miss` tells whether an earlier byte of the access missed.
-/
def State.reached (s : State) (a : Word) (miss : Bool) (k : Nat) : Prop :=
  s.config.multibyteStopAtMiss = false ∨
    miss = false ∧ ∀ j, j < k → s.mapped (a + BitVec.ofNat 64 j) = true

theorem State.reached_zero (s : State) (a : Word) (miss : Bool) :
    s.reached a miss 0 ↔ (s.config.multibyteStopAtMiss && miss) = false := by
  simp [State.reached, or_iff_not_imp_left]

theorem State.reached_succ (s : State) (a : Word) (miss : Bool) (k : Nat) :
    s.reached a miss (k + 1) ↔ s.reached (a + 1) (miss || (s.busRead a).miss) k := by
  have hmapped : (∀ j, j < k + 1 → s.mapped (a + BitVec.ofNat 64 j) = true) ↔
      (s.busRead a).miss = false ∧ ∀ j, j < k → s.mapped (a + 1 + BitVec.ofNat 64 j) = true := by
    rw [Nat.forall_lt_succ_left]
    simp only [add_ofNat_succ]
    simp [State.mapped]
  rw [State.reached, State.reached, hmapped, Bool.or_eq_false_iff, and_assoc]

/-- Which bytes are done does not depend on the contents of memory. -/
theorem State.reached_withBytes (s : State) (r c : Memory) (a : Word) (miss : Bool) (k : Nat) :
    (s.withBytes r c).reached a miss k ↔ s.reached a miss k := by
  simp [State.reached, State.mapped, State.miss_withBytes]

/-- The bytes of a read one by one: a byte that is not done contributes 0 (20_memory.md R70). -/
theorem State.readBytes_succ (s : State) (n : Nat) (a : Word) (miss : Bool) :
    s.readBytes (n + 1) a miss =
      ((if s.config.multibyteStopAtMiss && miss then 0 else (s.busRead a).data) ::
        (s.readBytes n (a + 1) (miss || (s.busRead a).miss)).1,
        (s.readBytes n (a + 1) (miss || (s.busRead a).miss)).2) := by
  rw [State.readBytes]
  split
  · next h =>
    obtain rfl : miss = true := (Bool.and_eq_true_iff.mp h).2
    rfl
  · rfl

/-- The bytes of a write one by one: a byte that is not done is not written (20_memory.md R71). -/
theorem State.writeBytes_cons (s : State) (b : Byte) (bs : List Byte) (a : Word) (miss : Bool) :
    s.writeBytes (b :: bs) a miss =
      (if s.config.multibyteStopAtMiss && miss then s else (s.busWrite a b).1).writeBytes bs (a + 1)
        (miss || (s.busRead a).miss) := by
  simp only [State.writeBytes, State.busWrite_miss]
  split
  · next h =>
    obtain rfl : miss = true := (Bool.and_eq_true_iff.mp h).2
    rfl
  · rfl

/-- A byte that is done is read from the bus (20_memory.md R70). -/
theorem State.readBytes_getD_of_reached {n k : Nat} (hk : k < n) {s : State} {a : Word}
    {miss : Bool} (h : s.reached a miss k) :
    (s.readBytes n a miss).1.getD k 0 = (s.busRead (a + BitVec.ofNat 64 k)).data := by
  induction n generalizing k a miss with
  | zero => omega
  | succ n ih =>
    rw [State.readBytes_succ]
    cases k with
    | zero =>
      rw [State.reached_zero] at h
      simp [h]
    | succ k => rw [add_ofNat_succ, List.getD_cons_succ, ih (by omega) ((s.reached_succ ..).mp h)]

/-- A byte that is not done is 0 (20_memory.md R70). -/
theorem State.readBytes_getD_of_not_reached {n k : Nat} {s : State} {a : Word} {miss : Bool}
    (h : ¬ s.reached a miss k) : (s.readBytes n a miss).1.getD k 0 = 0 := by
  induction n generalizing k a miss with
  | zero => rfl
  | succ n ih =>
    rw [State.readBytes_succ]
    cases k with
    | zero =>
      rw [State.reached_zero, Bool.not_eq_false] at h
      simp [h]
    | succ k => rw [List.getD_cons_succ, ih (mt (s.reached_succ ..).mpr h)]

/-- What the write of one byte of an access leaves: other bytes of memory, if any. -/
theorem State.writeFirst_withBytes (s : State) (a : Word) (b : Byte) (stop : Bool) :
    ∃ r c, (if stop then s else (s.busWrite a b).1) = s.withBytes r c := by
  cases stop
  · exact s.busWrite_withBytes a b
  · exact ⟨s.ram, s.ppu.config, rfl⟩

/-- No other of the first `n` addresses from `a` is routed to the device byte of `a + k`. -/
def State.distinctFrom (s : State) (a : Word) (n k : Nat) : Prop :=
  ∀ j, j < n → j ≠ k → s.resolve (a + BitVec.ofNat 64 j) = s.resolve (a + BitVec.ofNat 64 k) →
    s.resolve (a + BitVec.ofNat 64 k) = none

theorem State.distinctFrom_succ {s : State} {a : Word} {n k : Nat}
    (h : s.distinctFrom a (n + 1) (k + 1)) : s.distinctFrom (a + 1) n k := by
  intro j hj hne hr
  rw [← add_ofNat_succ] at hr ⊢
  rw [← add_ofNat_succ] at hr
  exact h (j + 1) (by omega) (by omega) hr

/-- The bytes after the first one leave the first one alone. -/
theorem State.busRead_writeBytes_of_distinctFrom_zero {s u : State} {a : Word} {n : Nat}
    (h : s.distinctFrom a (n + 1) 0) (hu : u.config = s.config) {bs : List Byte}
    (hn : bs.length = n) (miss : Bool) :
    (u.writeBytes bs (a + 1) miss).1.busRead a = u.busRead a := by
  refine State.busRead_writeBytes_ne bs u (a + 1) a miss fun j hj hr => ?_
  rw [State.resolve_congr hu, State.resolve_congr hu, ← add_ofNat_succ] at hr
  rw [State.resolve_congr hu]
  simpa using h (j + 1) (by omega) (by omega) (by simpa using hr)

/-- The first byte leaves each later one alone. -/
theorem State.busRead_writeFirst_of_distinctFrom_succ {s : State} {a : Word} {n k : Nat}
    (h : s.distinctFrom a (n + 1) (k + 1)) (b : Byte) (stop : Bool) :
    (if stop then s else (s.busWrite a b).1).busRead (a + BitVec.ofNat 64 (k + 1)) =
      s.busRead (a + BitVec.ofNat 64 (k + 1)) := by
  cases stop
  · refine State.busRead_busWrite_ne s a _ b fun hr => ?_
    exact h 0 (by omega) (by omega) (by simpa using hr)
  · rfl

/-- A writable byte that is done reads as what was written to it (20_memory.md R71). -/
theorem State.busRead_writeBytes_of_reached {bs : List Byte} {k : Nat} (hk : k < bs.length)
    {s : State} {a : Word} {miss : Bool} (hd : s.distinctFrom a bs.length k)
    (hw : s.writable (a + BitVec.ofNat 64 k) = true) (h : s.reached a miss k) :
    (s.writeBytes bs a miss).1.busRead (a + BitVec.ofNat 64 k) = ⟨bs.getD k 0, false⟩ := by
  induction bs generalizing s k a miss with
  | nil => exact absurd hk (Nat.not_lt_zero k)
  | cons b bs ih =>
    rw [State.writeBytes_cons]
    cases k with
    | zero =>
      rw [State.reached_zero] at h
      obtain ⟨r, c, ht⟩ := s.busWrite_withBytes a b
      rw [BitVec.add_zero] at hw ⊢
      rw [h, if_neg Bool.false_ne_true,
        State.busRead_writeBytes_of_distinctFrom_zero hd (by rw [ht]; rfl) rfl,
        State.busRead_busWrite_self s a b hw]
      rfl
    | succ k =>
      obtain ⟨r, c, ht⟩ := s.writeFirst_withBytes a b (s.config.multibyteStopAtMiss && miss)
      rw [ht, add_ofNat_succ]
      rw [add_ofNat_succ] at hw
      exact ih (Nat.lt_of_succ_lt_succ hk) (State.distinctFrom_succ hd) hw
        ((State.reached_withBytes ..).mpr ((s.reached_succ ..).mp h))

/-- A byte that is not done reads as before (20_memory.md R71). -/
theorem State.busRead_writeBytes_of_not_reached {bs : List Byte} {k : Nat} (hk : k < bs.length)
    {s : State} {a : Word} {miss : Bool} (hd : s.distinctFrom a bs.length k)
    (h : ¬ s.reached a miss k) :
    (s.writeBytes bs a miss).1.busRead (a + BitVec.ofNat 64 k) =
      s.busRead (a + BitVec.ofNat 64 k) := by
  induction bs generalizing s k a miss with
  | nil => exact absurd hk (Nat.not_lt_zero k)
  | cons b bs ih =>
    rw [State.writeBytes_cons]
    cases k with
    | zero =>
      rw [State.reached_zero, Bool.not_eq_false] at h
      rw [BitVec.add_zero, h, if_pos rfl,
        State.busRead_writeBytes_of_distinctFrom_zero hd rfl rfl]
    | succ k =>
      rw [← State.busRead_writeFirst_of_distinctFrom_succ hd b
        (s.config.multibyteStopAtMiss && miss)]
      obtain ⟨r, c, ht⟩ := s.writeFirst_withBytes a b (s.config.multibyteStopAtMiss && miss)
      rw [ht, add_ofNat_succ]
      exact ih (Nat.lt_of_succ_lt_succ hk) (State.distinctFrom_succ hd)
        (fun hr => h ((s.reached_succ ..).mpr ((State.reached_withBytes ..).mp hr)))

/-! ### The 8-byte accesses -/

/-- Byte `k` of a word, from its eight bytes. -/
theorem bytesLE_getD {k : Nat} (hk : k < 8) (v : Word) : (bytesLE v).getD k 0 = byteOf k v := by
  interval_cases k <;> rfl

theorem State.byteOf_memRead_of_reached {s : State} {a : Word} {k : Nat} (hk : k < 8)
    (h : s.reached a false k) :
    byteOf k (s.memRead a).1 = (s.busRead (a + BitVec.ofNat 64 k)).data := by
  rw [State.memRead, byteOf_le64_eq_getD _ hk, State.readBytes_getD_of_reached hk h]

theorem State.byteOf_memRead_of_not_reached {s : State} {a : Word} {k : Nat} (hk : k < 8)
    (h : ¬ s.reached a false k) : byteOf k (s.memRead a).1 = 0 := by
  rw [State.memRead, byteOf_le64_eq_getD _ hk, State.readBytes_getD_of_not_reached h]

/-- Under `MULTIBYTE_STOP_AT_MISS` no byte after a miss is done (20_memory.md R70, R71). -/
theorem State.not_reached_of_miss {s : State} {a : Word} {j k : Nat} (hjk : j < k)
    (hstop : s.config.multibyteStopAtMiss = true)
    (hmiss : s.mapped (a + BitVec.ofNat 64 j) = false) : ¬ s.reached a false k := by
  rintro (h | ⟨-, h⟩)
  · rw [hstop] at h; cases h
  · exact absurd (h j hjk) (by simp [hmiss])

/-- An access misses where one of its eight addresses does (20_memory.md R70, R71). -/
theorem State.mapped8_eq_false_iff (s : State) (a : Word) :
    s.mapped8 a = false ↔ ∃ k, k < 8 ∧ s.mapped (a + BitVec.ofNat 64 k) = false := by
  rw [← Bool.not_eq_true, State.mapped8_iff]
  simp [State.mapped]

theorem State.distinctFrom_of_distinct8 {s : State} {a : Word} (h : s.distinct8 a) {k : Nat}
    (hk : k < 8) : s.distinctFrom a 8 k :=
  fun j hj hne hr => hr.symm.trans (h j k hj hk hne hr)

/-- Settles O39: a byte done is the bus's own, any other is 0. -/
theorem memReadBytes : Obligations.MemReadBytes := by
  refine fun s a => ⟨fun k hk hstop => State.byteOf_memRead_of_reached hk (.inl hstop),
    fun k hk hmap => State.byteOf_memRead_of_reached hk (.inr ⟨rfl, hmap⟩),
    fun j k hjk hk hstop hmiss =>
      State.byteOf_memRead_of_not_reached hk (State.not_reached_of_miss hjk hstop hmiss), ?_⟩
  rw [State.memRead_miss, Bool.not_eq_true', State.mapped8_eq_false_iff]

/-- Settles O40: a writable byte done reads back, any other byte reads as before. -/
theorem memWriteBytes : Obligations.MemWriteBytes := by
  refine fun s a v => ⟨fun k hk hd hw hreach => ?_, fun j k hjk hk hd hstop hmiss => ?_, ?_⟩
  · rw [← bytesLE_getD hk]
    exact State.busRead_writeBytes_of_reached hk (State.distinctFrom_of_distinct8 hd hk) hw
      (hreach.imp_right fun h => ⟨rfl, h⟩)
  · exact State.busRead_writeBytes_of_not_reached hk (State.distinctFrom_of_distinct8 hd hk)
      (State.not_reached_of_miss hjk hstop hmiss)
  · rw [State.memWrite_miss, Bool.not_eq_true', State.mapped8_eq_false_iff]

end Sys2Proof.Machine

/-! ## Proofs: the parameters an access and an instruction do not depend on (20_memory.md,
40_cycle.md)

What a change of the parameters leaves of a read, a write and an instruction:
`MULTIBYTE_STOP_AT_MISS` matters only where a byte after a miss is mapped, and `STRICT_UNUSED_REG`
only to an unused field. -/

namespace Sys2Proof.Machine

/-- `s` with other parameters. -/
def State.withConfig (s : State) (c : Config) : State := { s with config := c }

@[simp] theorem State.withConfig_config (s : State) (c : Config) :
    (s.withConfig c).config = c := rfl

@[simp] theorem State.reg_withConfig (s : State) (c : Config) (r : Reg) :
    (s.withConfig c).reg r = s.reg r := rfl

@[simp] theorem State.fetchOk_withConfig (s : State) (c : Config) :
    (s.withConfig c).fetchOk = s.fetchOk := rfl

@[simp] theorem State.valP_withConfig (s : State) (c : Config) (n : Nat) :
    (s.withConfig c).valP n = s.valP n := rfl

@[simp] theorem State.setReg_withConfig (s : State) (c : Config) (r : Reg) (v : Word) :
    (s.withConfig c).setReg r v = (s.setReg r v).withConfig c := rfl

@[simp] theorem State.raise_withConfig (s : State) (c : Config) (n : Stat) :
    (s.withConfig c).raise n = (s.raise n).withConfig c := rfl

@[simp] theorem State.raiseIf_withConfig (s : State) (c : Config) (b : Bool) (n : Stat) :
    (s.withConfig c).raiseIf b n = (s.raiseIf b n).withConfig c := by
  cases b <;> rfl

@[simp] theorem State.pcUpdate_withConfig (s : State) (c : Config) (ok : Bool) (target : Word) :
    (s.withConfig c).pcUpdate ok target = (s.pcUpdate ok target).withConfig c := by
  cases ok <;> rfl

@[simp] theorem State.writeCC_withConfig (s : State) (c : Config) (f : CC) :
    (s.withConfig c).writeCC f = (s.writeCC f).withConfig c := by
  by_cases hs : s.stat = .aok
  · rw [State.writeCC_of_aok hs, State.writeCC_of_aok (s := s.withConfig c) hs]
    rfl
  · rw [State.writeCC_of_not_aok hs, State.writeCC_of_not_aok (s := s.withConfig c) hs]

/-! ### The bus and the accesses -/

/-- Two sets of parameters with the same address map. -/
structure SameMap (c c' : Config) : Prop where
  busMap : c.busMap = c'.busMap
  ramSize : c.ramSize = c'.ramSize

theorem State.busRead_withConfig {s : State} {c : Config} (h : SameMap c s.config) (a : Word) :
    (s.withConfig c).busRead a = s.busRead a := by
  have hresolve : (s.withConfig c).resolve a = s.resolve a := by
    simp [State.resolve, h.busMap]
  have hread : ∀ d rel, (s.withConfig c).deviceRead d rel = s.deviceRead d rel := by
    intro d rel
    cases d with
    | ram => simp only [State.deviceRead, State.withConfig_config, h.ramSize]; rfl
    | ppu | timer | joystick => rfl
  simp only [State.busRead, hresolve, hread]

theorem State.busWrite_withConfig {s : State} {c : Config} (h : SameMap c s.config) (a : Word)
    (b : Byte) :
    (s.withConfig c).busWrite a b = ((s.busWrite a b).1.withConfig c, (s.busWrite a b).2) := by
  have hresolve : (s.withConfig c).resolve a = s.resolve a := by
    simp [State.resolve, h.busMap]
  have hwrite : ∀ d rel, (s.withConfig c).deviceWrite d rel b =
      (s.deviceWrite d rel b).map fun t => t.withConfig c := by
    intro d rel
    cases d with
    | ram =>
      simp only [State.deviceWrite, State.withConfig_config, h.ramSize]
      split <;> rfl
    | ppu =>
      simp only [State.deviceWrite]
      split <;> rfl
    | timer | joystick => rfl
  simp only [State.busWrite, hresolve, hwrite]
  cases s.resolve a with
  | none => rfl
  | some l => cases hw : s.deviceWrite l.1 l.2 b <;> simp [hw]

/-- The setting of `MULTIBYTE_STOP_AT_MISS` in `c` makes no difference to an access of `n` bytes
from `a`: it is the state's own, or no byte after a miss is mapped (20_memory.md R72). -/
def State.stopIrrelevant (s : State) (c : Config) (n : Nat) (a : Word) (miss : Bool) : Prop :=
  c.multibyteStopAtMiss = s.config.multibyteStopAtMiss ∨
    ∀ k, k < n → (miss = true ∨ ∃ j, j < k ∧ s.mapped (a + BitVec.ofNat 64 j) = false) →
      s.mapped (a + BitVec.ofNat 64 k) = false

theorem State.stopIrrelevant_succ {s : State} {c : Config} {n : Nat} {a : Word} {miss : Bool}
    (h : s.stopIrrelevant c (n + 1) a miss) :
    s.stopIrrelevant c n (a + 1) (miss || (s.busRead a).miss) := by
  refine h.imp_right fun h k hk hmiss => ?_
  rw [← add_ofNat_succ]
  refine h (k + 1) (by omega) ?_
  rcases hmiss with hmiss | ⟨j, hj, hmiss⟩
  · rcases Bool.or_eq_true_iff.mp hmiss with hmiss | hmiss
    · exact .inl hmiss
    · exact .inr ⟨0, by omega, by simpa [State.mapped] using hmiss⟩
  · exact .inr ⟨j + 1, by omega, by rwa [add_ofNat_succ]⟩

/-- The first byte: both settings do it, both leave it out, or it misses. -/
theorem State.stopIrrelevant_first {s : State} {c : Config} {n : Nat} {a : Word} {miss : Bool}
    (h : s.stopIrrelevant c (n + 1) a miss) :
    (c.multibyteStopAtMiss && miss) = (s.config.multibyteStopAtMiss && miss) ∨
      s.mapped a = false := by
  rcases h with h | h
  · exact .inl (by rw [h])
  · cases miss with
    | false => exact .inl (by simp)
    | true => exact .inr (by simpa using h 0 (by omega) (.inl rfl))

theorem State.readBytes_withConfig {s : State} {c : Config} (hc : SameMap c s.config) {n : Nat}
    {a : Word} {miss : Bool} (h : s.stopIrrelevant c n a miss) :
    (s.withConfig c).readBytes n a miss = s.readBytes n a miss := by
  induction n generalizing a miss with
  | zero => rfl
  | succ n ih =>
    rw [State.readBytes_succ, State.readBytes_succ, State.busRead_withConfig hc,
      ih (State.stopIrrelevant_succ h), State.withConfig_config]
    rcases State.stopIrrelevant_first h with hstop | hmiss
    · rw [hstop]
    · simp [State.busRead_of_not_mapped hmiss]

theorem State.writeBytes_withConfig {bs : List Byte} {s : State} {c : Config}
    (hc : SameMap c s.config) {a : Word} {miss : Bool} (h : s.stopIrrelevant c bs.length a miss) :
    (s.withConfig c).writeBytes bs a miss =
      ((s.writeBytes bs a miss).1.withConfig c, (s.writeBytes bs a miss).2) := by
  induction bs generalizing s a miss with
  | nil => rfl
  | cons b bs ih =>
    have hfirst : (if (c.multibyteStopAtMiss && miss) = true then s.withConfig c
          else (s.busWrite a b).1.withConfig c) =
        (if (s.config.multibyteStopAtMiss && miss) = true then s
          else (s.busWrite a b).1).withConfig c := by
      rcases State.stopIrrelevant_first h with hstop | hmiss
      · rw [hstop]
        split <;> rfl
      · simp [State.busWrite_of_not_mapped hmiss]
    rw [State.writeBytes_cons, State.writeBytes_cons, State.busRead_withConfig hc,
      State.busWrite_withConfig hc, State.withConfig_config, hfirst]
    obtain ⟨r, m, ht⟩ := s.writeFirst_withBytes a b (s.config.multibyteStopAtMiss && miss)
    rw [ht]
    refine ih (s := s.withBytes r m) hc ?_
    simpa [State.stopIrrelevant, State.mapped, State.miss_withBytes] using
      State.stopIrrelevant_succ h

theorem State.stopIrrelevant_of_missesAreSuffix {s : State} {a : Word} (h : s.missesAreSuffix a)
    (c : Config) : s.stopIrrelevant c 8 a false :=
  .inr fun k hk hmiss => by
    obtain ⟨j, hj, hmiss⟩ := hmiss.resolve_left Bool.false_ne_true
    exact h j k hj hk hmiss

/-- Settles O41: where no byte after a miss is mapped the setting makes no difference to any byte.
-/
theorem suffixMissesIgnoreStopSetting : Obligations.SuffixMissesIgnoreStopSetting := by
  intro s a v b h
  have hmap : SameMap { s.config with multibyteStopAtMiss := b } s.config := ⟨rfl, rfl⟩
  have hstop := State.stopIrrelevant_of_missesAreSuffix h
    { s.config with multibyteStopAtMiss := b }
  have hread := State.readBytes_withConfig hmap hstop
  have hwrite := State.writeBytes_withConfig (bs := bytesLE v) hmap hstop
  exact ⟨by rw [State.memRead, State.memRead, ← hread]; rfl, congrArg Prod.fst hwrite⟩

/-! ### The instructions -/

/-- Two sets of parameters under which every access is the same. -/
structure SameAccess (c c' : Config) : Prop extends SameMap c c' where
  stop : c.multibyteStopAtMiss = c'.multibyteStopAtMiss

theorem State.storeStage_withConfig {s : State} {c : Config} (h : SameAccess c s.config)
    (a v : Word) : (s.withConfig c).storeStage a v =
      ((s.storeStage a v).1.withConfig c, (s.storeStage a v).2) := by
  simp only [State.storeStage, State.memWrite,
    State.writeBytes_withConfig (bs := bytesLE v) h.toSameMap (.inl h.stop),
    State.raiseIf_withConfig]

theorem State.loadStage_withConfig {s : State} {c : Config} (h : SameAccess c s.config) (a : Word) :
    (s.withConfig c).loadStage a = ((s.loadStage a).1.withConfig c, (s.loadStage a).2) := by
  simp only [State.loadStage, State.memRead, State.readBytes_withConfig h.toSameMap (.inl h.stop),
    State.raiseIf_withConfig]

/-- Where every access is the same and every unused field passes the same check, an instruction does
the same. -/
theorem exec_withConfig {i : Instr} {s : State} {c : Config} (h : SameAccess c s.config)
    (hu : ∀ r ∈ i.unusedFields, (s.withConfig c).unusedOk r = s.unusedOk r) :
    exec i (s.withConfig c) = mapNext (fun t => t.withConfig c) (exec i s) := by
  cases i using Instr.classCases with
  | halt => simp [exec_halt, mapNext]
  | nop => simp [exec, execNop, mapNext]
  | cmov cond rA rB =>
    rw [exec_cmovInstr, exec_cmovInstr, mapNext]
    unfold cmov
    split
    · rw [← State.pcUpdate_withConfig, apply_ite (fun t : State => t.withConfig c)]
      rfl
    · rfl
  | irmovq rA rB v =>
    simp only [exec, execIrmovq, hu rA (by simp [Instr.unusedFields])]
    split
    · split <;> simp [mapNext]
    · simp [mapNext]
  | rmmovq rA rB d =>
    simp only [exec, execRmmovq, State.storeStage_withConfig h, State.reg_withConfig]
    split <;> simp [mapNext]
  | mrmovq rA rB d =>
    simp only [exec, execMrmovq, State.loadStage_withConfig h, State.reg_withConfig]
    split <;> simp [mapNext]
  | opq op rA rB =>
    simp only [exec_opqInstr, opq, mapNext]
    split <;> simp
  | jcc cond dest =>
    rw [exec_jccInstr, exec_jccInstr, mapNext, jcc, jcc, ← State.pcUpdate_withConfig]
    rfl
  | call dest => simp [exec, execCall, State.storeStage_withConfig h, mapNext]
  | ret => simp [exec, execRet, State.loadStage_withConfig h, mapNext]
  | pushq rA rB =>
    simp only [exec, execPushq, hu rB (by simp [Instr.unusedFields]), State.storeStage_withConfig h,
      State.reg_withConfig]
    split
    · split <;> simp [mapNext]
    · simp [mapNext]
  | popq rA rB =>
    simp only [exec, execPopq, hu rB (by simp [Instr.unusedFields]), State.loadStage_withConfig h,
      State.reg_withConfig]
    split
    · split <;> simp [mapNext]
    · simp [mapNext]
  | iaddq rA rB v =>
    simp only [exec, execIaddq, hu rA (by simp [Instr.unusedFields])]
    split
    · split <;> simp [mapNext]
    · simp [mapNext]

/-- RNONE in an unused field passes under every setting (40_cycle.md R134). -/
theorem State.unusedOk_none (s : State) : s.unusedOk none = true := by
  simp [State.unusedOk]

/-- Settles O19: the setting is read by the check of an unused field alone, which RNONE passes. -/
theorem canonicalIgnoresStrict : Obligations.CanonicalIgnoresStrict := by
  intro i s b hcanonical
  have hu : ∀ r ∈ i.unusedFields,
      (s.withConfig { s.config with strictUnusedReg := b }).unusedOk r = s.unusedOk r := by
    intro r hr
    obtain rfl : r = none := Option.isNone_iff_eq_none.mp (List.all_eq_true.mp hcanonical r hr)
    rw [State.unusedOk_none, State.unusedOk_none]
  obtain ⟨t, ht, hstep⟩ := exec_cpuStep i s
  obtain ⟨-, -, -, -, -, hconfig, -, -⟩ := hstep.frame
  have hexec := exec_withConfig (c := { s.config with strictUnusedReg := b }) ⟨⟨rfl, rfl⟩, rfl⟩ hu
  rw [ht] at hexec ⊢
  exact hexec.trans (by simp only [mapNext, hconfig]; rfl)

end Sys2Proof.Machine

/-! ## Proofs: the effects of the moves, OPQ, CALL, RET and PUSHQ (42_moves.md to 45_stack.md)

What the memory stage does from AOK and from ADR, what each of these instructions does from either,
and the check of the unused register field. -/

namespace Sys2Proof.Machine

/-! ### The memory stage -/

@[simp] theorem State.memWrite_regs (s : State) (a v : Word) :
    (s.memWrite a v).1.regs = s.regs := by
  obtain ⟨r, c, h⟩ := s.memWrite_withBytes a v
  rw [h, State.withBytes_regs]

@[simp] theorem State.memWrite_cc (s : State) (a v : Word) : (s.memWrite a v).1.cc = s.cc := by
  obtain ⟨r, c, h⟩ := s.memWrite_withBytes a v
  rw [h, State.withBytes_cc]

@[simp] theorem State.memWrite_stat (s : State) (a v : Word) :
    (s.memWrite a v).1.stat = s.stat := by
  obtain ⟨r, c, h⟩ := s.memWrite_withBytes a v
  rw [h, State.withBytes_stat]

@[simp] theorem State.memWrite_pc (s : State) (a v : Word) : (s.memWrite a v).1.pc = s.pc := by
  obtain ⟨r, c, h⟩ := s.memWrite_withBytes a v
  rw [h, State.withBytes_pc]

/-- Raising ADR from AOK or ADR sets STAT to ADR (10_state.md R27). -/
theorem State.raise_adr_of_aok {s : State} (hs : s.stat = .aok) :
    s.raise .adr = { s with stat := .adr } := by
  rw [State.raise, hs, Stat.merge_aok_left]

/-- Raising ADR again changes nothing (10_state.md R27). -/
theorem State.raise_adr_of_adr {s : State} (hs : s.stat = .adr) : s.raise .adr = s := by
  rw [State.raise, hs, Stat.merge_self, ← hs]

/-- A store to eight mapped addresses (40_cycle.md R146). -/
theorem State.storeStage_of_mapped8 {s : State} {a : Word} (h : s.mapped8 a = true) (v : Word) :
    s.storeStage a v = ((s.memWrite a v).1, true) := by
  rw [State.storeStage_eq, h, if_pos rfl]

/-- A store that misses, after a fetch without a miss (40_cycle.md R146). -/
theorem State.storeStage_of_missed {s : State} {a : Word} (hs : s.stat = .aok)
    (h : s.mapped8 a = false) (v : Word) :
    s.storeStage a v = ({ (s.memWrite a v).1 with stat := .adr }, false) := by
  rw [State.storeStage_eq, h, if_neg Bool.false_ne_true,
    State.raise_adr_of_aok (by rw [State.memWrite_stat, hs])]

/-- A store after a fetch miss, whether or not it misses as well (40_cycle.md R146). -/
theorem State.storeStage_of_adr {s : State} (hs : s.stat = .adr) (a v : Word) :
    s.storeStage a v = ((s.memWrite a v).1, s.mapped8 a) := by
  rw [State.storeStage_eq, State.raise_adr_of_adr (by rw [State.memWrite_stat, hs]), ite_self]

/-- A load from eight mapped addresses (40_cycle.md R146). -/
theorem State.loadStage_of_mapped8 {s : State} {a : Word} (h : s.mapped8 a = true) :
    s.loadStage a = (s, (s.memRead a).1, true) := by
  rw [State.loadStage_eq, h, if_pos rfl]

/-- A load that misses, after a fetch without a miss (40_cycle.md R146). -/
theorem State.loadStage_of_missed {s : State} {a : Word} (hs : s.stat = .aok)
    (h : s.mapped8 a = false) :
    s.loadStage a = ({ s with stat := .adr }, (s.memRead a).1, false) := by
  rw [State.loadStage_eq, h, if_neg Bool.false_ne_true, State.raise_adr_of_aok hs]

/-- A load after a fetch miss, whether or not it misses as well (40_cycle.md R146). -/
theorem State.loadStage_of_adr {s : State} (hs : s.stat = .adr) (a : Word) :
    s.loadStage a = (s, (s.memRead a).1, s.mapped8 a) := by
  rw [State.loadStage_eq, State.raise_adr_of_adr hs, ite_self]

/-- The guard `fetch_ok` after a fetch miss. -/
theorem State.fetchOk_of_adr {s : State} (h : s.stat = .adr) : s.fetchOk = false :=
  State.fetchOk_of_not_aok (by simp [h])

/-! ### The unused register field -/

/-- `irmovq` where both register fields pass (42_moves.md R188). -/
theorem exec_irmovq_of_unusedOk {s : State} {rA : RegId} (hu : s.unusedOk rA = true) (b : Reg)
    (v : Word) :
    exec (.irmovq rA (some b) v) s = .next ((s.setReg b v).pcUpdate s.fetchOk (s.pc + 10)) :=
  if_pos hu

/-- `irmovq` where the unused field fails its check (42_moves.md R188). -/
theorem exec_irmovq_of_not_unusedOk {s : State} {rA : RegId} (hu : s.unusedOk rA = false)
    (rB : RegId) (v : Word) : exec (.irmovq rA rB v) s = .next (s.raise .ins) := by
  cases rB with
  | none => rfl
  | some b => simp [exec, execIrmovq, hu]

/-- `pushq` where both register fields pass (45_stack.md R240). -/
theorem exec_pushq_of_unusedOk {s : State} {rB : RegId} (hu : s.unusedOk rB = true) (a : Reg) :
    exec (.pushq (some a) rB) s =
      .next (((s.storeStage (s.reg .rsp - 8) (s.reg a)).1.setReg .rsp (s.reg .rsp - 8)).pcUpdate
        (s.fetchOk && (s.storeStage (s.reg .rsp - 8) (s.reg a)).2) (s.pc + 2)) :=
  if_pos hu

/-- `pushq` where the unused field fails its check (45_stack.md R240). -/
theorem exec_pushq_of_not_unusedOk {s : State} {rB : RegId} (hu : s.unusedOk rB = false)
    (rA : RegId) : exec (.pushq rA rB) s = .next (s.raise .ins) := by
  cases rA with
  | none => rfl
  | some a => simp [exec, execPushq, hu]

@[simp] theorem unusedFields_cmovInstr (c : Cond) (rA rB : RegId) :
    (cmovInstr c rA rB).unusedFields = [] := by
  cases c <;> rfl

@[simp] theorem unusedFields_opqInstr (op : AluOp) (rA rB : RegId) :
    (opqInstr op rA rB).unusedFields = [] := by
  cases op <;> rfl

@[simp] theorem unusedFields_jccInstr (c : Cond) (dest : Word) :
    (jccInstr c dest).unusedFields = [] := by
  cases c <;> rfl

/-- An instruction that is not canonical has an unused field, and under `STRICT_UNUSED_REG` its
check fails (the spec's decision D5). -/
theorem exec_of_not_canonical {i : Instr} {s : State} (hs : s.config.strictUnusedReg = true)
    (h : i.canonical = false) : exec i s = .next (s.raise .ins) := by
  cases i using Instr.classCases with
  | halt | nop | rmmovq | mrmovq | call | ret => cases h
  | cmov | opq | jcc => simp [Instr.canonical] at h
  | irmovq rA rB v =>
    have hr : rA ≠ none := by rintro rfl; cases h
    exact exec_irmovq_of_not_unusedOk (State.unusedOk_of_strict hs hr) rB v
  | iaddq rA rB v =>
    have hr : rA ≠ none := by rintro rfl; cases h
    exact exec_iaddq_of_not_unusedOk (State.unusedOk_of_strict hs hr) rB v
  | pushq rA rB =>
    have hr : rB ≠ none := by rintro rfl; cases h
    exact exec_pushq_of_not_unusedOk (State.unusedOk_of_strict hs hr) rA
  | popq rA rB =>
    have hr : rB ≠ none := by rintro rfl; cases h
    exact exec_popq_of_not_unusedOk (State.unusedOk_of_strict hs hr) rA

/-- Settles O18: the four classes with an unused field check it. -/
theorem strictUnusedFieldRaisesIns : Obligations.StrictUnusedFieldRaisesIns :=
  fun _ _ => exec_of_not_canonical

/-! ### The effects -/

/-- A range of illegal values of byte 0, by a check of the 28 valid ones (30_encoding.md R99). -/
theorem rejectsByte0_of_all {lo hi : Nat}
    (h : validByte0.all (fun b => decide (b.toNat < lo) || decide (hi < b.toNat)) = true) :
    rejectsByte0 lo hi :=
  rejectsByte0_of_forall_validByte0 fun b hb => by simpa using List.all_eq_true.mp h b hb

/-- Settles O24: STAT decides whether the PC is written beside rB. -/
theorem irmovqEffect : Obligations.IrmovqEffect := by
  refine ⟨fun rA b v s hs hu => ?_, fun rA b v s hs hu => ?_, fun _ _ _ => rfl,
    fun rA rB v s hc hr => exec_irmovq_of_not_unusedOk (State.unusedOk_of_strict hc hr) rB v,
    fun _ => State.unusedOk_of_not_strict, fun _ _ _ => rfl,
    rejectsByte0_of_all rfl⟩
  · rw [exec_irmovq_of_unusedOk hu, State.fetchOk_of_aok hs]
    rfl
  · rw [exec_irmovq_of_unusedOk hu, State.fetchOk_of_adr hs]
    rfl

/-- `rmmovq` on two registers (42_moves.md R189). -/
theorem exec_rmmovq (a b : Reg) (d : Word) (s : State) :
    exec (.rmmovq (some a) (some b) d) s =
      .next ((s.storeStage (effectiveAddress (s.reg b) d) (s.reg a)).1.pcUpdate
        (s.fetchOk && (s.storeStage (effectiveAddress (s.reg b) d) (s.reg a)).2) (s.pc + 10)) := rfl

/-- Settles O25: the store stage decides whether ADR is raised or the PC updated. -/
theorem rmmovqEffect : Obligations.RmmovqEffect := by
  refine ⟨fun a b d s hs hm => ?_, fun a b d s hs hm => ?_,
    fun a b d s hs => ⟨_, exec_rmmovq a b d s, ?_, ?_⟩, fun _ _ => rfl,
    fun rA rB d s h => execRmmovq_of_rnone h d s, fun _ _ _ => rfl,
    rejectsByte0_of_all rfl⟩
  · rw [exec_rmmovq, State.storeStage_of_mapped8 hm, State.fetchOk_of_aok hs]
    rfl
  · rw [exec_rmmovq, State.storeStage_of_missed hs hm, Bool.and_false, State.pcUpdate_false]
  · obtain ⟨r, c, n, h⟩ := s.storeStage_withBytes (effectiveAddress (s.reg b) d) (s.reg a)
    rw [State.pcUpdate_regs, h]
    rfl
  · rw [State.pcUpdate_cc, State.storeStage_cc]

/-- `mrmovq` on two registers (42_moves.md R190). -/
theorem exec_mrmovq (a b : Reg) (d : Word) (s : State) :
    exec (.mrmovq (some a) (some b) d) s =
      .next (((s.loadStage (effectiveAddress (s.reg b) d)).1.setReg a
        (s.loadStage (effectiveAddress (s.reg b) d)).2.1).pcUpdate
          (s.fetchOk && (s.loadStage (effectiveAddress (s.reg b) d)).2.2) (s.pc + 10)) := rfl

/-- Settles O26: the load stage decides whether ADR is raised or the PC updated beside rA. -/
theorem mrmovqEffect : Obligations.MrmovqEffect := by
  refine ⟨fun a b d s hs hm => ?_, fun a b d s hs hm => ?_,
    fun _ _ _ => State.byteOf_memRead_of_not_mapped, fun _ _ => rfl,
    fun rA rB d s h => execMrmovq_of_rnone h d s, fun _ _ _ => rfl,
    rejectsByte0_of_all rfl⟩
  · rw [exec_mrmovq, State.loadStage_of_mapped8 hm, State.fetchOk_of_aok hs]
    rfl
  · rw [exec_mrmovq, State.loadStage_of_missed hs hm, Bool.and_false, State.pcUpdate_false]
    rfl

/-- The flags are those of the table (40_cycle.md R141). -/
theorem aluFlags_flagTable : flagTable := by
  refine fun b a => ⟨fun _ => rfl, fun op => ?_, ?_, ?_, rfl, rfl⟩
  · exact BitVec.msb_eq_getLsbD_last (alu op b a)
  · rw [aluFlags_add]
  · simp only [aluFlags, alu, overflow, BitVec.msb_eq_getLsbD_last]

theorem encode_opqInstr (op : AluOp) (rA rB : RegId) :
    encode (opqInstr op rA rB) = [BitVec.ofNat 8 (0x60 + aluIfun op), regByte rA rB] := by
  cases op <;> rfl

/-- Settles O27: all four instructions are `opq` at their operation, and STAT decides whether the
flags and the PC are written beside rB. -/
theorem opqEffect : Obligations.OpqEffect := by
  refine ⟨fun op a b s hs => ?_, fun op a b s hs => ?_, fun _ _ => ⟨rfl, rfl, rfl, rfl⟩,
    aluFlags_flagTable, fun op rA rB s h => ?_, encode_opqInstr,
    rejectsByte0_of_all rfl⟩
  · rw [exec_opqInstr, opq, State.writeCC_of_aok hs, State.fetchOk_of_aok hs]
    rfl
  · rw [exec_opqInstr, opq, State.writeCC_of_not_aok (by simp [hs]), State.fetchOk_of_adr hs]
    rfl
  · rw [exec_opqInstr, opq_of_rnone h]

/-- `call` (44_control.md R228). -/
theorem exec_call (dest : Word) (s : State) :
    exec (.call dest) s =
      .next (((s.storeStage (s.reg .rsp - 8) (s.pc + 9)).1.setReg .rsp (s.reg .rsp - 8)).pcUpdate
        (s.fetchOk && (s.storeStage (s.reg .rsp - 8) (s.pc + 9)).2) dest) := rfl

/-- A register written after a store. -/
theorem State.setReg_memWrite (s : State) (a v : Word) (r : Reg) (w : Word) :
    (s.memWrite a v).1.setReg r w = { (s.memWrite a v).1 with regs := s.regs.set r w } := by
  rw [State.setReg, State.memWrite_regs]

/-- Settles O30: the store stage decides whether ADR is raised or the PC updated beside RSP. -/
theorem callEffect : Obligations.CallEffect := by
  refine ⟨fun dest s hs hm => ?_, fun dest s hs hm => ?_,
    fun s a v => ⟨s.memWrite_cc a v, s.memWrite_pc a v⟩, fun _ => rfl,
    rejectsByte0_of_all rfl⟩
  · rw [exec_call, State.storeStage_of_mapped8 hm, State.fetchOk_of_aok hs, State.setReg_memWrite]
    rfl
  · rw [exec_call, State.storeStage_of_missed hs hm, Bool.and_false, State.pcUpdate_false,
      State.setReg, State.memWrite_regs]

/-- `ret` (44_control.md R229). -/
theorem exec_ret (s : State) :
    exec .ret s =
      .next (((s.loadStage (s.reg .rsp)).1.setReg .rsp (s.reg .rsp + 8)).pcUpdate
        (s.fetchOk && (s.loadStage (s.reg .rsp)).2.2) (s.loadStage (s.reg .rsp)).2.1) := rfl

/-- Settles O31: the load stage decides whether ADR is raised or the PC updated beside RSP. -/
theorem retEffect : Obligations.RetEffect := by
  refine ⟨fun s hs hm => ?_, fun s hs hm => ?_, rfl, rejectsByte0_of_all rfl⟩
  · rw [exec_ret, State.loadStage_of_mapped8 hm, State.fetchOk_of_aok hs]
    rfl
  · rw [exec_ret, State.loadStage_of_missed hs hm, Bool.and_false, State.pcUpdate_false]
    rfl

/-- Settles O32: the store stage decides whether ADR is raised or the PC updated beside RSP, and the
check of each register field raises INS alone. -/
theorem pushqEffect : Obligations.PushqEffect := by
  refine ⟨fun a rB s hs hu hm => ?_, fun a rB s hs hu hm => ?_,
    fun s a v => ⟨s.memWrite_cc a v, s.memWrite_pc a v⟩, fun _ _ => rfl,
    fun rA rB s hc hr => exec_pushq_of_not_unusedOk (State.unusedOk_of_strict hc hr) rA,
    fun _ => State.unusedOk_of_not_strict, fun _ _ => rfl,
    rejectsByte0_of_all rfl⟩
  · rw [exec_pushq_of_unusedOk hu, State.storeStage_of_mapped8 hm, State.fetchOk_of_aok hs,
      State.setReg_memWrite]
    rfl
  · rw [exec_pushq_of_unusedOk hu, State.storeStage_of_missed hs hm, Bool.and_false,
      State.pcUpdate_false, State.setReg, State.memWrite_regs]

/-- Settles O60: after a fetch miss the guard of the PC update is clear, and ADR raised again
changes nothing. -/
theorem effectsAfterFetchMiss : Obligations.EffectsAfterFetchMiss := by
  refine ⟨fun c a b s hs => ?_, fun a b d s hs => ?_, fun a b d s hs => ?_, fun dest s hs => ?_,
    fun a rB s hs hu => ?_, fun a rB s hs hu => ?_, State.memWrite_withBytes⟩
  · rw [exec_cmovInstr, cmov, State.fetchOk_of_adr hs, State.pcUpdate_false]
    split <;> rfl
  · rw [exec_rmmovq, State.fetchOk_of_adr hs, State.storeStage_of_adr hs]
    rfl
  · rw [exec_mrmovq, State.fetchOk_of_adr hs, State.loadStage_of_adr hs]
    rfl
  · rw [exec_call, State.fetchOk_of_adr hs, State.storeStage_of_adr hs, State.setReg_memWrite]
    rfl
  · rw [exec_pushq_of_unusedOk hu, State.fetchOk_of_adr hs, State.storeStage_of_adr hs,
      State.setReg_memWrite]
    rfl
  · rw [exec_popq_of_unusedOk hu, State.fetchOk_of_adr hs, State.loadStage_of_adr hs]
    rfl

end Sys2Proof.Machine

/-! ## Proofs: what an instruction writes (40_cycle.md)

The registers of the write-back table; the bytes of memory, which are those of one store or of none
(`exec_bytesWritten`); and a word stored and loaded back, by PUSHQ and POPQ and by CALL and RET. -/

namespace Sys2Proof.Machine

/-! ### The registers -/

@[simp] theorem State.storeStage_reg (s : State) (a v : Word) (r : Reg) :
    (s.storeStage a v).1.reg r = s.reg r := by
  obtain ⟨m, c, n, h⟩ := s.storeStage_withBytes a v
  rw [h]; rfl

@[simp] theorem State.loadStage_reg (s : State) (a : Word) (r : Reg) :
    (s.loadStage a).1.reg r = s.reg r := by
  simp [State.loadStage]

@[simp] theorem destinations_cmovInstr (c : Cond) (rA rB : RegId) :
    destinations (cmovInstr c rA rB) = rB.toList := by
  cases c <;> rfl

@[simp] theorem destinations_opqInstr (op : AluOp) (rA rB : RegId) :
    destinations (opqInstr op rA rB) = rB.toList := by
  cases op <;> rfl

/-- An instruction leaves every register alone but those of the write-back table (40_cycle.md R150).
-/
theorem exec_reg_of_notMem_destinations {i : Instr} {s t : State} {r : Reg}
    (h : exec i s = .next t) (hr : r ∉ destinations i) : t.reg r = s.reg r := by
  cases i using Instr.classCases with
  | halt => rw [exec_halt] at h; cases h; rfl
  | nop => cases h; simp
  | cmov c rA rB =>
    rw [exec_cmovInstr] at h
    cases h
    unfold cmov
    split
    · next a b =>
      have hb : r ≠ b := by simpa using hr
      split <;> simp [hb]
    · rfl
  | irmovq rA rB v =>
    simp only [exec, execIrmovq] at h
    split at h
    · next b =>
      have hb : r ≠ b := by simpa [destinations] using hr
      split at h <;> cases h <;> simp [hb]
    · cases h; rfl
  | rmmovq rA rB d =>
    simp only [exec, execRmmovq] at h
    split at h <;> cases h <;> simp
  | mrmovq rA rB d =>
    simp only [exec, execMrmovq] at h
    split at h <;> cases h
    · next a b =>
      have ha : r ≠ a := by simpa [destinations] using hr
      simp [ha]
    · rfl
  | opq op rA rB =>
    rw [exec_opqInstr] at h
    cases h
    unfold opq
    split
    · next a b =>
      have hb : r ≠ b := by simpa using hr
      simp [hb]
    · rfl
  | jcc c dest =>
    rw [exec_jccInstr] at h
    cases h
    simp [jcc]
  | call dest =>
    have hsp : r ≠ .rsp := by simpa [destinations] using hr
    cases h
    simp [hsp]
  | ret =>
    have hsp : r ≠ .rsp := by simpa [destinations] using hr
    cases h
    simp [hsp]
  | pushq rA rB =>
    have hsp : r ≠ .rsp := by simpa [destinations] using hr
    simp only [exec, execPushq] at h
    split at h
    · split at h <;> cases h <;> simp [hsp]
    · cases h; rfl
  | popq rA rB =>
    simp only [exec, execPopq] at h
    split at h
    · next a =>
      have hne : r ≠ .rsp ∧ r ≠ a := by simpa [destinations] using hr
      split at h <;> cases h <;> simp [hne]
    · cases h; rfl
  | iaddq rA rB v =>
    simp only [exec, execIaddq] at h
    split at h
    · next b =>
      have hb : r ≠ b := by simpa [destinations] using hr
      split at h <;> cases h <;> simp [hb]
    · cases h; rfl

/-- Settles O43: each class writes through `setReg` the registers of its row of the table. -/
theorem registersWrittenAreTheTables : Obligations.RegistersWrittenAreTheTables :=
  fun _ _ _ _ => exec_reg_of_notMem_destinations

/-! ### The bytes of memory -/

theorem SameBus.refl (s : State) : SameBus s s := ⟨rfl, rfl, rfl, rfl, rfl⟩

theorem SameBus.setReg {s t : State} (h : SameBus s t) (r : Reg) (v : Word) :
    SameBus s (t.setReg r v) := ⟨h.config, h.ram, h.ppuConfig, h.timer, h.joystick⟩

theorem SameBus.raise {s t : State} (h : SameBus s t) (n : Stat) : SameBus s (t.raise n) :=
  ⟨h.config, h.ram, h.ppuConfig, h.timer, h.joystick⟩

theorem SameBus.pcUpdate {s t : State} (h : SameBus s t) (ok : Bool) (target : Word) :
    SameBus s (t.pcUpdate ok target) := by
  cases ok
  · exact h
  · exact ⟨h.config, h.ram, h.ppuConfig, h.timer, h.joystick⟩

theorem SameBus.writeCC {s t : State} (h : SameBus s t) (f : CC) : SameBus s (t.writeCC f) := by
  unfold State.writeCC
  split
  · exact ⟨h.config, h.ram, h.ppuConfig, h.timer, h.joystick⟩
  · exact h

/-- A load leaves every byte alone. -/
theorem SameBus.loadStage (s : State) (a : Word) : SameBus s (s.loadStage a).1 := by
  rw [State.loadStage_eq]
  cases s.mapped8 a
  · exact (SameBus.refl s).raise _
  · exact SameBus.refl s

/-- A store leaves the bytes of its `MemWrite`. -/
theorem SameBus.storeStage (s : State) (a v : Word) :
    SameBus (s.memWrite a v).1 (s.storeStage a v).1 := by
  rw [State.storeStage_eq]
  cases s.mapped8 a
  · exact (SameBus.refl _).raise _
  · exact SameBus.refl _

/-- What an instruction that stores to `addr`, if to any address, does to the bytes: nothing, or one
`MemWrite` to that address. -/
inductive BytesWritten (s t : State) (addr : Option Word) : Prop
  | unchanged (h : SameBus s t)
  | word (a v : Word) (ha : addr = some a) (h : SameBus (s.memWrite a v).1 t)

/-- An instruction changes the bytes of memory by one `MemWrite` at most (40_cycle.md R146). -/
theorem exec_bytesWritten {i : Instr} {s t : State} (h : exec i s = .next t) :
    BytesWritten s t (storeAddress s i) := by
  have hrefl := SameBus.refl s
  cases i using Instr.classCases with
  | halt => rw [exec_halt] at h; cases h; exact .unchanged (hrefl.raise _)
  | nop => cases h; exact .unchanged (hrefl.pcUpdate _ _)
  | cmov c rA rB =>
    rw [exec_cmovInstr] at h
    cases h
    unfold cmov
    split
    · split
      · exact .unchanged ((hrefl.setReg _ _).pcUpdate _ _)
      · exact .unchanged (hrefl.pcUpdate _ _)
    · exact .unchanged (hrefl.raise _)
  | irmovq rA rB v =>
    simp only [exec, execIrmovq] at h
    split at h
    · split at h <;> cases h
      · exact .unchanged ((hrefl.setReg _ _).pcUpdate _ _)
      · exact .unchanged (hrefl.raise _)
    · cases h; exact .unchanged (hrefl.raise _)
  | rmmovq rA rB d =>
    simp only [exec, execRmmovq] at h
    split at h <;> cases h
    · exact .word _ _ rfl ((SameBus.storeStage s _ _).pcUpdate _ _)
    · exact .unchanged (hrefl.raise _)
  | mrmovq rA rB d =>
    simp only [exec, execMrmovq] at h
    split at h <;> cases h
    · exact .unchanged (((SameBus.loadStage s _).setReg _ _).pcUpdate _ _)
    · exact .unchanged (hrefl.raise _)
  | opq op rA rB =>
    rw [exec_opqInstr] at h
    cases h
    unfold opq
    split
    · exact .unchanged (((hrefl.writeCC _).setReg _ _).pcUpdate _ _)
    · exact .unchanged (hrefl.raise _)
  | jcc c dest =>
    rw [exec_jccInstr] at h
    cases h
    exact .unchanged (hrefl.pcUpdate _ _)
  | call dest =>
    cases h
    exact .word _ _ rfl (((SameBus.storeStage s _ _).setReg _ _).pcUpdate _ _)
  | ret => cases h; exact .unchanged (((SameBus.loadStage s _).setReg _ _).pcUpdate _ _)
  | pushq rA rB =>
    simp only [exec, execPushq] at h
    split at h
    · split at h <;> cases h
      · exact .word _ _ rfl (((SameBus.storeStage s _ _).setReg _ _).pcUpdate _ _)
      · exact .unchanged (hrefl.raise _)
    · cases h; exact .unchanged (hrefl.raise _)
  | popq rA rB =>
    simp only [exec, execPopq] at h
    split at h
    · split at h <;> cases h
      · exact .unchanged ((((SameBus.loadStage s _).setReg _ _).setReg _ _).pcUpdate _ _)
      · exact .unchanged (hrefl.raise _)
    · cases h; exact .unchanged (hrefl.raise _)
  | iaddq rA rB v =>
    simp only [exec, execIaddq] at h
    split at h
    · split at h <;> cases h
      · exact .unchanged (((hrefl.writeCC _).setReg _ _).pcUpdate _ _)
      · exact .unchanged (hrefl.raise _)
    · cases h; exact .unchanged (hrefl.raise _)

/-- An address that is not routed to one of the eight bytes stored to reads as before. -/
theorem BytesWritten.busRead_eq {s t : State} {addr : Option Word} (h : BytesWritten s t addr)
    {x : Word} (hx : ∀ a ∈ addr, ∀ k, k < 8 →
      s.resolve (a + BitVec.ofNat 64 k) = s.resolve x → s.resolve x = none) :
    t.busRead x = s.busRead x := by
  cases h with
  | unchanged h => exact h.busRead x
  | word a v ha h =>
    rw [h.busRead]
    exact State.busRead_writeBytes_ne _ s a x false (hx a ha)

/-- Settles O42: one `MemWrite` at most, and on a map without aliases no other address is routed to
its bytes. -/
theorem storesOnlyAtTheirAddress : Obligations.StoresOnlyAtTheirAddress := by
  refine ⟨fun i s t x h hnone => ?_, fun i s t a x h ha hx => ?_,
    fun i s t a x h ha halias hx => ?_⟩
  · exact (exec_bytesWritten h).busRead_eq (by simp [hnone])
  · exact (exec_bytesWritten h).busRead_eq (by simpa [ha] using hx)
  · refine (exec_bytesWritten h).busRead_eq fun a' ha' k hk hr => ?_
    obtain rfl : a = a' := by simpa [ha] using ha'
    cases hres : s.resolve x with
    | none => rfl
    | some l => exact absurd (halias _ _ l hres (hr.trans hres)) (hx k hk)

/-! ### A word stored and loaded back -/

theorem eightAddresses_eq_map (a : Word) :
    eightAddresses a = (List.range 8).map fun k => a + BitVec.ofNat 64 k := by
  simp [eightAddresses, List.range_succ]

/-- Each of the eight addresses is writable. -/
theorem State.writable_of_writable8 {s : State} {a : Word} (h : s.writable8 a = true) {k : Nat}
    (hk : k < 8) : s.writable (a + BitVec.ofNat 64 k) = true := by
  rw [State.writable8, eightAddresses_eq_map, List.all_map, List.all_eq_true] at h
  exact h k (List.mem_range.mpr hk)

/-- A writable address is mapped. -/
theorem State.mapped_of_writable {s : State} {a : Word} (h : s.writable a = true) :
    s.mapped a = true := by
  rw [State.writable] at h
  rw [State.mapped]
  cases hr : s.resolve a with
  | none => rw [hr] at h; cases h
  | some l =>
    obtain ⟨d, rel⟩ := l
    rw [State.busRead_of_resolve hr]
    cases d with
    | ram =>
      rw [hr] at h
      simp [State.deviceRead, of_decide_eq_true h]
    | ppu | timer | joystick => rfl

theorem State.mapped8_of_writable8 {s : State} {a : Word} (h : s.writable8 a = true) :
    s.mapped8 a = true := by
  rw [State.mapped8, eightAddresses_eq_map, List.all_map, List.all_eq_true]
  exact fun k hk => State.mapped_of_writable (State.writable_of_writable8 h (List.mem_range.mp hk))

/-- A word stored at eight writable addresses without aliases is loaded back, whatever else than the
bytes has changed since. -/
theorem State.memRead_of_sameBus_memWrite {s t : State} {a v : Word}
    (h : SameBus (s.memWrite a v).1 t) (hw : s.writable8 a = true) (hd : s.distinct8 a) :
    t.memRead a = (v, false) := by
  have hmapped : ∀ j, j < 8 → s.mapped (a + BitVec.ofNat 64 j) = true :=
    fun j hj => State.mapped_of_writable (State.writable_of_writable8 hw hj)
  have hbyte : ∀ k, k < 8 →
      (s.memWrite a v).1.busRead (a + BitVec.ofNat 64 k) = ⟨byteOf k v, false⟩ := by
    intro k hk
    rw [← bytesLE_getD hk]
    exact State.busRead_writeBytes_of_reached hk (State.distinctFrom_of_distinct8 hd hk)
      (State.writable_of_writable8 hw hk) (.inr ⟨rfl, fun j hj => hmapped j (by omega)⟩)
  have hdata : ((List.range 8).map fun k =>
      ((s.memWrite a v).1.busRead (a + BitVec.ofNat 64 k)).data) = bytesLE v :=
    List.map_congr_left (g := fun k => byteOf k v) fun k hk => by
      rw [hbyte k (List.mem_range.mp hk)]
  rw [h.memRead, State.memRead_of_mapped8, hdata, le64_bytesLE]
  exact (State.mapped8_iff _ a).mpr fun k hk => by rw [hbyte k hk]

/-- A word that is read without a miss stands at eight mapped addresses. -/
theorem State.mapped8_of_memRead {s : State} {a v : Word} (h : s.memRead a = (v, false)) :
    s.mapped8 a = true := by
  have hmiss := s.memRead_miss a
  rw [h] at hmiss
  simpa using hmiss

/-- Writing to a register what it holds changes nothing. -/
@[simp] theorem RegFile.set_get_self (f : RegFile) (r : Reg) : f.set r (f.get r) = f := by
  cases r <;> rfl

/-- What a push or a call leaves: a word stored at RSP - 8, RSP decremented and the PC moved. -/
def State.pushed (s : State) (v pc : Word) : State :=
  { (s.memWrite (s.reg .rsp - 8) v).1 with
    regs := s.regs.set .rsp (s.reg .rsp - 8)
    pc := pc }

theorem State.pushed_sameBus (s : State) (v pc : Word) :
    SameBus (s.memWrite (s.reg .rsp - 8) v).1 (s.pushed v pc) := ⟨rfl, rfl, rfl, rfl, rfl⟩

@[simp] theorem State.pushed_pc (s : State) (v pc : Word) : (s.pushed v pc).pc = pc := rfl

@[simp] theorem State.pushed_cc (s : State) (v pc : Word) : (s.pushed v pc).cc = s.cc :=
  s.memWrite_cc _ v

@[simp] theorem State.pushed_stat (s : State) (v pc : Word) : (s.pushed v pc).stat = s.stat :=
  s.memWrite_stat _ v

@[simp] theorem State.pushed_regs (s : State) (v pc : Word) :
    (s.pushed v pc).regs = s.regs.set .rsp (s.reg .rsp - 8) := rfl

@[simp] theorem State.reg_rsp_pushed (s : State) (v pc : Word) :
    (s.pushed v pc).reg .rsp = s.reg .rsp - 8 := rfl

@[simp] theorem State.pushed_config (s : State) (v pc : Word) :
    (s.pushed v pc).config = s.config := by
  obtain ⟨r, c, h⟩ := s.memWrite_withBytes (s.reg .rsp - 8) v
  rw [State.pushed, h, State.withBytes_config]

/-- Settles O49: the pop loads the word the push stored, and 8 is added to what it was subtracted
from. -/
theorem pushThenPop : Obligations.PushThenPop := by
  intro a b rB rB' s hs hu hu' hw hd
  obtain ⟨hpush, -⟩ := pushqEffect
  obtain ⟨hpop, -⟩ := popqEffect
  have hload := State.memRead_of_sameBus_memWrite (s.pushed_sameBus (s.reg a) (s.pc + 2)) hw hd
  have hpop' := hpop b rB' (s.pushed (s.reg a) (s.pc + 2)) (by simpa using hs)
    (by simpa [State.unusedOk] using hu') (State.mapped8_of_memRead hload)
  rw [State.reg_rsp_pushed, hload, BitVec.sub_add_cancel] at hpop'
  refine ⟨_, _, hpush a rB s hs hu (State.mapped8_of_writable8 hw), hpop', ?_, fun hb => ?_, ?_, ?_⟩
  · simp [State.reg]
  · simp [State.reg, hb.symm]
  · simpa using hs
  · simp [BitVec.add_assoc]

/-- Settles O50: the return loads the address the call stored. -/
theorem callThenRet : Obligations.CallThenRet := by
  intro dest s hs hw hd
  obtain ⟨hcall, -⟩ := callEffect
  obtain ⟨hret, -⟩ := retEffect
  have hload := State.memRead_of_sameBus_memWrite (s.pushed_sameBus (s.pc + 9) dest) hw hd
  have hret' := hret (s.pushed (s.pc + 9) dest) (by simpa using hs)
    (State.mapped8_of_memRead hload)
  rw [State.reg_rsp_pushed, hload, BitVec.sub_add_cancel] at hret'
  refine ⟨_, _, hcall dest s hs (State.mapped8_of_writable8 hw), rfl, hret', rfl, ?_, ?_, ?_⟩
  · simp [State.reg]
  · simp
  · simpa using hs

end Sys2Proof.Machine

/-! ## Proofs: the PPU, the joystick and the invariant (60_exceptions.md)

Which pixels a composition turns on, and that it depends on the bus alone; the button byte; and the
invariant of reset, of a cycle and of the end of an iteration, which together every step keeps. -/

namespace Sys2Proof.Machine

/-! ### The active list -/

/-- The numbers of the enabled records, ascending (60_exceptions.md R276). -/
def enabledRecords (config : Memory) : List Nat :=
  recordNumbers.filter fun i => (spriteRecord config i).enabled

theorem parseSprites_eq_map (config : Memory) :
    parseSprites config = (enabledRecords config).map (spriteRecord config) :=
  List.filter_map

theorem mem_recordNumbers {i : Nat} : i ∈ recordNumbers ↔ i < 16 :=
  List.mem_range (n := 16)

theorem Sprite.enabled_iff (p : Sprite) : p.enabled = true ↔ p.width ≠ 0 ∧ p.height ≠ 0 := by
  rw [Sprite.enabled, Bool.and_eq_true, bne_iff_ne, bne_iff_ne]

theorem mem_enabledRecords {config : Memory} {i : Nat} : i ∈ enabledRecords config ↔
    i < 16 ∧ (spriteRecord config i).width ≠ 0 ∧ (spriteRecord config i).height ≠ 0 := by
  rw [enabledRecords, List.mem_filter, mem_recordNumbers, Sprite.enabled_iff]

theorem pairwise_enabledRecords (config : Memory) : (enabledRecords config).Pairwise (· < ·) :=
  (List.pairwise_lt_range (n := 16)).filter _

/-- At most 16 records are enabled (60_exceptions.md R276). -/
theorem length_parseSprites_le (config : Memory) : (parseSprites config).length ≤ 16 :=
  List.length_filter_le _ _

theorem all_enabled_parseSprites (config : Memory) :
    (parseSprites config).all Sprite.enabled = true :=
  List.all_eq_true.mpr fun _ hp => (List.mem_filter.mp hp).2

/-! ### The composition -/

section Pixel

variable {px py : Nat} (hx : px < displayWidth) (hy : py < displayHeight)
include hx hy

/-- A pixel of the display after `set_pixel`, which clips a pixel outside (60_exceptions.md R280).
-/
theorem pixelOn_setPixel_iff (fb : Memory) (x y : Nat) :
    pixelOn (setPixel fb x y) px py = true ↔ pixelOn fb px py = true ∨ px = x ∧ py = y := by
  by_cases h : x < displayWidth ∧ y < displayHeight
  · rw [pixelOn_setPixel fb h.1 h.2 hx]
    simp
  · rw [setPixel, if_neg h]
    refine (or_iff_left ?_).symm
    rintro ⟨rfl, rfl⟩
    exact h ⟨hx, hy⟩

/-- A pixel after composing one bit of a bitmap (60_exceptions.md R278). -/
theorem State.pixelOn_composePixel_iff (s : State) (p : Sprite) (row : Nat) (fb : Memory)
    (col : Nat) :
    pixelOn (s.composePixel p row fb col) px py = true ↔ pixelOn fb px py = true ∨
      s.bitmapOn p row col = true ∧ px = p.x.toNat + col ∧ py = p.y.toNat + row := by
  rw [State.composePixel]
  split
  · next hbit => rw [pixelOn_setPixel_iff hx hy, hbit, and_iff_right rfl]
  · next hbit => simp [hbit]

omit hx hy in
/-- A pixel after steps that each turn it on or leave it. -/
theorem pixelOn_foldl_iff {α : Type} {f : Memory → α → Memory} {turnsOn : α → Prop}
    (h : ∀ fb a, pixelOn (f fb a) px py = true ↔ pixelOn fb px py = true ∨ turnsOn a) (l : List α)
    (fb : Memory) :
    pixelOn (l.foldl f fb) px py = true ↔ pixelOn fb px py = true ∨ ∃ a, a ∈ l ∧ turnsOn a := by
  induction l generalizing fb with
  | nil => simp
  | cons a l ih => simp [ih, h, or_assoc]

/-- A pixel after composing one row of a sprite. -/
theorem State.pixelOn_composeRow_iff (s : State) (p : Sprite) (fb : Memory) (row : Nat) :
    pixelOn (s.composeRow p fb row) px py = true ↔ pixelOn fb px py = true ∨
      ∃ col, col ∈ List.range p.width.toNat ∧
        s.bitmapOn p row col = true ∧ px = p.x.toNat + col ∧ py = p.y.toNat + row :=
  pixelOn_foldl_iff (s.pixelOn_composePixel_iff hx hy p row) _ fb

/-- A pixel after composing one sprite. -/
theorem State.pixelOn_composeSprite_iff (s : State) (fb : Memory) (p : Sprite) :
    pixelOn (s.composeSprite fb p) px py = true ↔ pixelOn fb px py = true ∨
      ∃ row, row ∈ List.range p.height.toNat ∧ ∃ col, col ∈ List.range p.width.toNat ∧
        s.bitmapOn p row col = true ∧ px = p.x.toNat + col ∧ py = p.y.toNat + row :=
  pixelOn_foldl_iff (s.pixelOn_composeRow_iff hx hy p) _ fb

/-- A pixel of the display is on after a composition exactly where a sprite of the list has it on
(60_exceptions.md R277, R278). -/
theorem State.pixelOn_compose_iff (s : State) (sprites : List Sprite) :
    pixelOn (s.compose sprites) px py = true ↔ ∃ p, p ∈ sprites ∧
      ∃ row, row ∈ List.range p.height.toNat ∧ ∃ col, col ∈ List.range p.width.toNat ∧
        s.bitmapOn p row col = true ∧ px = p.x.toNat + col ∧ py = p.y.toNat + row := by
  have hblank : ¬ pixelOn [] px py = true := by simp [pixelOn]
  rw [State.compose, pixelOn_foldl_iff (s.pixelOn_composeSprite_iff hx hy), or_iff_right hblank]

end Pixel

/-- Settles O55: the records are filtered in order, and each step of the composition turns on its
pixel alone. -/
theorem ppuComposesEnabledSprites : Obligations.PpuComposesEnabledSprites := by
  refine fun s => ⟨⟨enabledRecords s.ppu.config, pairwise_enabledRecords _,
    fun _ => mem_enabledRecords, ?_⟩, fun px py hx hy => ?_, ?_⟩
  · rw [State.ppuUpdate_active, parseSprites_eq_map]
  · rw [State.ppuUpdate_front, State.ppuUpdate_active, State.pixelOn_compose_iff hx hy]
    simp only [State.bitmapOn_iff, List.mem_range]
    constructor
    · rintro ⟨p, hp, row, hrow, col, hcol, ⟨hmiss, hbit⟩, rfl, rfl⟩
      exact ⟨p, hp, row, col, hrow, hcol, rfl, rfl, hmiss, hbit⟩
    · rintro ⟨p, hp, row, col, hrow, hcol, rfl, rfl, hmiss, hbit⟩
      exact ⟨p, hp, row, hrow, col, hcol, ⟨hmiss, hbit⟩, rfl, rfl⟩
  · rw [State.ppuUpdate_front, State.ppuUpdate_back]

/-- A composition depends on the bus alone (60_exceptions.md R279). -/
theorem SameBus.compose {s t : State} (h : SameBus s t) : t.compose = s.compose := by
  have hbit : t.bitmapOn = s.bitmapOn := by
    funext p row col
    simp only [State.bitmapOn, h.busRead]
  have hpixel : t.composePixel = s.composePixel := by
    funext p row fb col
    simp only [State.composePixel, hbit]
  have hrow : t.composeRow = s.composeRow := by
    funext p fb row
    simp only [State.composeRow, hpixel]
  have hsprite : t.composeSprite = s.composeSprite := by
    funext fb p
    simp only [State.composeSprite, hrow]
  funext sprites
  simp only [State.compose, hsprite]

/-- The PPU after an update: the configuration region as it was, and both framebuffers the
composition of the enabled records. -/
theorem State.ppuUpdate_ppu (s : State) : s.ppuUpdate.ppu =
    ⟨s.ppu.config, parseSprites s.ppu.config, s.compose (parseSprites s.ppu.config),
      s.compose (parseSprites s.ppu.config)⟩ := by
  simp only [State.ppuUpdate, present_eq]

/-- Settles O56: the second update parses the same region and composes from the same bus. -/
theorem ppuUpdateIdempotent : Obligations.PpuUpdateIdempotent := by
  intro s
  have hppu : s.ppuUpdate.ppuUpdate.ppu = s.ppuUpdate.ppu := by
    rw [State.ppuUpdate_ppu, State.ppuUpdate_ppuConfig, s.ppuUpdate_sameBus.compose,
      ← State.ppuUpdate_ppu]
  calc s.ppuUpdate.ppuUpdate = { s.ppuUpdate with ppu := s.ppuUpdate.ppuUpdate.ppu } := rfl
    _ = s.ppuUpdate := by rw [hppu]

/-- Settles O46: by the frame of each update. -/
theorem deviceUpdatesLeaveCpu : Obligations.DeviceUpdatesLeaveCpu :=
  ⟨fun s => ⟨s.updateDevices_regs, s.updateDevices_cc, s.updateDevices_stat, s.updateDevices_pc,
    s.updateDevices_ram, rfl, s.updateDevices_config⟩, fun _ => ⟨_, _, _, rfl⟩⟩

/-! ### The joystick -/

/-- Settles O52: the byte is the concatenation of its bits. -/
theorem joystickByteHoldsButtons : Obligations.JoystickByteHoldsButtons := by
  intro s b
  simp only [State.joystickUpdate, Buttons.toByte, BitVec.getLsbD_append]
  simp

/-- The reserved bits of the button byte are 0 (60_exceptions.md R296). -/
theorem Buttons.toByte_and_three (b : Buttons) : Buttons.toByte b &&& 3#8 = 0#8 := by
  obtain ⟨aUp, aDown, bUp, bDown, start, reset⟩ := b
  revert aUp aDown bUp bDown start reset
  decide

/-! ### The invariant -/

theorem Memory.fits_nil (n : Nat) : Memory.fits [] n = true := rfl

theorem fits_setPixel {fb : Memory} (h : Memory.fits fb framebufferSize = true) (x y : Nat) :
    Memory.fits (setPixel fb x y) framebufferSize = true := by
  unfold setPixel
  split
  · next hin =>
    refine Memory.fits_write _ h ?_
    simp only [pixelIndex, displayWidth, displayHeight, framebufferSize] at hin ⊢
    omega
  · exact h

theorem State.fits_composePixel (s : State) (p : Sprite) (row : Nat) (fb : Memory) (col : Nat)
    (h : Memory.fits fb framebufferSize = true) :
    Memory.fits (s.composePixel p row fb col) framebufferSize = true := by
  unfold State.composePixel
  split
  · exact fits_setPixel h _ _
  · exact h

/-- Steps that each keep the size of a byte array keep it together. -/
theorem Memory.fits_foldl {α : Type} {f : Memory → α → Memory} {n : Nat}
    (h : ∀ m a, Memory.fits m n = true → Memory.fits (f m a) n = true) (l : List α) (m : Memory)
    (hm : Memory.fits m n = true) : Memory.fits (l.foldl f m) n = true :=
  List.foldlRecOn (motive := fun m => Memory.fits m n = true) l f hm fun m hm a _ => h m a hm

/-- A composition fits a framebuffer (60_exceptions.md R274). -/
theorem State.fits_compose (s : State) (sprites : List Sprite) :
    Memory.fits (s.compose sprites) framebufferSize = true :=
  Memory.fits_foldl (fun fb p => Memory.fits_foldl (fun fb row =>
    Memory.fits_foldl (s.fits_composePixel p row) _ fb) _ fb) _ _ (Memory.fits_nil _)

/-- Settles O2: every byte array is empty after reset, and an unlisted byte is 0. -/
theorem resetDevicesZero : Obligations.ResetDevicesZero :=
  fun _ _ => ⟨rfl, rfl, rfl, fun _ _ => by simp [State.resetWith, pixelOn], rfl, rfl⟩

/-- The invariant holds after reset. -/
theorem State.Inv.resetWith {c : Config} (h : c.wf = true) : (State.resetWith c).Inv where
  config := h
  ram := Memory.fits_nil _
  ppuConfig := Memory.fits_nil _
  back := Memory.fits_nil _
  front := rfl
  activeLength := Nat.zero_le _
  activeEnabled := rfl
  timer := by
    simp only [Config.wf, Bool.and_eq_true, decide_eq_true_eq] at h
    exact h.2
  joystick := by simp [State.resetWith]

/-- A default map with RAM of at least one byte is one a machine can be built with. -/
theorem wf_standard {p : Platform} {n : Nat} (cap : Nat) (hn : 1 ≤ n) :
    (Config.standard p n cap).wf = true := by
  have hpos : 0 < n := hn
  cases p <;> simp [Config.wf, Config.standard, defaultMap, standardTimerPeriodUs, hn, hpos]

/-- Settles O3: reset from parameters that are wf, the model's own among them. -/
theorem resetMeetsInvariant : Obligations.ResetMeetsInvariant :=
  ⟨fun _ => State.Inv.resetWith, State.Inv.resetWith (wf_standard _ (by decide)),
    fun _ _ cap => wf_standard cap⟩

theorem SameBus.bytesFit {s t : State} (h : SameBus s t) (hs : s.bytesFit) : t.bytesFit := by
  rw [State.bytesFit, h.config, h.ram, h.ppuConfig]
  exact hs

/-- An instruction keeps RAM and the PPU configuration region canonical and within their sizes. -/
theorem BytesWritten.bytesFit {s t : State} {addr : Option Word} (h : BytesWritten s t addr)
    (hs : s.bytesFit) : t.bytesFit := by
  cases h with
  | unchanged h => exact h.bytesFit hs
  | word a v _ h => exact h.bytesFit (State.bytesFit_memWrite hs a v)

theorem SameBus.afterFetch (s : State) : SameBus s s.afterFetch := by
  unfold State.afterFetch
  cases s.fetch.ok
  · exact (SameBus.refl s).raise _
  · exact SameBus.refl s

theorem runCycle_bytesFit {s t : State} (h : runCycle s = .next t) (hs : s.bytesFit) :
    t.bytesFit := by
  have hfetch := SameBus.afterFetch s
  by_cases haok : s.stat = .aok
  · rcases runCycle_cases haok with ⟨-, -, hrun⟩ | ⟨i, rest, -, hrun⟩ | hrun <;> rw [hrun] at h
    · cases h; exact hfetch.bytesFit hs
    · exact (exec_bytesWritten h).bytesFit (hfetch.bytesFit hs)
    · cases h; exact (hfetch.raise _).bytesFit hs
  · rw [runCycle_of_not_aok haok] at h
    cases h; exact hs

/-- A cycle keeps the invariant: it touches no hidden device state, and the bytes it writes fit. -/
theorem State.Inv.cycle {s t : State} (hs : s.Inv) (h : runCycle s = .next t) : t.Inv := by
  obtain ⟨hactive, hback, hfront, htimer, hjoystick, hconfig, -, -⟩ := (CpuStep.of_runCycle h).frame
  obtain ⟨hram, hppuConfig⟩ := runCycle_bytesFit h ⟨hs.ram, hs.ppuConfig⟩
  exact {
    config := hconfig ▸ hs.config
    ram := hram
    ppuConfig := hppuConfig
    back := hback ▸ hs.back
    front := by rw [hfront, hback, hs.front]
    activeLength := hactive ▸ hs.activeLength
    activeEnabled := hactive ▸ hs.activeEnabled
    timer := by rw [htimer, hconfig]; exact hs.timer
    joystick := hjoystick ▸ hs.joystick }

@[simp] theorem State.updateDevices_ppuConfig (s : State) :
    s.updateDevices.ppu.config = s.ppu.config := rfl

/-- The device updates keep the invariant: the PPU composes anew, the timer carries a rest of a
division by its period, and the button byte has its reserved bits 0. -/
theorem State.Inv.updateDevices {s : State} (hs : s.Inv) : s.updateDevices.Inv where
  config := hs.config
  ram := by rw [State.updateDevices_ram, State.updateDevices_config]; exact hs.ram
  ppuConfig := by rw [State.updateDevices_ppuConfig]; exact hs.ppuConfig
  back := s.fits_compose (parseSprites s.ppu.config)
  front := s.ppuUpdate_front
  activeLength := length_parseSprites_le s.ppu.config
  activeEnabled := all_enabled_parseSprites s.ppu.config
  timer := Nat.mod_lt (s.timer.acc + s.hostInput.deltaUs) (Nat.zero_lt_of_lt hs.timer)
  joystick := Buttons.toByte_and_three s.hostInput.buttons

theorem State.Inv.endIteration {s : State} (hs : s.Inv) : s.endIteration.Inv := by
  have hcount : ∀ {t : State}, t.Inv → ({ t with iteration := s.iteration + 1 } : State).Inv :=
    fun ht => ⟨ht.config, ht.ram, ht.ppuConfig, ht.back, ht.front, ht.activeLength,
      ht.activeEnabled, ht.timer, ht.joystick⟩
  unfold State.endIteration
  split
  · exact hcount hs.updateDevices
  · exact hcount hs

/-- Settles O4: a step is a cycle and the end of an iteration, and both keep the invariant. -/
theorem stepKeepsInvariant : Obligations.StepKeepsInvariant := by
  intro s t hs h
  obtain ⟨u, hu, -, rfl⟩ := step_inv h
  exact (hs.cycle hu).endIteration

end Sys2Proof.Machine

/-! ## Proofs: the driver's run and its snapshots (70_reset_and_hazards.md)

The loop of the driver as a number of steps of the machine, and the words a snapshot lists. -/

namespace Sys2Proof.Machine

/-! ### The run -/

theorem State.runEnded_iff (s : State) :
    s.runEnded = true ↔ s.stat ≠ .aok ∨ s.config.cycleCap ≤ s.iteration := by
  rw [State.runEnded, Bool.or_eq_true, bne_iff_ne, decide_eq_true_eq]

/-- A run of the machine begins with a step. -/
theorem core_run_succ {s u : State} (h : step s = .next u) (k : Nat) :
    Host.Core.run core (k + 1) s = Host.Core.run core k u := by
  have hstep : core.step s = .next u := h
  simp only [Host.Core.run, hstep]

/-- `k` iterations lead from `s` to `t`, and before each of them the loop of the driver goes on:
STAT is AOK and the cap is not reached (70_reset_and_hazards.md R331). -/
structure Iterates (s : State) (k : Nat) (t : State) : Prop where
  run : Host.Core.run core k s = .next t
  iteration : t.iteration = s.iteration + k
  config : t.config = s.config
  goesOn : ∀ j, j < k → ∃ u : State, Host.Core.run core j s = .next u ∧ u.stat = .aok ∧
    u.iteration = s.iteration + j ∧ u.iteration < s.config.cycleCap

theorem Iterates.refl (s : State) : Iterates s 0 s :=
  ⟨rfl, rfl, rfl, fun _ hj => absurd hj (Nat.not_lt_zero _)⟩

/-- One iteration before the others. -/
theorem Iterates.head {s u t : State} {k : Nat} (hs : s.runEnded = false) (hstep : step s = .next u)
    (hiter : u.iteration = s.iteration + 1) (hconfig : u.config = s.config) (h : Iterates u k t) :
    Iterates s (k + 1) t where
  run := by rw [core_run_succ hstep, h.run]
  iteration := by rw [h.iteration, hiter, Nat.add_right_comm, Nat.add_assoc]
  config := h.config.trans hconfig
  goesOn j hj := by
    cases j with
    | zero =>
      rw [← Bool.not_eq_true, State.runEnded_iff, not_or, not_not, Nat.not_le] at hs
      exact ⟨s, rfl, hs.1, rfl, hs.2⟩
    | succ j =>
      obtain ⟨v, hrun, hv, hcount, hcap⟩ := h.goesOn j (by omega)
      exact ⟨v, by rw [core_run_succ hstep, hrun], hv, by omega, by rwa [← hconfig]⟩

/-- The loop runs iterations until it is over or has none left. -/
theorem runLoop_iterates (n : Nat) (s : State) :
    ∃ t k, runLoop n s = .next t ∧ Iterates s k t ∧ (t.runEnded = true ∨ k = n) := by
  induction n generalizing s with
  | zero => exact ⟨s, 0, rfl, .refl s, .inr rfl⟩
  | succ n ih =>
    cases hs : s.runEnded with
    | true => exact ⟨s, 0, by rw [runLoop, if_pos hs], .refl s, .inl hs⟩
    | false =>
      obtain ⟨u, hstep, hconfig, hiter⟩ := everyStepCompletes.2 s
      obtain ⟨t, k, hloop, hruns, hend⟩ := ih u
      exact ⟨t, k + 1, by simp [runLoop, hs, hstep, hloop], hruns.head hs hstep hiter hconfig,
        hend.imp_right (congrArg (· + 1))⟩

/-- Settles O57: the loop has as many iterations as the cap leaves, so where none is left the cap is
reached. -/
theorem runEndsByStatusOrCap : Obligations.RunEndsByStatusOrCap := by
  intro s
  obtain ⟨t, k, hloop, hruns, hend⟩ := runLoop_iterates (s.config.cycleCap - s.iteration) s
  refine ⟨t, k, hloop, hruns.run, ?_, hruns.iteration, hruns.config, hruns.goesOn⟩
  rcases hend with hend | hk
  · rwa [State.runEnded_iff, hruns.config] at hend
  · exact .inr (by rw [hruns.iteration]; omega)

/-! ### The snapshot -/

/-- The offsets `8j` inside RAM are those of the words it fills, the last one perhaps in part. -/
theorem mul_eight_lt_iff (j n : Nat) : 8 * j < n ↔ j < (n + 7) / 8 := by
  omega

/-- The entries of `MEM` (70_reset_and_hazards.md R334). -/
theorem State.mem_memEntries_iff (s : State) (o : Nat) (w : Int) :
    (o, w) ∈ s.memEntries ↔
      ∃ j, j < (s.config.ramSize + 7) / 8 ∧ s.ramWord (8 * j) ≠ 0 ∧ o = 8 * j ∧
        w = (s.ramWord (8 * j)).toInt := by
  simp only [State.memEntries, List.mem_filterMap, List.mem_map, List.mem_range]
  constructor
  · rintro ⟨_, ⟨j, hj, rfl⟩, h⟩
    split at h
    · cases h
    · next hne => cases h; exact ⟨j, hj, hne, rfl, rfl⟩
  · rintro ⟨j, hj, hne, rfl, rfl⟩
    exact ⟨_, ⟨j, hj, rfl⟩, if_neg hne⟩

/-- Byte `k` of a word of RAM is the byte `k` places on (70_reset_and_hazards.md R334). -/
theorem State.byteOf_ramWord (s : State) (o : Nat) {k : Nat} (hk : k < 8) :
    byteOf k (s.ramWord o) = s.ramByte (o + k) := by
  have hword : s.ramWord o = le64 ((List.range 8).map fun j => s.ramByte (o + j)) := rfl
  rw [hword, byteOf_le64_eq_getD _ hk]
  simp [hk]

/-- Settles O59: the entries are filtered from the words at the offsets inside RAM. -/
theorem snapshotMemIsNonzeroWords : Obligations.SnapshotMemIsNonzeroWords := by
  refine ⟨fun s o w => ?_, fun s o k hk => s.byteOf_ramWord o hk⟩
  rw [State.snapshot, State.mem_memEntries_iff]
  simp only [← mul_eight_lt_iff]
  constructor
  · rintro ⟨j, hj, hne, rfl, rfl⟩
    exact ⟨⟨j, rfl⟩, hj, hne, rfl⟩
  · rintro ⟨⟨j, rfl⟩, hj, hne, rfl⟩
    exact ⟨j, hj, hne, rfl, rfl⟩

end Sys2Proof.Machine
